-- ==== Sys2Proof/Word.lean ====
section
/-! DEFINITION. The words and names of the hardware: bytes, symbols, the fields of a code-table entry, the command and
response words, the two ports and the four buffers (spec 00_scope.md R5, 10_state.md R10, R12, 20_memory.md R40,
30_encoding.md R75, R79). -/

namespace Sys2Proof

/-- A byte: an 8-bit unsigned integer (00_scope.md section 5). -/
abbrev Byte := BitVec 8

/-- A symbol: "one byte value, 0-255" (00_scope.md R5, SYM_W = 8). -/
abbrev Symbol := BitVec 8

/-- A codeword-length field (R5, LEN_W = 8). -/
abbrev CodeLen := BitVec 8

/-- A codeword value (R5, WORD_W = 255). -/
abbrev CodeWord := BitVec 255

/-- A command word (30_encoding.md R75, CMD_W = 80). -/
abbrev Cmd := BitVec 80

/-- A response word (30_encoding.md R79): status in bits 7:0, result in bits 71:8. -/
abbrev Resp := BitVec 72

/-- The two units, each named by the port its commands are sent to (10_state.md R10, 60_exceptions.md R169). -/
inductive Port where
  | enc
  | dec
deriving DecidableEq, Repr

/-- The port that is not this one. -/
def Port.other : Port → Port
  | .enc => .dec
  | .dec => .enc

/-- The four byte buffers, each its own address space (20_memory.md R40). -/
inductive BufferName where
  | src
  | eout
  | din
  | dout
deriving DecidableEq, Repr

end Sys2Proof
end

