-- ==== Sys2Proof/Syntax.lean ====
section
/-! DEFINITION. The commands: one constructor per row of spec/opcode_table.json (30_encoding.md R76, R77). -/

namespace Sys2Proof

/-- A command with its operands (R77): `bitLength` is field `a`, `value` is field `v`, `sourceLength` is `v[31:0]`. -/
inductive Instr where
  | build
  | bpclr
  | append (value : BitVec 64) (bitLength : Nat)
  | tobytes
  | brload
  | read (bitLength : Nat)
  | rembits
  | serialize (sourceLength : Nat)
  | deserialize
  | encode
  | encfile
  | decode
  | decfile
deriving DecidableEq, Repr

/-- The unit that executes a command (R76). -/
def Instr.port : Instr → Port
  | .build => .enc
  | .bpclr => .enc
  | .append _ _ => .enc
  | .tobytes => .enc
  | .brload => .dec
  | .read _ => .dec
  | .rembits => .dec
  | .serialize _ => .enc
  | .deserialize => .dec
  | .encode => .enc
  | .encfile => .enc
  | .decode => .dec
  | .decfile => .dec

end Sys2Proof
end

