-- ==== Sys2Proof/WellFormed.lean ====
section
/-! DEFINITION. When a command fits a command word (30_encoding.md R75, R77): `bit_length` has 8 bits and `source_length`
has 32. The range 1..64 of a bit length is no matter of form: the command tests it itself (R101, R111). -/

namespace Sys2Proof

/-- The operands fit their fields (R77). -/
def Instr.wellFormed : Instr → Bool
  | .append _ n => decide (n < 2 ^ 8)
  | .read n => decide (n < 2 ^ 8)
  | .serialize n => decide (n < 2 ^ 32)
  | .build => true
  | .bpclr => true
  | .tobytes => true
  | .brload => true
  | .rembits => true
  | .deserialize => true
  | .encode => true
  | .encfile => true
  | .decode => true
  | .decfile => true

end Sys2Proof
end

