-- ==== Sys2Proof/Decode.lean ====
section
/-! DEFINITION. Command words to commands (30_encoding.md R75 to R78) and back. A command word is decoded at the port it
is sent to; the decoder is total and refuses by name. -/

namespace Sys2Proof

/-- Why a port does not take a command word (R78). Both give IllegalCommand. -/
inductive DecodeReject where
  /-- The opcode is in no row of R76. -/
  | undefinedOpcode
  /-- The opcode is a row of R76 for the other unit. -/
  | otherUnit
deriving DecidableEq, Repr

/-- `cmd[7:0]` (R75). -/
def Cmd.op (w : Cmd) : BitVec 8 := w.extractLsb' 0 8

/-- `cmd[15:8]` (R75). -/
def Cmd.a (w : Cmd) : BitVec 8 := w.extractLsb' 8 8

/-- `cmd[79:16]` (R75). -/
def Cmd.v (w : Cmd) : BitVec 64 := w.extractLsb' 16 64

/-- The rows of the opcode map (R76), operands assembled as R77 says. -/
def decodeRow (w : Cmd) : Option Instr :=
  match (Cmd.op w).toNat with
  | 0x01 => some .build
  | 0x10 => some .bpclr
  | 0x11 => some (.append (Cmd.v w) (Cmd.a w).toNat)
  | 0x12 => some .tobytes
  | 0x30 => some (.serialize ((Cmd.v w).extractLsb' 0 32).toNat)
  | 0x40 => some .encode
  | 0x41 => some .encfile
  | 0x20 => some .brload
  | 0x21 => some (.read (Cmd.a w).toNat)
  | 0x22 => some .rembits
  | 0x31 => some .deserialize
  | 0x50 => some .decode
  | 0x51 => some .decfile
  | _ => none

/-- The command a port reads from a command word (R76, R78). -/
def decode (p : Port) (w : Cmd) : Except DecodeReject Instr :=
  match decodeRow w with
  | none => .error .undefinedOpcode
  | some i => if i.port = p then .ok i else .error .otherUnit

/-- The opcode of a command (R76). -/
def Instr.opcode : Instr → BitVec 8
  | .build => 0x01#8
  | .bpclr => 0x10#8
  | .append _ _ => 0x11#8
  | .tobytes => 0x12#8
  | .brload => 0x20#8
  | .read _ => 0x21#8
  | .rembits => 0x22#8
  | .serialize _ => 0x30#8
  | .deserialize => 0x31#8
  | .encode => 0x40#8
  | .encfile => 0x41#8
  | .decode => 0x50#8
  | .decfile => 0x51#8

/-- Field `a` of the command word written for a command; zero where the form does not use it (R75). -/
def Instr.fieldA : Instr → BitVec 8
  | .append _ n => BitVec.ofNat 8 n
  | .read n => BitVec.ofNat 8 n
  | .build => 0#8
  | .bpclr => 0#8
  | .tobytes => 0#8
  | .brload => 0#8
  | .rembits => 0#8
  | .serialize _ => 0#8
  | .deserialize => 0#8
  | .encode => 0#8
  | .encfile => 0#8
  | .decode => 0#8
  | .decfile => 0#8

/-- Field `v` of the command word written for a command; zero where the form does not use it (R75). -/
def Instr.fieldV : Instr → BitVec 64
  | .append v _ => v
  | .serialize n => (BitVec.ofNat 32 n).setWidth 64
  | .read _ => 0#64
  | .build => 0#64
  | .bpclr => 0#64
  | .tobytes => 0#64
  | .brload => 0#64
  | .rembits => 0#64
  | .deserialize => 0#64
  | .encode => 0#64
  | .encfile => 0#64
  | .decode => 0#64
  | .decfile => 0#64

/-- A command word from its three fields, `v` on top (R75). -/
def packCmd (v : BitVec 64) (a op : BitVec 8) : Cmd := (v ++ a) ++ op

/-- The command word of a command, unused fields zero. -/
def encode (i : Instr) : Cmd := packCmd i.fieldV i.fieldA i.opcode

/-- The `nbits`-bit table word `w` as the 80-bit command word it is: the bits above `nbits` are zero. -/
def tableCmd (nbits w : Nat) : Cmd := BitVec.ofNat 80 (w % 2 ^ nbits)

/-- The port at which a command word is legal, if it is legal at one; ENC otherwise. No opcode is legal at both (R76). -/
def portOf (w : Cmd) : Port :=
  match decodeRow w with
  | some i => i.port
  | none => .enc

/-- What the decoder of the unit that has the opcode reads from a table word. -/
def decodeTableWord (nbits w : Nat) : Option Instr :=
  match decode (portOf (tableCmd nbits w)) (tableCmd nbits w) with
  | .ok i => some i
  | .error _ => none

end Sys2Proof
end

