-- ==== Sys2Proof/Machine/Bits.lean ====
section
/-! DEFINITION. Bit sequences and byte sequences (00_scope.md section 5; 20_memory.md R41 to R43). -/

namespace Sys2Proof.Machine

/-- `bits_msb(v, n)`: the low `n` bits of `v`, most significant first. -/
def bitsMsb (v : Nat) : Nat → List Bool
  | 0 => []
  | n + 1 => v.testBit n :: bitsMsb v n

/-- `val_msb(q)` carried on from the value `acc` of the bits before. -/
def valMsbFrom (acc : Nat) : List Bool → Nat
  | [] => acc
  | b :: q => valMsbFrom (2 * acc + b.toNat) q

/-- `val_msb(q)`: the integer whose binary digits are `q`, first bit most significant. -/
def valMsb (q : List Bool) : Nat := valMsbFrom 0 q

/-- `zeros(n)`. -/
def zeros (n : Nat) : List Bool := List.replicate n false

/-- `ceil8(L)`: the number of bytes that hold `L` bits. -/
def ceil8 (n : Nat) : Nat := (n + 7) / 8

/-- `le_bytes(v, k)`: the `k`-byte little-endian encoding of `v mod 256^k` (20_memory.md R41). -/
def leBytes (v : Nat) : Nat → List Byte
  | 0 => []
  | k + 1 => BitVec.ofNat 8 v :: leBytes (v / 256) k

/-- `le_val(b)`, the inverse of `le_bytes`. -/
def leVal : List Byte → Nat
  | [] => 0
  | b :: bs => b.toNat + 256 * leVal bs

/-- `bits_of_bytes(b)`: most significant bit of each byte first (20_memory.md R42). -/
def bitsOfBytes (bs : List Byte) : List Bool := bs.flatMap fun b => bitsMsb b.toNat 8

/-- The number of zero bits that fill a sequence of `n` bits up to whole bytes. -/
def padLen (n : Nat) : Nat := (8 - n % 8) % 8

/-- The first `k` groups of eight bits, each as a byte with its first bit in bit 7. -/
def packGroups : Nat → List Bool → List Byte
  | 0, _ => []
  | k + 1, q => BitVec.ofNat 8 (valMsb (q.take 8)) :: packGroups k (q.drop 8)

/-- `pack(q)`: `q` followed by zero bits up to whole bytes, as bytes. -/
def pack (q : List Bool) : List Byte := packGroups (ceil8 q.length) (q ++ zeros (padLen q.length))

/-- The first `k` bytes of a sequence and the rest, if there are that many. -/
def takeBytes : Nat → List Byte → Option (List Byte × List Byte)
  | 0, bs => some ([], bs)
  | _ + 1, [] => none
  | k + 1, b :: bs =>
    match takeBytes k bs with
    | none => none
    | some (hd, tl) => some (b :: hd, tl)

end Sys2Proof.Machine
end

