-- ==== Sys2Proof/Config.lean ====
section
/-! DEFINITION. The named parameters of a part (00_scope.md R6), which the model takes as an argument, and the free values:
constants with no body, so that no proof can see what they are. -/

namespace Sys2Proof

/-- The named parameters (R6). `none` is an unbounded capacity, or a bus base that no platform has given. Log 10, log 11,
log 16. -/
structure Params where
  /-- WEIGHT_W, the width of one weight in bits. -/
  weightW : Nat
  /-- SRC_CAP, the capacity of SRC in bytes. -/
  srcCap : Option Nat
  /-- EOUT_CAP. -/
  eoutCap : Option Nat
  /-- DIN_CAP. -/
  dinCap : Option Nat
  /-- DOUT_CAP. -/
  doutCap : Option Nat
  /-- BUS_BASE_ENC: "No rule reads" it. -/
  busBaseEnc : Option Nat
  /-- BUS_BASE_DEC: "No rule reads" it. -/
  busBaseDec : Option Nat
deriving DecidableEq, Repr

/-- The defaults of R6. -/
def Params.default : Params where
  weightW := 32
  srcCap := some (2 ^ 32 - 1)
  eoutCap := none
  dinCap := none
  doutCap := none
  busBaseEnc := none
  busBaseDec := none

/-- FREE VALUE. The byte at an address of a buffer that nothing has written since the content of the buffer last became
unspecified (93_implementation_defined.md U8: any value). The middle argument is the buffer's `gen`. Log 6. -/
opaque Config.freeByte : BufferName → Nat → Nat → Byte

/-- FREE VALUE. The `word` field of an absent entry of a table that a command makes: the spec gives such an entry its
`len = 0` and no word (R90, R121; U8, U11). The middle argument is the unit's `tableDraws`. Log 7. -/
opaque Config.freeWord : Port → Nat → Symbol → CodeWord

/-- FREE VALUE. ENC.EOUT_LEN after an output of 2^40 bytes or more, which the 40-bit register cannot hold and for which
the spec states no value (10_state.md R15, R18). The argument is the buffer's `gen`. Log 8. -/
opaque Config.freeLen : Nat → BitVec 40

end Sys2Proof
end

