-- ==== Sys2Proof/Machine/State.lean ====
section
/-! DEFINITION. The state of the two units and of the host's side of the ports, as plain data, and its value at reset
(10_state.md, 20_memory.md R40, 30_encoding.md R79). -/

namespace Sys2Proof.Machine

/-- A weight: an unsigned integer (10_state.md R13). That it has at most WEIGHT_W bits is a clause of the invariant, since
WEIGHT_W is a parameter (log 10). -/
abbrev Weight := Nat

/-- One code-table entry (10_state.md R12). `len = 0` marks an absent entry; bits of `word` at positions `≥ len` are
stored and never significant. -/
structure Entry where
  len : CodeLen
  word : CodeWord
deriving DecidableEq, Repr

/-- The code table CT, indexed by symbol value (R12). -/
abbrev Table := Vector Entry 256

/-- The weight array FREQ, indexed by symbol value (R13). -/
abbrev Freq := Vector Weight 256

/-- One byte buffer (20_memory.md R40): the bytes written, addresses strictly rising. An unlisted address has no written
byte: what a command reads there is the free value `Config.freeByte` of the buffer's `gen`, a counter of the model's own
that moves on whenever the content becomes unspecified again (U8). Log 6. -/
structure Memory where
  cells : List Host.Cell
  gen : Nat
deriving DecidableEq, Repr

/-- The BitReader DEC.BR (10_state.md R19). -/
structure Reader where
  buf : List Byte
  cursor : Nat
deriving DecidableEq, Repr

/-- Unit ENC (10_state.md R12, R13, R15, R17; 20_memory.md R40). `resps` holds the responses delivered to the host, oldest
first (30_encoding.md R79); `tableDraws` is the model's own counter of free values (log 7). -/
structure Enc where
  lasterr : BitVec 8
  srcLen : BitVec 32
  eoutLen : BitVec 40
  bp : List Bool
  freq : Freq
  ct : Table
  src : Memory
  eout : Memory
  resps : List Resp
  tableDraws : Nat
deriving DecidableEq, Repr

/-- Unit DEC (10_state.md R12, R16, R19; 20_memory.md R40). -/
structure Dec where
  lasterr : BitVec 8
  dinLen : BitVec 40
  srclen : BitVec 32
  payOff : BitVec 40
  doutLen : BitVec 32
  br : Reader
  ct : Table
  din : Memory
  dout : Memory
  resps : List Resp
  tableDraws : Nat
deriving DecidableEq, Repr

/-- What the host does between commands (60_exceptions.md R171, 10_state.md R14 to R16, 20_memory.md R40, 30_encoding.md
R82, 70_reset_and_hazards.md R190). Reads change nothing and are functions of the state. -/
inductive HostAction where
  /-- Issue a command word to a port and wait for the response. -/
  | command (p : Port) (w : Cmd)
  /-- Write register ENC.SRC_LEN. -/
  | writeSrcLen (n : BitVec 32)
  /-- Write register DEC.DIN_LEN. -/
  | writeDinLen (n : BitVec 40)
  /-- Write register DEC.SRCLEN. -/
  | writeSrclen (n : BitVec 32)
  /-- Write register DEC.PAY_OFF. -/
  | writePayOff (n : BitVec 40)
  /-- Write one weight, WEIGHT_W bits wide (log 10). -/
  | writeFreq (s : Symbol) (w : Weight)
  /-- Write one whole entry of a unit's code table, as given (R14). -/
  | writeEntry (p : Port) (s : Symbol) (len : CodeLen) (word : CodeWord)
  /-- Write one byte of SRC. -/
  | writeSrc (a : Nat) (b : Byte)
  /-- Write one byte of DIN. -/
  | writeDin (a : Nat) (b : Byte)
  /-- `HOST DIN = EOUT`: copy `EOUT[0 .. EOUT_LEN)` to `DIN[0 ..)` (R82). -/
  | copyEoutToDin
  /-- Assert and release the reset input (R190). -/
  | reset
deriving DecidableEq, Repr

/-- The whole state. `params` are the parameters of the part, which no step changes (00_scope.md R6); `inbox` holds the
host's actions still to come, next first: a step takes one. -/
structure State where
  params : Params
  enc : Enc
  dec : Dec
  inbox : List HostAction
deriving DecidableEq, Repr

/-- The machine has no fault: every command ends with success or with a status code (60_exceptions.md R160), so nothing
raises one. -/
inductive Fault where
deriving DecidableEq, Repr

/-- Why the model gives an action no meaning. -/
inductive Refusal where
  /-- Raised by `exec` for a command without a meaning: none is left. Safe. -/
  | notModelled (mnemonic : String)
  /-- Raised by DECODE and DECFILE when the table is not prefix-free: "a model refuses the command" (R144, U1). Safe. -/
  | notPrefixFree
  /-- Raised by a command or a host write that needs more of a buffer than its capacity (R6, U9: refuse). Safe. -/
  | bufferCapacity
deriving DecidableEq, Repr

/-- What a step, a command or a host action answers. -/
abbrev Result := Host.Outcome State Fault Refusal

/-- A buffer with nothing written in it. -/
def Memory.unwritten (gen : Nat) : Memory := { cells := [], gen := gen }

/-- The table at reset: every `len` is 0 (10_state.md section 8); every `word` is 0, which the spec leaves unspecified
(DESIGN CHOICE, log 5). -/
def Table.reset : Table := Vector.replicate 256 { len := 0#8, word := 0#255 }

/-- Unit ENC at reset (10_state.md section 8), with the model's own counters and the responses already delivered as
given. -/
def Enc.reset (srcGen eoutGen draws : Nat) (resps : List Resp) : Enc where
  lasterr := 0#8
  srcLen := 0#32
  eoutLen := 0#40
  bp := []
  freq := Vector.replicate 256 0
  ct := Table.reset
  src := Memory.unwritten srcGen
  eout := Memory.unwritten eoutGen
  resps := resps
  tableDraws := draws

/-- Unit DEC at reset (10_state.md section 8), with the model's own counters and the responses already delivered as
given. -/
def Dec.reset (dinGen doutGen draws : Nat) (resps : List Resp) : Dec where
  lasterr := 0#8
  dinLen := 0#40
  srclen := 0#32
  payOff := 0#40
  doutLen := 0#32
  br := { buf := [], cursor := 0 }
  ct := Table.reset
  din := Memory.unwritten dinGen
  dout := Memory.unwritten doutGen
  resps := resps
  tableDraws := draws

/-- A part with the given parameters right after reset (10_state.md section 8, 70_reset_and_hazards.md R190), with nothing
issued yet. -/
def State.resetWith (P : Params) : State where
  params := P
  enc := Enc.reset 0 0 0 []
  dec := Dec.reset 0 0 0 []
  inbox := []

/-- The machine right after reset, with the parameters at their defaults (00_scope.md R6). -/
def State.reset : State := State.resetWith Params.default

end Sys2Proof.Machine
end

