-- ==== Sys2Proof/Machine/Flags.lean ====
section
/-! DEFINITION. The status of a command: the one flag of the hardware (10_state.md R21, 30_encoding.md R79, R80). -/

namespace Sys2Proof.Machine

/-- The ways a command ends (30_encoding.md R80): success or one typed failure. -/
inductive Status where
  | ok
  | emptyAlphabet
  | unsupportedCodeLength
  | unknownSymbol
  | truncatedHeader
  | headerSizeMismatch
  | outOfBits
  | malformedPayload
  | invalidBitLength
  | illegalCommand
deriving DecidableEq, Repr

/-- The status codes (R80); 10..255 are never produced. -/
def Status.code : Status → BitVec 8
  | .ok => 0#8
  | .emptyAlphabet => 1#8
  | .unsupportedCodeLength => 2#8
  | .unknownSymbol => 3#8
  | .truncatedHeader => 4#8
  | .headerSizeMismatch => 5#8
  | .outOfBits => 6#8
  | .malformedPayload => 7#8
  | .invalidBitLength => 8#8
  | .illegalCommand => 9#8

/-- The response word: `resp[7:0] = status`, `resp[71:8] = result` (R79). -/
def response (st : Status) (result : BitVec 64) : Resp := result ++ st.code

end Sys2Proof.Machine
end

