-- ==== Sys2Proof/Machine/Ops.lean ====
section
/-! DEFINITION. The operations every command is made of: buffers, code tables, the completion of a command and the one way
a command fails. -/

namespace Sys2Proof.Machine

/-! ### Byte buffers (20_memory.md R40, R46) -/

/-- The byte written at an address, if one was. -/
def cellAt (a : Nat) : List Host.Cell → Option Byte
  | [] => none
  | (a', b) :: rest => if a' = a then some b else cellAt a rest

/-- The cells with `b` written at `a`, addresses kept rising. -/
def putCell (a : Nat) (b : Byte) : List Host.Cell → List Host.Cell
  | [] => [(a, b)]
  | (a', b') :: rest =>
    if a < a' then (a, b) :: (a', b') :: rest
    else if a = a' then (a, b) :: rest
    else (a', b') :: putCell a b rest

/-- The cells that hold a byte sequence from address `a` on. -/
def cellsFrom (a : Nat) : List Byte → List Host.Cell
  | [] => []
  | b :: bs => (a, b) :: cellsFrom (a + 1) bs

/-- Addresses strictly rising, all at or above `lo`. -/
def risingFrom (lo : Nat) : List Host.Cell → Bool
  | [] => true
  | (a, _) :: rest => decide (lo ≤ a) && risingFrom (a + 1) rest

/-- The canonical form of a buffer: addresses strictly rising. What an unlisted address reads as is a free value, so no
entry can be known to equal it (log 6). -/
def Memory.wf (m : Memory) : Bool := risingFrom 0 m.cells

/-- `B[a]`: the byte written there, or the free value of an unwritten byte (U8, log 6). -/
def Memory.read (name : BufferName) (m : Memory) (a : Nat) : Byte :=
  match cellAt a m.cells with
  | some b => b
  | none => Config.freeByte name m.gen a

/-- `B[a] <- b`. -/
def Memory.write (m : Memory) (a : Nat) (b : Byte) : Memory := { m with cells := putCell a b m.cells }

/-- Write a byte sequence from address `a` on. -/
def Memory.writeAll (m : Memory) (a : Nat) : List Byte → Memory
  | [] => m
  | b :: bs => (m.write a b).writeAll (a + 1) bs

/-- `B[a .. a + n)` as a byte sequence. -/
def Memory.slice (name : BufferName) (m : Memory) (a : Nat) : Nat → List Byte
  | 0 => []
  | n + 1 => m.read name a :: m.slice name (a + 1) n

/-- `B <- bs`: the whole content of an output buffer is replaced from index 0 (R40); what lies beyond is unspecified
(U8). -/
def Memory.replace (m : Memory) (bs : List Byte) : Memory := { cells := cellsFrom 0 bs, gen := m.gen + 1 }

/-- Whether `n` bytes fit a buffer of the given capacity, `none` being unbounded (00_scope.md R6, U9). -/
def fits (cap : Option Nat) (n : Nat) : Bool :=
  match cap with
  | none => true
  | some c => decide (n ≤ c)

/-! ### Code tables (10_state.md R12, R24) -/

/-- `CT[s]`. -/
def Table.get (T : Table) (s : Symbol) : Entry := Vector.get T s.toFin

/-- `CT[s] <- e`. -/
def Table.put (T : Table) (s : Symbol) (e : Entry) : Table := Vector.set T s.toNat e s.isLt

/-- Every symbol value, ascending. -/
def allSymbols : List Symbol := (List.range 256).map (BitVec.ofNat 8)

/-- A 256-element array with its indices, ascending. -/
def indexed {α : Type} (V : Vector α 256) : List (Symbol × α) := allSymbols.zip V.toList

/-- The 256-element array of a function of the index. -/
def tabulate {α : Type} (f : Symbol → α) : Vector α 256 where
  toArray := (allSymbols.map f).toArray
  size_toArray := by simp [allSymbols]

/-- `Alphabet(T)`, ascending (R24). -/
def Table.alphabet (T : Table) : List Symbol :=
  ((indexed T).filter fun se => decide (se.2.len ≠ 0#8)).map Prod.fst

/-- `Code(T, s)` (R24): the low `len` bits of `word`, most significant first. -/
def Table.code (T : Table) (s : Symbol) : List Bool := bitsMsb (T.get s).word.toNat (T.get s).len.toNat

/-- Whether two symbols' codewords allow a prefix-free code: neither of two different symbols' is a prefix of the
other's. -/
def Table.apart (T : Table) (s t : Symbol) : Bool := decide (s = t) || !((T.code s).isPrefixOf (T.code t))

/-- `PrefixFree(T)` (R24), as a test over the alphabet. -/
def Table.prefixFree (T : Table) : Bool :=
  T.alphabet.all fun s => T.alphabet.all fun t => T.apart s t

/-- A table with every entry absent: `len = 0`; the words are free values (log 7). -/
def Table.absent (p : Port) (draw : Nat) : Table :=
  tabulate fun s => { len := 0#8, word := Config.freeWord p draw s }

/-- `FREQ[s]`. -/
def Freq.get (F : Freq) (s : Symbol) : Weight := Vector.get F s.toFin

/-- `FREQ[s] <- w`. -/
def Freq.put (F : Freq) (s : Symbol) (w : Weight) : Freq := Vector.set F s.toNat w s.isLt

/-! ### Completion of a command (60_exceptions.md R160, R165, R166)

This is the hardware's whole analogue of taking an exception: a failed command writes its code to its unit's LASTERR and
to its response and changes nothing else. No state is saved and there is no return. -/

/-- End a command of ENC: LASTERR and the response (R79, R160). -/
def Enc.complete (st : Status) (result : BitVec 64) (e : Enc) : Enc :=
  { e with lasterr := st.code, resps := e.resps ++ [response st result] }

/-- End a command of DEC: LASTERR and the response (R79, R160). -/
def Dec.complete (st : Status) (result : BitVec 64) (d : Dec) : Dec :=
  { d with lasterr := st.code, resps := d.resps ++ [response st result] }

/-- End a command of a unit. -/
def State.complete (p : Port) (st : Status) (result : BitVec 64) (s : State) : State :=
  match p with
  | .enc => { s with enc := s.enc.complete st result }
  | .dec => { s with dec := s.dec.complete st result }

/-- A command fails: its code, `result = 0`, and nothing else (R165). -/
def fail (p : Port) (st : Status) (s : State) : Result := .next (s.complete p st 0#64)

/-- A command succeeds, its other writes already made. -/
def succeed (p : Port) (result : BitVec 64) (s : State) : Result := .next (s.complete p .ok result)

/-! ### The writes of the commands -/

/-- `ENC.BP.bits <- q`; BP_NBITS is a view of it. -/
def State.setBp (q : List Bool) (s : State) : State := { s with enc := { s.enc with bp := q } }

/-- `ENC.CT <- T`, a table in which `Table.absent` used a draw. -/
def State.setEncTable (T : Table) (s : State) : State :=
  { s with enc := { s.enc with ct := T, tableDraws := s.enc.tableDraws + 1 } }

/-- The value EOUT_LEN takes when `n` bytes are written: `n` where 40 bits hold it, else a free value (log 8). -/
def eoutLenOf (gen n : Nat) : BitVec 40 := if n < 2 ^ 40 then BitVec.ofNat 40 n else Config.freeLen gen

/-- `EOUT <- bs`, which sets EOUT_LEN (00_scope.md section 5). -/
def State.setEout (bs : List Byte) (s : State) : State :=
  { s with enc :=
      { s.enc with eout := s.enc.eout.replace bs, eoutLen := eoutLenOf (s.enc.eout.gen + 1) bs.length } }

/-- `DEC.BR.buf <- buf`, `DEC.BR.cursor <- cursor`; BR_NBYTES and BR_CURSOR are views of them. -/
def State.setReader (buf : List Byte) (cursor : Nat) (s : State) : State :=
  { s with dec := { s.dec with br := { buf := buf, cursor := cursor } } }

/-- `DEC.CT <- T`, `DEC.SRCLEN <- n`, `DEC.PAY_OFF <- pos` (R121). -/
def State.setHeader (T : Table) (n pos : Nat) (s : State) : State :=
  { s with dec :=
      { s.dec with ct := T, tableDraws := s.dec.tableDraws + 1, srclen := BitVec.ofNat 32 n
                   payOff := BitVec.ofNat 40 pos } }

/-- `DOUT <- out`, which sets DOUT_LEN. -/
def State.setDout (out : List Symbol) (s : State) : State :=
  { s with dec := { s.dec with dout := s.dec.dout.replace out, doutLen := BitVec.ofNat 32 out.length } }

/-- Deliver an output to EOUT and succeed; refuse one beyond the buffer's capacity (U9). -/
def deliverEout (bs : List Byte) (s : State) : Result :=
  if fits s.params.eoutCap bs.length then succeed .enc 0#64 (s.setEout bs) else .refused .bufferCapacity

/-- Deliver an output to DOUT and succeed; refuse one beyond the buffer's capacity (U9). -/
def deliverDout (out : List Symbol) (s : State) : Result :=
  if fits s.params.doutCap out.length then succeed .dec 0#64 (s.setDout out) else .refused .bufferCapacity

end Sys2Proof.Machine
end

