-- ==== Sys2Proof/Machine/Operands.lean ====
section
/-! DEFINITION. What commands take as operands besides their fields: the range of a bit length, and the byte sequences that
the rules fix through the length and offset registers (20_memory.md R46: "There is no addressing mode"). -/

namespace Sys2Proof.Machine

/-- The range of `bit_length` for APPEND and READ (R101, R111). -/
def bitLengthOk (n : Nat) : Bool := decide (1 ≤ n) && decide (n ≤ 64)

/-- `SRC[0 .. SRC_LEN)`. -/
def State.source (s : State) : List Symbol := s.enc.src.slice .src 0 s.enc.srcLen.toNat

/-- `DIN[0 .. DIN_LEN)`. -/
def State.input (s : State) : List Byte := s.dec.din.slice .din 0 s.dec.dinLen.toNat

/-- `DIN[off .. DIN_LEN)` if `off ≤ DIN_LEN`, else empty (R144). -/
def State.inputFrom (s : State) (off : Nat) : List Byte := s.dec.din.slice .din off (s.dec.dinLen.toNat - off)

/-- `EOUT[0 .. EOUT_LEN)`. -/
def State.output (s : State) : List Byte := s.enc.eout.slice .eout 0 s.enc.eoutLen.toNat

/-- `DOUT[0 .. DOUT_LEN)`. -/
def State.symbols (s : State) : List Symbol := s.dec.dout.slice .dout 0 s.dec.doutLen.toNat

/-- Run a command whose input is `SRC[0 .. SRC_LEN)`, or refuse an input beyond SRC's capacity (U9). -/
def withSource (s : State) (k : List Symbol → Result) : Result :=
  if fits s.params.srcCap s.enc.srcLen.toNat then k s.source else .refused .bufferCapacity

/-- Run a command whose input is `DIN[off .. DIN_LEN)`, or refuse an input beyond DIN's capacity (U9). From an offset at or
beyond DIN_LEN the input is empty (R144) and exceeds nothing. -/
def withInput (off : Nat) (s : State) (k : Result) : Result :=
  if decide (s.dec.dinLen.toNat ≤ off) || fits s.params.dinCap s.dec.dinLen.toNat then k else .refused .bufferCapacity

end Sys2Proof.Machine
end

