-- ==== Sys2Proof/Machine/BitReader.lean ====
section
/-! DEFINITION. BitReader: the commands BRLOAD, READ, REMBITS (42_bitreader.md). -/

namespace Sys2Proof.Machine

/-- The number of bits left in a reader (R111, R112). -/
def Reader.remaining (r : Reader) : Nat := 8 * r.buf.length - r.cursor

/-- The next `n` bits of a reader (R111). -/
def Reader.next (r : Reader) (n : Nat) : List Bool := ((bitsOfBytes r.buf).drop r.cursor).take n

/-- BRLOAD (R110): a copy of `DIN[0 .. DIN_LEN)`, cursor 0. -/
def execBrload (s : State) : Result := withInput 0 s (succeed .dec 0#64 (s.setReader s.input 0))

/-- READ bit_length (R111): the range is tested first, then the bits that remain. -/
def execRead (bitLength : Nat) (s : State) : Result :=
  if !bitLengthOk bitLength then fail .dec .invalidBitLength s
  else if s.dec.br.remaining < bitLength then fail .dec .outOfBits s
  else
    succeed .dec (BitVec.ofNat 64 (valMsb (s.dec.br.next bitLength)))
      (s.setReader s.dec.br.buf (s.dec.br.cursor + bitLength))

/-- REMBITS (R112). -/
def execRembits (s : State) : Result := succeed .dec (BitVec.ofNat 64 s.dec.br.remaining) s

end Sys2Proof.Machine
end

