-- ==== Sys2Proof/Machine/Huffman.lean ====
section
/-! DEFINITION. The construction of a code table from weights (40_code_table_builder.md R90). -/

namespace Sys2Proof.Machine

/-- A Huffman tree (R90). -/
inductive HTree where
  | leaf (s : Symbol)
  | node (left right : HTree)
deriving DecidableEq, Repr

/-- A pending node of the merge (R90). Weights are added exactly (00_scope.md R7). -/
structure Pending where
  weight : Nat
  seq : Nat
  tree : HTree
deriving DecidableEq, Repr

/-- The order of pending nodes: (weight, seq), compared lexicographically (R90). -/
def Pending.before (x y : Pending) : Bool :=
  decide (x.weight < y.weight) || (decide (x.weight = y.weight) && decide (x.seq < y.seq))

/-- The least of `x` and a list of pending nodes, and the others. -/
def extractMin (x : Pending) : List Pending → Pending × List Pending
  | [] => (x, [])
  | y :: ys =>
    if y.before x then
      let r := extractMin y ys
      (r.1, x :: r.2)
    else
      let r := extractMin x ys
      (r.1, y :: r.2)

/-- The node made of the least two (R90): the first taken is the left child. -/
def mergePair (k : Nat) (x y : Pending) : Pending :=
  { weight := x.weight + y.weight, seq := 256 + k, tree := .node x.tree y.tree }

/-- One turn of the merge loop (R90) on the pending nodes `p :: ps`, `k` merges having been made: the least two are taken
out and the node made of them is added. A single pending node stays. -/
def mergeOnce (k : Nat) (p : Pending) (ps : List Pending) : Pending × List Pending :=
  match extractMin p ps with
  | (x, []) => (x, [])
  | (x, q :: qs) =>
    match extractMin q qs with
    | (y, rest) => (mergePair k x y, rest)

/-- The pending nodes after `n` further turns of the merge loop (R90). -/
def mergeTurns : Nat → Nat → Pending → List Pending → Pending × List Pending
  | 0, _, p, ps => (p, ps)
  | n + 1, k, p, ps =>
    match mergeOnce k p ps with
    | (p', ps') => mergeTurns n (k + 1) p' ps'

/-- The symbols of a tree with their bit paths from the root: 0 to the left, 1 to the right (R90). -/
def leafPaths : HTree → List (Symbol × List Bool)
  | .leaf s => [(s, [])]
  | .node l r =>
    (leafPaths l).map (fun sp => (sp.1, false :: sp.2)) ++ (leafPaths r).map (fun sp => (sp.1, true :: sp.2))

/-- The pending node of one symbol (R90). -/
def pendingOf (F : Freq) (s : Symbol) : Pending :=
  { weight := F.get s, seq := s.toNat, tree := .leaf s }

/-- The symbols with a weight, ascending (R90). -/
def Freq.alphabet (F : Freq) : List Symbol :=
  ((indexed F).filter fun sw => decide (sw.2 ≠ 0)).map Prod.fst

/-- The pending nodes of an alphabet `s :: rest` after `n` merges (R90). -/
def pendingAfter (F : Freq) (s : Symbol) (rest : List Symbol) (n : Nat) : Pending × List Pending :=
  mergeTurns n 0 (pendingOf F s) (rest.map (pendingOf F))

/-- The tree of an alphabet `s :: rest` (R90): "The loop runs |A| - 1 times". -/
def huffmanTree (F : Freq) (s : Symbol) (rest : List Symbol) : HTree := (pendingAfter F s rest rest.length).1.tree

/-- Write the codeword of one bit path into a table (R90). -/
def putPath (T : Table) (sp : Symbol × List Bool) : Table :=
  T.put sp.1 { len := BitVec.ofNat 8 sp.2.length, word := BitVec.ofNat 255 (valMsb sp.2) }

/-- BUILD's table (R90): from the weights `F`, into the all-absent table `T₀`. -/
def buildTable (T₀ : Table) (F : Freq) : Except Status Table :=
  match F.alphabet with
  | [] => .error .emptyAlphabet
  | [s] => .ok (T₀.put s { len := 1#8, word := 0#255 })
  | s :: t :: rest =>
    let paths := leafPaths (huffmanTree F s (t :: rest))
    if paths.any (fun sp => decide (255 < sp.2.length)) then .error .unsupportedCodeLength
    else .ok (paths.foldl putPath T₀)

end Sys2Proof.Machine
end

