-- ==== Sys2Proof/Machine/Builder.lean ====
section
/-! DEFINITION. CodeTableBuilder: the command BUILD (40_code_table_builder.md). -/

namespace Sys2Proof.Machine

/-- BUILD (R90): ENC.CT from ENC.FREQ, or EmptyAlphabet, or UnsupportedCodeLength. -/
def execBuild (s : State) : Result :=
  match buildTable (Table.absent .enc s.enc.tableDraws) s.enc.freq with
  | .error st => fail .enc st s
  | .ok T => succeed .enc 0#64 (s.setEncTable T)

end Sys2Proof.Machine
end

