-- ==== Sys2Proof/Machine/Header.lean ====
section
/-! DEFINITION. The header: `Header(T, n)` and `ParseHeader` (43_header_codec.md R120, R121; layout 30_encoding.md R60 to
R62). -/

namespace Sys2Proof.Machine

/-- The value of a codeword as written: `word mod 2^len` (R120). -/
def Entry.value (e : Entry) : Nat := e.word.toNat % 2 ^ e.len.toNat

/-- One header entry (R61). -/
def entryBytes (T : Table) (s : Symbol) : List Byte :=
  s :: (T.get s).len :: leBytes (T.get s).value (ceil8 (T.get s).len.toNat)

/-- The header without its first two bytes (R120). -/
def headerBody (T : Table) (n : Nat) : List Byte :=
  BitVec.ofNat 8 (T.alphabet.length - 1) :: (leBytes n 4 ++ T.alphabet.flatMap (entryBytes T))

/-- `Header(T, n)` (R120). -/
def header (T : Table) (n : Nat) : Except Status (List Byte) :=
  if T.alphabet.isEmpty then .error .emptyAlphabet
  else .ok (leBytes (2 + (headerBody T n).length) 2 ++ headerBody T n)

/-- Read `count` entries from the bytes that are left, `pos` bytes having been consumed (R121): the table, the bytes
consumed, or TruncatedHeader at the first field that does not fit. -/
def parseEntries : Nat → Table → Nat → List Byte → Except Status (Table × Nat)
  | 0, T, pos, _ => .ok (T, pos)
  | count + 1, T, pos, bytes =>
    match bytes with
    | s :: len :: rest =>
      match takeBytes (ceil8 len.toNat) rest with
      | none => .error .truncatedHeader
      | some (w, rest') =>
        parseEntries count (T.put s { len := len, word := BitVec.ofNat 255 (leVal w % 2 ^ len.toNat) })
          (pos + 2 + ceil8 len.toNat) rest'
    | _ => .error .truncatedHeader

/-- `ParseHeader` over the bytes available (R121), into the all-absent table `T₀`: table, source length, bytes consumed.
The first three fields take 7 bytes; each of them missing gives TruncatedHeader. -/
def parseHeader (T₀ : Table) (bytes : List Byte) : Except Status (Table × Nat × Nat) :=
  match bytes with
  | t0 :: t1 :: asm1 :: n0 :: n1 :: n2 :: n3 :: rest =>
    match parseEntries (asm1.toNat + 1) T₀ 7 rest with
    | .error st => .error st
    | .ok (T, pos) =>
      if leVal [t0, t1] = pos then .ok (T, leVal [n0, n1, n2, n3], pos) else .error .headerSizeMismatch
  | _ => .error .truncatedHeader

end Sys2Proof.Machine
end

