-- ==== Sys2Proof/Machine/Trie.lean ====
section
/-! DEFINITION. The decoding structure and the walk (45_decoder.md R140 to R143), and the table form of R146. -/

namespace Sys2Proof.Machine

/-- A node of the trie (R141). -/
structure Node where
  c0 : Option Nat
  c1 : Option Nat
  leaf : Bool
  sym : Symbol
deriving DecidableEq, Repr

/-- A new node (R141). -/
def Node.new : Node := { c0 := none, c1 := none, leaf := false, sym := 0#8 }

/-- `c_b` (R141). -/
def Node.child (n : Node) (b : Bool) : Option Nat := if b then n.c1 else n.c0

/-- `c_b <- j` (R141). -/
def Node.setChild (n : Node) (b : Bool) (j : Nat) : Node :=
  if b then { n with c1 := some j } else { n with c0 := some j }

/-- The arena: nodes addressed by index, node 0 the root (R140). -/
abbrev Arena := List Node

/-- `node[i]`. -/
def Arena.node (A : Arena) (i : Nat) : Node := List.getD A i Node.new

/-- `node[cur].c_b <- nn; node[nn] = new` (R141). -/
def Arena.grow (A : Arena) (cur : Nat) (b : Bool) : Arena :=
  List.set A cur ((A.node cur).setChild b A.length) ++ [Node.new]

/-- Follow a bit path from `cur`, making the nodes that are missing (R141): the arena and the last node. -/
def trieDescend (A : Arena) (cur : Nat) : List Bool → Arena × Nat
  | [] => (A, cur)
  | b :: p =>
    match (A.node cur).child b with
    | some j => trieDescend A j p
    | none => trieDescend (A.grow cur b) A.length p

/-- Insert the codeword of one symbol (R141). -/
def trieInsert (T : Table) (A : Arena) (s : Symbol) : Arena :=
  let r := trieDescend A 0 (T.code s)
  List.set r.1 r.2 { r.1.node r.2 with leaf := true, sym := s }

/-- `TrieBuild(T)` (R141): ascending symbols from the one-node arena. -/
def trieBuild (T : Table) : Arena := T.alphabet.foldl (trieInsert T) [Node.new]

/-- The loop of `DecodeWalk` (R143): `n` symbols still to emit, `cur` the node, `k` the bits consumed, then the bits left.
`none` is MalformedPayload: bits exhausted, or DEAD (R142). -/
def walkFrom (A : Arena) : Nat → Nat → Nat → List Bool → Option (List Symbol × Nat)
  | 0, _, k, _ => some ([], k)
  | _ + 1, _, _, [] => none
  | n + 1, cur, k, b :: q =>
    match (A.node cur).child b with
    | none => none
    | some j =>
      if (A.node j).leaf then
        match walkFrom A n 0 (k + 1) q with
        | none => none
        | some (out, k') => some ((A.node j).sym :: out, k')
      else walkFrom A (n + 1) j (k + 1) q

/-- `DecodeWalk(T, n, P)` (R143): the symbols and the number of bits consumed. -/
def decodeWalk (T : Table) (n : Nat) (P : List Byte) : Except Status (List Symbol × Nat) :=
  match walkFrom (trieBuild T) n 0 0 (bitsOfBytes P) with
  | none => .error .malformedPayload
  | some r => .ok r

/-- `Lookup(T)` (R146): the symbol whose codeword has length `l` and value `v`. -/
def Table.lookup (T : Table) (l v : Nat) : Option Symbol :=
  T.alphabet.find? fun s =>
    decide ((T.get s).len.toNat = l) && decide ((T.get s).word.toNat % 2 ^ (T.get s).len.toNat = v)

/-- The decoder "with an explicit state per sequence of bits-read-so-far" (R146): `l` bits of value `v` read since the
last symbol. It fails only when the bits run out. -/
def tableWalkFrom (T : Table) : Nat → Nat → Nat → Nat → List Bool → Option (List Symbol × Nat)
  | 0, _, _, k, _ => some ([], k)
  | _ + 1, _, _, _, [] => none
  | n + 1, l, v, k, b :: q =>
    match T.lookup (l + 1) (2 * v + b.toNat) with
    | some s =>
      match tableWalkFrom T n 0 0 (k + 1) q with
      | none => none
      | some (out, k') => some (s :: out, k')
    | none => tableWalkFrom T (n + 1) (l + 1) (2 * v + b.toNat) (k + 1) q

/-- The table form of `DecodeWalk` (R146). -/
def tableWalk (T : Table) (n : Nat) (P : List Byte) : Except Status (List Symbol × Nat) :=
  match tableWalkFrom T n 0 0 0 (bitsOfBytes P) with
  | none => .error .malformedPayload
  | some r => .ok r

end Sys2Proof.Machine
end

