-- ==== Sys2Proof/Machine/Decoder.lean ====
section
/-! DEFINITION. Decoder: the commands DECODE and DECFILE (45_decoder.md). A table that is not prefix-free is refused (R144
precondition, 93_implementation_defined.md U1; log 9). -/

namespace Sys2Proof.Machine

/-- DECODE (R144). -/
def execDecode (s : State) : Result :=
  withInput s.dec.payOff.toNat s
    (if !s.dec.ct.prefixFree then .refused .notPrefixFree
    else
      match decodeWalk s.dec.ct s.dec.srclen.toNat (s.inputFrom s.dec.payOff.toNat) with
      | .error st => fail .dec st s
      | .ok (out, _) => deliverDout out s)

/-- DECFILE (R145): the header first; nothing is written unless the whole decode succeeds. -/
def execDecfile (s : State) : Result :=
  withInput 0 s
    (match parseHeader (Table.absent .dec s.dec.tableDraws) s.input with
    | .error st => fail .dec st s
    | .ok (T, n, pos) =>
      if !T.prefixFree then .refused .notPrefixFree
      else
        match decodeWalk T n (s.inputFrom pos) with
        | .error st => fail .dec st s
        | .ok (out, _) => deliverDout out (s.setHeader T n pos))

end Sys2Proof.Machine
end

