-- ==== Sys2Proof/Machine/Payload.lean ====
section
/-! DEFINITION. The payload function `EncodeBits` (44_encoder.md R130). -/

namespace Sys2Proof.Machine

/-- `EncodeBits(T, x)` (R130, 30_encoding.md R63): the codewords in source order, or UnknownSymbol at a symbol without an
entry. The append of one codeword is `Code(T, s)`, the stated effect of R130's inner loop (`appendChunks`). -/
def encodeBits (T : Table) : List Symbol → Except Status (List Bool)
  | [] => .ok []
  | s :: x =>
    if (T.get s).len = 0#8 then .error .unknownSymbol
    else
      match encodeBits T x with
      | .error st => .error st
      | .ok q => .ok (T.code s ++ q)

/-- R130's inner loop: append the `rem` low bits of `w` in pieces of at most 64, most significant first. The first
argument bounds the turns. -/
def appendChunks : Nat → Nat → Nat → List Bool → List Bool
  | 0, _, _, q => q
  | fuel + 1, w, rem, q =>
    if rem = 0 then q
    else
      appendChunks fuel w (rem - min 64 rem) (q ++ bitsMsb (w >>> (rem - min 64 rem)) (min 64 rem))

end Sys2Proof.Machine
end

