-- ==== Sys2Proof/Machine/Encoder.lean ====
section
/-! DEFINITION. Encoder: the commands ENCODE and ENCFILE (44_encoder.md). -/

namespace Sys2Proof.Machine

/-- ENCODE (R131). -/
def execEncode (s : State) : Result :=
  withSource s fun x =>
    match encodeBits s.enc.ct x with
    | .error st => fail .enc st s
    | .ok q => deliverEout (pack q) s

/-- ENCFILE (R132): the header is formed first, so EmptyAlphabet comes before UnknownSymbol. -/
def execEncfile (s : State) : Result :=
  withSource s fun x =>
    match header s.enc.ct s.enc.srcLen.toNat with
    | .error st => fail .enc st s
    | .ok h =>
      match encodeBits s.enc.ct x with
      | .error st => fail .enc st s
      | .ok q => deliverEout (h ++ pack q) s

end Sys2Proof.Machine
end

