-- ==== Sys2Proof/Machine/HeaderCodec.lean ====
section
/-! DEFINITION. HeaderCodec: the commands SERIALIZE and DESERIALIZE (43_header_codec.md). -/

namespace Sys2Proof.Machine

/-- SERIALIZE source_length (R120). -/
def execSerialize (sourceLength : Nat) (s : State) : Result :=
  match header s.enc.ct sourceLength with
  | .error st => fail .enc st s
  | .ok h => deliverEout h s

/-- DESERIALIZE (R121). -/
def execDeserialize (s : State) : Result :=
  withInput 0 s
    (match parseHeader (Table.absent .dec s.dec.tableDraws) s.input with
    | .error st => fail .dec st s
    | .ok (T, n, pos) => succeed .dec 0#64 (s.setHeader T n pos))

end Sys2Proof.Machine
end

