-- ==== Sys2Proof/Machine/Packer.lean ====
section
/-! DEFINITION. BitPacker: the commands BPCLR, APPEND, TOBYTES (41_bitpacker.md). -/

namespace Sys2Proof.Machine

/-- BPCLR (R100). -/
def execBpclr (s : State) : Result := succeed .enc 0#64 (s.setBp [])

/-- APPEND value, bit_length (R101). -/
def execAppend (value : BitVec 64) (bitLength : Nat) (s : State) : Result :=
  if bitLengthOk bitLength then succeed .enc 0#64 (s.setBp (s.enc.bp ++ bitsMsb value.toNat bitLength))
  else fail .enc .invalidBitLength s

/-- TOBYTES (R102): the packer is left as it is. -/
def execTobytes (s : State) : Result := deliverEout (pack s.enc.bp) s

end Sys2Proof.Machine
end

