-- ==== Sys2Proof/Machine/Dispatch.lean ====
section
/-! DEFINITION. One arm per command (30_encoding.md R76). -/

namespace Sys2Proof.Machine

def exec (i : Instr) (s : State) : Host.Outcome State Fault Refusal :=
  match i with
  | .build => Sys2Proof.Machine.execBuild s
  | .bpclr => Sys2Proof.Machine.execBpclr s
  | .append value bitLength => Sys2Proof.Machine.execAppend value bitLength s
  | .tobytes => Sys2Proof.Machine.execTobytes s
  | .brload => Sys2Proof.Machine.execBrload s
  | .read bitLength => Sys2Proof.Machine.execRead bitLength s
  | .rembits => Sys2Proof.Machine.execRembits s
  | .serialize sourceLength => Sys2Proof.Machine.execSerialize sourceLength s
  | .deserialize => Sys2Proof.Machine.execDeserialize s
  | .encode => Sys2Proof.Machine.execEncode s
  | .encfile => Sys2Proof.Machine.execEncfile s
  | .decode => Sys2Proof.Machine.execDecode s
  | .decfile => Sys2Proof.Machine.execDecfile s

end Sys2Proof.Machine
end

