-- ==== Sys2Proof/Machine/HostPort.lean ====
section
/-! DEFINITION. The host's port of the two units: command words, writes, reads, reset, and the host macros (10_state.md R14
to R18, 20_memory.md R40, 30_encoding.md R75 to R83, 60_exceptions.md R171, 70_reset_and_hazards.md R190). -/

namespace Sys2Proof.Machine

/-! ### Commands -/

/-- An opcode the unit does not define (R78): the command fails with IllegalCommand. -/
def illegalCommand (p : Port) (s : State) : Result := fail p .illegalCommand s

/-- A command word given to a port (R75, R76, R78). -/
def issue (p : Port) (w : Cmd) (s : State) : Result :=
  match decode p w with
  | .ok i => exec i s
  | .error _ => illegalCommand p s

/-! ### Writes -/

/-- Write a register ENC.SRC_LEN (R15). -/
def State.setSrcLen (n : BitVec 32) (s : State) : State := { s with enc := { s.enc with srcLen := n } }

/-- Write register DEC.DIN_LEN (R16). -/
def State.setDinLen (n : BitVec 40) (s : State) : State := { s with dec := { s.dec with dinLen := n } }

/-- Write register DEC.SRCLEN (R16). -/
def State.setSrclen (n : BitVec 32) (s : State) : State := { s with dec := { s.dec with srclen := n } }

/-- Write register DEC.PAY_OFF (R16). -/
def State.setPayOff (n : BitVec 40) (s : State) : State := { s with dec := { s.dec with payOff := n } }

/-- Write one weight (R13): the WEIGHT_W bits that a port of that width carries (log 10). -/
def State.setFreq (c : Symbol) (w : Weight) (s : State) : State :=
  { s with enc := { s.enc with freq := s.enc.freq.put c (w % 2 ^ s.params.weightW) } }

/-- Write one code-table entry as given, "with no masking and no check" (R14). -/
def State.setEntry (p : Port) (c : Symbol) (e : Entry) (s : State) : State :=
  match p with
  | .enc => { s with enc := { s.enc with ct := s.enc.ct.put c e } }
  | .dec => { s with dec := { s.dec with ct := s.dec.ct.put c e } }

/-- Write bytes of SRC from an address on (R40); beyond SRC's capacity there is no byte (U9). -/
def writeSource (a : Nat) (bs : List Byte) (s : State) : Result :=
  if fits s.params.srcCap (a + bs.length) then
    .next { s with enc := { s.enc with src := s.enc.src.writeAll a bs } }
  else .refused .bufferCapacity

/-- Write bytes of DIN from an address on (R40); beyond DIN's capacity there is no byte (U9). -/
def writeInput (a : Nat) (bs : List Byte) (s : State) : Result :=
  if fits s.params.dinCap (a + bs.length) then
    .next { s with dec := { s.dec with din := s.dec.din.writeAll a bs } }
  else .refused .bufferCapacity

/-- Assert and release reset (R190): both units take their reset values and the buffers' contents are unspecified anew
(U8), so each buffer's `gen` moves on. The responses already delivered and the host's further actions are the host's, and
stay. -/
def State.resetUnits (s : State) : State :=
  { s with
    enc := Enc.reset (s.enc.src.gen + 1) (s.enc.eout.gen + 1) s.enc.tableDraws s.enc.resps
    dec := Dec.reset (s.dec.din.gen + 1) (s.dec.dout.gen + 1) s.dec.tableDraws s.dec.resps }

/-- One action of the host. -/
def perform (act : HostAction) (s : State) : Result :=
  match act with
  | .command p w => issue p w s
  | .writeSrcLen n => .next (s.setSrcLen n)
  | .writeDinLen n => .next (s.setDinLen n)
  | .writeSrclen n => .next (s.setSrclen n)
  | .writePayOff n => .next (s.setPayOff n)
  | .writeFreq c w => .next (s.setFreq c w)
  | .writeEntry p c len word => .next (s.setEntry p c { len := len, word := word })
  | .writeSrc a b => writeSource a [b] s
  | .writeDin a b => writeInput a [b] s
  | .copyEoutToDin => writeInput 0 s.output s
  | .reset => .next s.resetUnits

/-! ### Reads: functions of the state, with no effect (20_memory.md R46) -/

/-- The registers of both units (R15, R16). -/
inductive Reg where
  | encLasterr
  | encSrcLen
  | encEoutLen
  | encBpNbits
  | decLasterr
  | decDinLen
  | decSrclen
  | decPayOff
  | decDoutLen
  | decBrCursor
  | decBrNbytes
deriving DecidableEq, Repr

/-- The unit a register belongs to. -/
def Reg.port : Reg → Port
  | .encLasterr => .enc
  | .encSrcLen => .enc
  | .encEoutLen => .enc
  | .encBpNbits => .enc
  | .decLasterr => .dec
  | .decDinLen => .dec
  | .decSrclen => .dec
  | .decPayOff => .dec
  | .decDoutLen => .dec
  | .decBrCursor => .dec
  | .decBrNbytes => .dec

/-- The number of a register on its unit's port (R15, R16). -/
def Reg.number : Reg → Nat
  | .encLasterr => 0
  | .encSrcLen => 1
  | .encEoutLen => 2
  | .encBpNbits => 3
  | .decLasterr => 0
  | .decDinLen => 1
  | .decSrclen => 2
  | .decPayOff => 3
  | .decDoutLen => 4
  | .decBrCursor => 5
  | .decBrNbytes => 6

/-- The width of a register in bits (R15, R16). -/
def Reg.width : Reg → Nat
  | .encLasterr => 8
  | .encSrcLen => 32
  | .encEoutLen => 40
  | .encBpNbits => 40
  | .decLasterr => 8
  | .decDinLen => 40
  | .decSrclen => 32
  | .decPayOff => 40
  | .decDoutLen => 32
  | .decBrCursor => 43
  | .decBrNbytes => 40

/-- The host writes this register by this action, if it may (R15, R16: RW). -/
def Reg.write (r : Reg) (n : Nat) : Option HostAction :=
  match r with
  | .encSrcLen => some (.writeSrcLen (BitVec.ofNat 32 n))
  | .decDinLen => some (.writeDinLen (BitVec.ofNat 40 n))
  | .decSrclen => some (.writeSrclen (BitVec.ofNat 32 n))
  | .decPayOff => some (.writePayOff (BitVec.ofNat 40 n))
  | .encLasterr => none
  | .encEoutLen => none
  | .encBpNbits => none
  | .decLasterr => none
  | .decDoutLen => none
  | .decBrCursor => none
  | .decBrNbytes => none

/-- What the host reads in a register. BP_NBITS shows the low 40 bits of the packer's length (R18, U10); BR_CURSOR and
BR_NBYTES show the reader (R16). Log 13. -/
def readReg (r : Reg) (s : State) : Nat :=
  match r with
  | .encLasterr => s.enc.lasterr.toNat
  | .encSrcLen => s.enc.srcLen.toNat
  | .encEoutLen => s.enc.eoutLen.toNat
  | .encBpNbits => s.enc.bp.length % 2 ^ 40
  | .decLasterr => s.dec.lasterr.toNat
  | .decDinLen => s.dec.dinLen.toNat
  | .decSrclen => s.dec.srclen.toNat
  | .decPayOff => s.dec.payOff.toNat
  | .decDoutLen => s.dec.doutLen.toNat
  | .decBrCursor => s.dec.br.cursor % 2 ^ 43
  | .decBrNbytes => s.dec.br.buf.length % 2 ^ 40

/-- What the host reads in a weight (R13). -/
def readFreq (c : Symbol) (s : State) : Weight := s.enc.freq.get c

/-- What the host reads in a code-table entry (R14). -/
def readEntry (p : Port) (c : Symbol) (s : State) : Entry :=
  match p with
  | .enc => s.enc.ct.get c
  | .dec => s.dec.ct.get c

/-- What the host reads in a byte of a buffer (R40). -/
def readByte (name : BufferName) (a : Nat) (s : State) : Byte :=
  match name with
  | .src => s.enc.src.read .src a
  | .eout => s.enc.eout.read .eout a
  | .din => s.dec.din.read .din a
  | .dout => s.dec.dout.read .dout a

/-- The responses a unit has delivered, oldest first (R79). -/
def responses (p : Port) (s : State) : List Resp :=
  match p with
  | .enc => s.enc.resps
  | .dec => s.dec.resps

/-! ### Assembler lines (30_encoding.md R82, R83) -/

/-- `MNEMONIC operands`: the command at its unit. -/
def asmCommand (i : Instr) : HostAction := .command i.port (encode i)

/-- `HOST SRC = b0 b1 ...`, from an index on. -/
def asmSource (a : Nat) : List Byte → List HostAction
  | [] => []
  | b :: bs => .writeSrc a b :: asmSource (a + 1) bs

/-- `HOST DIN = b0 b1 ...`, from an index on. -/
def asmInput (a : Nat) : List Byte → List HostAction
  | [] => []
  | b :: bs => .writeDin a b :: asmInput (a + 1) bs

/-- `SETSRC b0 b1 ...` (R83). -/
def asmSetsrc (bs : List Byte) : List HostAction := asmSource 0 bs ++ [.writeSrcLen (BitVec.ofNat 32 bs.length)]

/-- `SETDIN b0 b1 ...` (R83). -/
def asmSetdin (bs : List Byte) : List HostAction := asmInput 0 bs ++ [.writeDinLen (BitVec.ofNat 40 bs.length)]

end Sys2Proof.Machine
end

