-- ==== Sys2Proof/Machine/Step.lean ====
section
/-! DEFINITION. One step: the host's next action (10_state.md R10, R20; 70_reset_and_hazards.md R199). -/

namespace Sys2Proof.Machine

/-- Take the host's next action and perform it as one atomic step (60_exceptions.md R165). When the host has no further
action, nothing changes (R199). Log 1. -/
def step (s : State) : Host.Outcome State Fault Refusal :=
  match s.inbox with
  | [] => .next s
  | act :: rest => perform act { s with inbox := rest }

/-- The host's next action is to issue the table word `w` to the port that has its opcode: `step` then runs exactly it.
Nothing is fetched from a memory (R20). Log 1, log 14. -/
def State.withFetchWord (s : State) (nbits w : Nat) : State :=
  { s with inbox := .command (portOf (tableCmd nbits w)) (tableCmd nbits w) :: s.inbox }

end Sys2Proof.Machine
end

