-- ==== Sys2Proof/Safety.lean ====
section
/-! DEFINITION. The terms in which claims about the machine are stated: valid tables, layouts, failures, runs of commands,
and the invariant of every reachable state. -/

namespace Sys2Proof.Machine

/-! ### Code tables (10_state.md R24) -/

/-- `T ≈ T'` (R24): the same lengths, and the same words up to the bits that count. -/
def Table.Same (T T' : Table) : Prop :=
  ∀ s, (T.get s).len = (T'.get s).len ∧ (T.get s).value = (T'.get s).value

/-- `PrefixFree(T)` (R24). -/
def Table.PrefixFree (T : Table) : Prop :=
  ∀ s t, s ≠ t → (T.get s).len ≠ 0#8 → (T.get t).len ≠ 0#8 → ¬ T.code s <+: T.code t

/-- `Code(T, x_0) ++ ... ++ Code(T, x_(n-1))`: the bits `Q` of 30_encoding.md R63. -/
def payloadBits (T : Table) (x : List Symbol) : List Bool := x.flatMap T.code

/-- Every symbol of a sequence has an entry. -/
def Table.Covers (T : Table) (x : List Symbol) : Prop := ∀ c ∈ x, (T.get c).len ≠ 0#8

/-! ### Bits and header bytes (20_memory.md R42, 30_encoding.md R60, R61) -/

/-- Bit number `k` of a byte sequence is bit `7 - (k mod 8)` of byte `k div 8` (R42). -/
def bitAt (bs : List Byte) (k : Nat) : Bool := (bs.getD (k / 8) 0#8).getLsbD (7 - k % 8)

/-- A header entry as it lies in the bytes: symbol, length field, codeword bytes (R61). -/
structure HeaderEntry where
  symbol : Symbol
  len : CodeLen
  word : List Byte
deriving DecidableEq, Repr

/-- The codeword takes `ceil8(len)` bytes (R61). -/
def HeaderEntry.fitting (e : HeaderEntry) : Prop := e.word.length = ceil8 e.len.toNat

/-- The bytes of an entry (R61). -/
def HeaderEntry.bytes (e : HeaderEntry) : List Byte := e.symbol :: e.len :: e.word

/-- The bytes of a header (R60, R61) whose `header_total_bytes` field is `total`. -/
def headerLayout (total n : Nat) (entries : List HeaderEntry) : List Byte :=
  leBytes total 2 ++ BitVec.ofNat 8 (entries.length - 1) :: (leBytes n 4 ++ entries.flatMap HeaderEntry.bytes)

/-- The length of a header with these entries (R62). -/
def layoutLength (entries : List HeaderEntry) : Nat := 7 + (entries.map fun e => 2 + e.word.length).sum

/-- The entries of a table's header (43_header_codec.md R120): one per symbol of the alphabet, ascending, the codeword as
`word mod 2^len` in `ceil8(len)` bytes, low byte first. -/
def tableEntries (T : Table) : List HeaderEntry :=
  T.alphabet.map fun c =>
    { symbol := c, len := (T.get c).len
      word := leBytes ((T.get c).word.toNat % 2 ^ (T.get c).len.toNat) (((T.get c).len.toNat + 7) / 8) }

/-- The last entry for a symbol, if there is one: a later entry replaces an earlier (R121 corner (g)). -/
def lastEntry (entries : List HeaderEntry) (c : Symbol) : Option HeaderEntry :=
  entries.reverse.find? fun e => decide (e.symbol = c)

/-- The number of bytes of the payload of `x` (30_encoding.md R63). -/
def payloadLength (T : Table) (x : List Symbol) : Nat := ((x.map fun c => (T.get c).len.toNat).sum + 7) / 8

/-! ### The merge rule of BUILD (40_code_table_builder.md R90) -/

/-- `x` is less than `y`: "(weight, seq), compared lexicographically". -/
def Pending.Less (x y : Pending) : Prop := x.weight < y.weight ∨ x.weight = y.weight ∧ x.seq < y.seq

/-- R90's loop on a set of pending nodes, `k` merges having been made, ends with the tree `t`: with one node left, its
tree; else `x` is the least node, `y` the least of the others, and the node of the two, `x` on the left, is added. -/
inductive MergesTo : Nat → List Pending → HTree → Prop where
  | done (k : Nat) (x : Pending) : MergesTo k [x] x.tree
  | merge (k : Nat) (P : List Pending) (x y : Pending) (rest : List Pending) (t : HTree) :
      P.Perm (x :: y :: rest) → (∀ z ∈ y :: rest, x.Less z) → (∀ z ∈ rest, y.Less z) →
      MergesTo (k + 1) ({ weight := x.weight + y.weight, seq := 256 + k, tree := .node x.tree y.tree } :: rest) t →
      MergesTo k P t

/-- The pending nodes before the first merge (R90): one per symbol with a weight. -/
def initialNodes (F : Freq) : List Pending :=
  F.alphabet.map fun c => { weight := F.get c, seq := c.toNat, tree := .leaf c }

/-! ### Capacities (00_scope.md R6, 93_implementation_defined.md U9) -/

/-- `n` bytes lie within a capacity. -/
def Within (cap : Option Nat) (n : Nat) : Prop := ∀ c, cap = some c → n ≤ c

/-- SRC holds the source. -/
def State.SourceFits (s : State) : Prop := Within s.params.srcCap s.enc.srcLen.toNat

/-- DIN holds the input from an offset on; an empty input fits always. -/
def State.InputFits (off : Nat) (s : State) : Prop :=
  off < s.dec.dinLen.toNat → Within s.params.dinCap s.dec.dinLen.toNat

/-- The input of a command, the bytes that the Operands line of its rule says it reads, lies within its buffer. -/
def InputWithin (i : Instr) (s : State) : Prop :=
  match i with
  | .encode => s.SourceFits
  | .encfile => s.SourceFits
  | .brload => s.InputFits 0
  | .deserialize => s.InputFits 0
  | .decfile => s.InputFits 0
  | .decode => s.InputFits s.dec.payOff.toNat
  | .build => True
  | .bpclr => True
  | .append _ _ => True
  | .tobytes => True
  | .serialize _ => True
  | .read _ => True
  | .rembits => True

/-- The output that a command has left, in a state where it succeeded, lies within the capacities of the given part. -/
def OutputWithin (i : Instr) (P : Params) (t : State) : Prop :=
  match i with
  | .tobytes => Within P.eoutCap t.enc.eout.cells.length
  | .serialize _ => Within P.eoutCap t.enc.eout.cells.length
  | .encode => Within P.eoutCap t.enc.eout.cells.length
  | .encfile => Within P.eoutCap t.enc.eout.cells.length
  | .decode => Within P.doutCap t.dec.dout.cells.length
  | .decfile => Within P.doutCap t.dec.dout.cells.length
  | .build => True
  | .bpclr => True
  | .append _ _ => True
  | .brload => True
  | .read _ => True
  | .rembits => True
  | .deserialize => True

/-- The same machine with other parameters. -/
def State.withParams (P : Params) (s : State) : State := { s with params := P }

/-- The parameters with unbounded output buffers. -/
def unboundedOutput (P : Params) : Params := { P with eoutCap := none, doutCap := none }

/-! ### Failures and runs -/

/-- The unit's LASTERR (10_state.md R15, R16). -/
def lasterrOf (p : Port) (s : State) : BitVec 8 :=
  match p with
  | .enc => s.enc.lasterr
  | .dec => s.dec.lasterr

/-- A list of commands, one after the other (20_memory.md R48). -/
def runCommands : List Instr → State → Result
  | [], s => .next s
  | i :: is, s =>
    match exec i s with
    | .next t => runCommands is t
    | .fault r => .fault r
    | .refused r => .refused r

/-- A list of host actions, one step each: all of them, and nothing after them. -/
def runHost (acts : List HostAction) (s : State) : Result :=
  Host.Core.run Sys2Proof.core acts.length { s with inbox := acts }

/-- The opcodes that are legal at a port (30_encoding.md R76, R78). -/
def legalOpcodes : Port → List Nat
  | .enc => [0x01, 0x10, 0x11, 0x12, 0x30, 0x40, 0x41]
  | .dec => [0x20, 0x21, 0x22, 0x31, 0x50, 0x51]

/-! ### Frames -/

/-- Nothing differs but EOUT, EOUT_LEN, ENC.LASTERR and ENC's responses. -/
def SameButOutput (s t : State) : Prop :=
  t.dec = s.dec ∧ t.inbox = s.inbox ∧ t.params = s.params ∧
    { t.enc with eout := s.enc.eout, eoutLen := s.enc.eoutLen, lasterr := s.enc.lasterr, resps := s.enc.resps } = s.enc

/-- Nothing differs but DOUT, DOUT_LEN, DEC.LASTERR and DEC's responses. -/
def SameButSymbols (s t : State) : Prop :=
  t.enc = s.enc ∧ t.inbox = s.inbox ∧ t.params = s.params ∧
    { t.dec with dout := s.dec.dout, doutLen := s.dec.doutLen, lasterr := s.dec.lasterr, resps := s.dec.resps } = s.dec

/-- The state after a command of ENC that failed with a code (60_exceptions.md R165). -/
def encFailed (code : BitVec 8) (s : State) : State :=
  { s with enc := { s.enc with lasterr := code, resps := s.enc.resps ++ [0#64 ++ code] } }

/-- The state after a command of DEC that failed with a code (60_exceptions.md R165). -/
def decFailed (code : BitVec 8) (s : State) : State :=
  { s with dec := { s.dec with lasterr := code, resps := s.dec.resps ++ [0#64 ++ code] } }

/-! ### Reset (10_state.md section 8) -/

/-- Every state element of the units for which 10_state.md section 8 gives a reset value has it. -/
structure State.AtReset (s : State) : Prop where
  freq : ∀ c, s.enc.freq.get c = 0
  enc_table : ∀ c, (s.enc.ct.get c).len = 0#8
  dec_table : ∀ c, (s.dec.ct.get c).len = 0#8
  packer : s.enc.bp = []
  reader_buf : s.dec.br.buf = []
  reader_cursor : s.dec.br.cursor = 0
  enc_lasterr : s.enc.lasterr = 0#8
  dec_lasterr : s.dec.lasterr = 0#8
  src_len : s.enc.srcLen = 0#32
  eout_len : s.enc.eoutLen = 0#40
  din_len : s.dec.dinLen = 0#40
  srclen : s.dec.srclen = 0#32
  pay_off : s.dec.payOff = 0#40
  dout_len : s.dec.doutLen = 0#32

/-! ### The invariant -/

/-- Exactly the addresses below `n` of a buffer have been written. -/
def Memory.FilledTo (m : Memory) (n : Nat) : Prop := ∀ a, (cellAt a m.cells).isSome = true ↔ a < n

/-- What holds at reset and is kept by every step: weights of WEIGHT_W bits (10_state.md R13); buffers in canonical form
and within their capacities (00_scope.md R6); the reader's cursor within its bytes and their number within BR_NBYTES
(10_state.md R16, R19); the output buffers filled exactly up to their lengths (20_memory.md R40); the status codes those of
30_encoding.md R80. -/
structure State.Inv (s : State) : Prop where
  weight_lt : ∀ c, s.enc.freq.get c < 2 ^ s.params.weightW
  src_wf : s.enc.src.wf = true
  eout_wf : s.enc.eout.wf = true
  din_wf : s.dec.din.wf = true
  dout_wf : s.dec.dout.wf = true
  src_capacity : ∀ a, (cellAt a s.enc.src.cells).isSome = true → Within s.params.srcCap (a + 1)
  din_capacity : ∀ a, (cellAt a s.dec.din.cells).isSome = true → Within s.params.dinCap (a + 1)
  cursor_le : s.dec.br.cursor ≤ 8 * s.dec.br.buf.length
  buf_lt : s.dec.br.buf.length < 2 ^ 40
  eout_filled : ∃ n, s.enc.eout.FilledTo n ∧ Within s.params.eoutCap n ∧ (n < 2 ^ 40 → s.enc.eoutLen.toNat = n)
  dout_filled : s.dec.dout.FilledTo s.dec.doutLen.toNat
  dout_capacity : Within s.params.doutCap s.dec.doutLen.toNat
  enc_status : s.enc.lasterr.toNat ≤ 9
  dec_status : s.dec.lasterr.toNat ≤ 9

end Sys2Proof.Machine
end

