-- ==== Sys2Proof/Certificates/Slice0/Obligations.lean ====
section
/-! DEFINITION. The statements for the provers, each about what a rule of spec/ says the machine does. -/

open Sys2Proof Sys2Proof.Machine

/-! ### Command words (30_encoding.md) -/

/-- R75 to R78: for every well-formed command, its unit decodes its word to it, and the other unit refuses the word. -/
def Obligations.DecodeInvertsEncode : Prop :=
  ∀ i : Instr, i.wellFormed = true →
    decode i.port (encode i) = .ok i ∧ decode i.port.other (encode i) = .error .otherUnit

/-- R75 to R77: what a port decodes is well formed, belongs to the port, and has the opcode of bits 7:0. -/
def Obligations.DecodedCommandsAreWellFormed : Prop :=
  ∀ (p : Port) (w : Cmd) (i : Instr), decode p w = .ok i →
    i.wellFormed = true ∧ i.port = p ∧ i.opcode = w.extractLsb' 0 8

/-- R75, R77: two command words that agree on the bits their form uses decode alike: `op` in bits 7:0; `a` in 15:8 for
APPEND and READ; `v` in 79:16 for APPEND; `v[31:0]` for SERIALIZE. -/
def Obligations.UnusedCommandBitsAreIgnored : Prop :=
  ∀ (p : Port) (w w' : Cmd),
    (∀ j, j < 8 → w.getLsbD j = w'.getLsbD j) →
    (w.extractLsb' 0 8 = 0x11#8 ∨ w.extractLsb' 0 8 = 0x21#8 → ∀ j, 8 ≤ j → j < 16 → w.getLsbD j = w'.getLsbD j) →
    (w.extractLsb' 0 8 = 0x11#8 → ∀ j, 16 ≤ j → j < 80 → w.getLsbD j = w'.getLsbD j) →
    (w.extractLsb' 0 8 = 0x30#8 → ∀ j, 16 ≤ j → j < 48 → w.getLsbD j = w'.getLsbD j) →
    decode p w = decode p w'

/-- Words of the spec decode to their commands: the worked encodings of 30_encoding.md Part C and 95_test_vectors.md V2
to V7, and, for BRLOAD, REMBITS, DESERIALIZE and DECFILE, the words of programs P2, P3 and P5 there (opcodes of
R76). -/
def Obligations.SpecWordsDecode : Prop :=
  decode .enc 0x00000000000000000001#80 = .ok .build ∧
  decode .enc 0x00000000000000050311#80 = .ok (.append 5#64 3) ∧
  decode .enc 0xFFFFFFFFFFFFFFFF4011#80 = .ok (.append 0xFFFFFFFFFFFFFFFF#64 64) ∧
  decode .enc 0x00000000000000000012#80 = .ok .tobytes ∧
  decode .enc 0xFFFFFFFF000000060030#80 = .ok (.serialize 6) ∧
  decode .enc 0xDEADBEEF00000000AB40#80 = .ok .encode ∧
  decode .enc 0x00000000000000000041#80 = .ok .encfile ∧
  decode .dec 0x00000000000000000020#80 = .ok .brload ∧
  decode .dec 0x00000000000000000821#80 = .ok (.read 8) ∧
  decode .dec 0x00000000000000000022#80 = .ok .rembits ∧
  decode .dec 0x00000000000000000031#80 = .ok .deserialize ∧
  decode .dec 0x00000000000000000051#80 = .ok .decfile ∧
  decode .enc 0x00000000000000000821#80 = .error .otherUnit ∧
  decode .enc 0x00000000000000000002#80 = .error .undefinedOpcode

/-- R79, R80: the response holds the status in bits 7:0 and the result in bits 71:8; the status codes. -/
def Obligations.ResponseHoldsStatusAndResult : Prop :=
  (∀ (st : Status) (r : BitVec 64),
    (response st r).extractLsb' 0 8 = st.code ∧ (response st r).extractLsb' 8 64 = r) ∧
  Status.ok.code = 0#8 ∧ Status.emptyAlphabet.code = 1#8 ∧ Status.unsupportedCodeLength.code = 2#8 ∧
  Status.unknownSymbol.code = 3#8 ∧ Status.truncatedHeader.code = 4#8 ∧ Status.headerSizeMismatch.code = 5#8 ∧
  Status.outOfBits.code = 6#8 ∧ Status.malformedPayload.code = 7#8 ∧ Status.invalidBitLength.code = 8#8 ∧
  Status.illegalCommand.code = 9#8

/-! ### Steps and the host's port -/

/-- A step whose next host action is a command word that its port decodes runs that command, on the state without the
action (R10, R75; how actions wait in `inbox` is the model's choice, log 1). -/
def Obligations.StepRunsTheDecodedCommand : Prop :=
  ∀ (s : State) (p : Port) (w : Cmd) (i : Instr) (rest : List HostAction),
    s.inbox = .command p w :: rest → decode p w = .ok i → step s = exec i { s with inbox := rest }

/-- The word of a row of spec/opcode_table.json, given to the machine by `withFetchWord`, runs as the very next step and
leaves the host's further actions as they were (R75, R76; the port is the model's choice, log 14). -/
def Obligations.TableWordsRunAsTheNextStep : Prop :=
  ∀ (s : State) (nbits w : Nat) (i : Instr), decodeTableWord nbits w = some i → step (s.withFetchWord nbits w) = exec i s

/-- R78: the opcodes legal at each port are those of R76, seven and six; any other opcode completes with IllegalCommand,
writes 9 to the unit's LASTERR, and changes nothing else. -/
def Obligations.IllegalCommandRecordsOnlyItself : Prop :=
  (legalOpcodes .enc).length = 7 ∧ (legalOpcodes .dec).length = 6 ∧
  ∀ (s : State) (p : Port) (w : Cmd) (rest : List HostAction), s.inbox = .command p w :: rest →
    ((∃ i, decode p w = .ok i) ↔ (w.extractLsb' 0 8).toNat ∈ legalOpcodes p) ∧
    ((w.extractLsb' 0 8).toNat ∉ legalOpcodes p →
      step s =
        match p with
        | .enc => .next { s with inbox := rest
                                 enc := { s.enc with lasterr := 9#8, resps := s.enc.resps ++ [9#72] } }
        | .dec => .next { s with inbox := rest
                                 dec := { s.dec with lasterr := 9#8, resps := s.dec.resps ++ [9#72] } })

/-- R199: with no further host action nothing changes. -/
def Obligations.IdleMachineDoesNotChange : Prop :=
  ∀ s : State, s.inbox = [] → step s = .next s

/-- R15, R16, R171: a host write of an RW register changes that register alone. -/
def Obligations.HostRegisterWritesChangeOneRegister : Prop :=
  ∀ (s : State) (rest : List HostAction),
    (∀ n, s.inbox = .writeSrcLen n :: rest →
      step s = .next { s with inbox := rest, enc := { s.enc with srcLen := n } }) ∧
    (∀ n, s.inbox = .writeDinLen n :: rest →
      step s = .next { s with inbox := rest, dec := { s.dec with dinLen := n } }) ∧
    (∀ n, s.inbox = .writeSrclen n :: rest →
      step s = .next { s with inbox := rest, dec := { s.dec with srclen := n } }) ∧
    (∀ n, s.inbox = .writePayOff n :: rest →
      step s = .next { s with inbox := rest, dec := { s.dec with payOff := n } })

/-- R13, R14: a host write of a weight of at most WEIGHT_W bits, or of a table entry, stores it as given and changes no
other entry and nothing else; of a weight the low WEIGHT_W bits are stored, whatever the host gives (log 10). -/
def Obligations.HostTableWritesChangeOneEntry : Prop :=
  ∀ (s : State) (rest : List HostAction),
    (∀ c w, s.inbox = .writeFreq c w :: rest →
      ∃ F, step s = .next { s with inbox := rest, enc := { s.enc with freq := F } } ∧
        (w < 2 ^ s.params.weightW → F.get c = w) ∧ F.get c = w % 2 ^ s.params.weightW ∧
        ∀ c', c' ≠ c → F.get c' = s.enc.freq.get c') ∧
    (∀ c len word, s.inbox = .writeEntry .enc c len word :: rest →
      ∃ T, step s = .next { s with inbox := rest, enc := { s.enc with ct := T } } ∧
        T.get c = { len := len, word := word } ∧ ∀ c', c' ≠ c → T.get c' = s.enc.ct.get c') ∧
    (∀ c len word, s.inbox = .writeEntry .dec c len word :: rest →
      ∃ T, step s = .next { s with inbox := rest, dec := { s.dec with ct := T } } ∧
        T.get c = { len := len, word := word } ∧ ∀ c', c' ≠ c → T.get c' = s.dec.ct.get c')

/-- R40, R171: a host write of a byte of SRC or DIN within its capacity is what is read there afterwards, and no other
byte of the buffer and nothing else changes. A write beyond the capacity is refused (R6; the refusal of a host write
is log 11). -/
def Obligations.HostByteWritesChangeOneByte : Prop :=
  ∀ (s : State) (a : Nat) (b : Byte) (rest : List HostAction),
    (s.inbox = .writeSrc a b :: rest →
      (Within s.params.srcCap (a + 1) →
        ∃ m : Memory, step s = .next { s with inbox := rest, enc := { s.enc with src := m } } ∧
          m.read .src a = b ∧ ∀ a', a' ≠ a → m.read .src a' = readByte .src a' s) ∧
      (¬ Within s.params.srcCap (a + 1) → step s = .refused .bufferCapacity)) ∧
    (s.inbox = .writeDin a b :: rest →
      (Within s.params.dinCap (a + 1) →
        ∃ m : Memory, step s = .next { s with inbox := rest, dec := { s.dec with din := m } } ∧
          m.read .din a = b ∧ ∀ a', a' ≠ a → m.read .din a' = readByte .din a' s) ∧
      (¬ Within s.params.dinCap (a + 1) → step s = .refused .bufferCapacity))

/-- R82: `HOST DIN = EOUT` copies `EOUT[0 .. EOUT_LEN)` to `DIN[0 ..)` and changes no other byte and nothing else, where
DIN has that many bytes; else it is refused (R6; log 11). -/
def Obligations.CopyMovesTheOutputToTheInput : Prop :=
  ∀ (s : State) (rest : List HostAction), s.inbox = .copyEoutToDin :: rest →
    (Within s.params.dinCap s.enc.eoutLen.toNat →
      ∃ m : Memory, step s = .next { s with inbox := rest, dec := { s.dec with din := m } } ∧
        (∀ i, i < s.enc.eoutLen.toNat → m.read .din i = readByte .eout i s) ∧
        ∀ i, s.enc.eoutLen.toNat ≤ i → m.read .din i = readByte .din i s) ∧
    (¬ Within s.params.dinCap s.enc.eoutLen.toNat → step s = .refused .bufferCapacity)

/-- R83: the macros SETSRC and SETDIN leave the given bytes as the source and as the input, and the other unit and the
parameters as they were, where the length register and the buffer (R6) hold that many bytes. -/
def Obligations.HostMacrosSetTheBuffers : Prop :=
  ∀ (s : State) (bs : List Byte),
    (bs.length < 2 ^ 32 → Within s.params.srcCap bs.length → ∃ t, runHost (asmSetsrc bs) s = .next t ∧
      t.source = bs ∧ t.enc.srcLen.toNat = bs.length ∧ t.dec = s.dec ∧ t.params = s.params) ∧
    (bs.length < 2 ^ 40 → Within s.params.dinCap bs.length → ∃ t, runHost (asmSetdin bs) s = .next t ∧
      t.input = bs ∧ t.dec.dinLen.toNat = bs.length ∧ t.enc = s.enc ∧ t.params = s.params)

/-- R15, R16, R18: a register never shows a value wider than it is; in every state that meets the invariant BP_NBITS is
the packer's length up to 40 bits, BR_CURSOR the cursor and BR_NBYTES the reader's length. -/
def Obligations.RegistersShowTheirContent : Prop :=
  (∀ (r : Reg) (s : State), readReg r s < 2 ^ r.width) ∧
  ∀ s : State, s.Inv →
    readReg .encBpNbits s = s.enc.bp.length % 2 ^ 40 ∧ readReg .decBrCursor s = s.dec.br.cursor ∧
    readReg .decBrNbytes s = s.dec.br.buf.length

/-! ### Reset -/

/-- R190, 10_state.md section 8: the machine at reset, with the parameters of R6 at their defaults or at any others, and
the machine after the host's reset action, have every reset value the spec gives. That the delivered responses and
the further actions stay is the model's choice (log 4). -/
def Obligations.ResetGivesTheResetValues : Prop :=
  State.reset.AtReset ∧ State.reset.params = Params.default ∧
  (∀ P : Params, (State.resetWith P).AtReset ∧ (State.resetWith P).params = P) ∧
  ∀ (s : State) (rest : List HostAction), s.inbox = .reset :: rest →
    ∃ t, step s = .next t ∧ t.AtReset ∧ t.params = s.params ∧ t.inbox = rest ∧ t.enc.resps = s.enc.resps ∧
      t.dec.resps = s.dec.resps

/-- The model's invariant holds at reset, whatever the parameters (10_state.md section 8). -/
def Obligations.ResetMeetsTheInvariant : Prop := State.reset.Inv ∧ ∀ P : Params, (State.resetWith P).Inv

/-- Every step keeps the model's invariant: canonical buffers (log 6), weights of WEIGHT_W bits (R13), buffers within
their capacities (R6), the reader's cursor within its bytes (R19), the output buffers filled exactly to their
lengths (R40), status codes at most 9 (R80). -/
def Obligations.StepKeepsTheInvariant : Prop :=
  ∀ s t : State, s.Inv → step s = .next t → t.Inv

/-! ### All commands -/

/-- No step faults (R160), and a step is refused by one of two names only: notPrefixFree, by DECODE with a table that is
not prefix-free and by DECFILE of an accepted header with such a table (R144, U1; that SRCLEN 0 makes no exception,
and that DECFILE tests the header first, is log 9, DEDUCED); and bufferCapacity, by a command whose input or output
exceeds a capacity (R6, U9) or by a host write or copy beyond one (log 11, DESIGN CHOICE). -/
def Obligations.RefusalsHaveTwoCauses : Prop :=
  ∀ s : State, (∀ r, step s ≠ .fault r) ∧
    ∀ r, step s = .refused r →
      (r = .notPrefixFree ∧ ∃ w rest, s.inbox = .command .dec w :: rest ∧
        (decode .dec w = .ok .decode ∧ ¬ s.dec.ct.PrefixFree ∨
          decode .dec w = .ok .decfile ∧ ∃ a, exec .deserialize { s with inbox := rest } = .next a ∧
            a.dec.lasterr = 0#8 ∧ ¬ a.dec.ct.PrefixFree)) ∨
      (r = .bufferCapacity ∧ ∃ act rest, s.inbox = act :: rest ∧
        ((∃ a b, act = .writeSrc a b ∧ ¬ Within s.params.srcCap (a + 1)) ∨
          (∃ a b, act = .writeDin a b ∧ ¬ Within s.params.dinCap (a + 1)) ∨
          (act = .copyEoutToDin ∧ ¬ Within s.params.dinCap s.enc.eoutLen.toNat) ∨
          ∃ p w i, act = .command p w ∧ decode p w = .ok i ∧
            (¬ InputWithin i s ∨
              ∃ t, exec i (s.withParams (unboundedOutput s.params)) = .next t ∧ lasterrOf i.port t = 0#8 ∧
                ¬ OutputWithin i s.params t)))

/-- R6, U9: a command is refused for a capacity exactly if its input exceeds its buffer, or else if it would succeed
with unbounded output buffers and its output exceeds the one it has; a command whose input and output fit does what
it does with unbounded output buffers. That the whole range a command may read counts as its input, before its own
failures, and that an output counts only on success, is the model's choice (log 11, DEDUCED). -/
def Obligations.CapacitiesRefuseWhatExceedsThem : Prop :=
  ∀ (i : Instr) (s : State),
    (¬ InputWithin i s → exec i s = .refused .bufferCapacity) ∧
    (InputWithin i s → ∀ t, exec i (s.withParams (unboundedOutput s.params)) = .next t →
      (lasterrOf i.port t = 0#8 → ¬ OutputWithin i s.params t → exec i s = .refused .bufferCapacity) ∧
      (lasterrOf i.port t ≠ 0#8 ∨ OutputWithin i s.params t → exec i s = .next (t.withParams s.params))) ∧
    (InputWithin i s → ∀ r, exec i (s.withParams (unboundedOutput s.params)) = .refused r → exec i s = .refused r)

/-- R79, R80, R160, R21: a command delivers exactly one response to its unit's host; its status is what LASTERR then
holds, a code 0..9; its result is 0 for a failed command and for every command but READ and REMBITS; the other unit
delivers none. -/
def Obligations.EveryCommandDeliversOneResponse : Prop :=
  ∀ (i : Instr) (s t : State), exec i s = .next t →
    ∃ r : BitVec 64,
      responses i.port t = responses i.port s ++ [r ++ lasterrOf i.port t] ∧
      responses i.port.other t = responses i.port.other s ∧
      (lasterrOf i.port t).toNat ≤ 9 ∧
      (lasterrOf i.port t ≠ 0#8 → r = 0#64) ∧
      ((∀ n, i ≠ .read n) → i ≠ .rembits → r = 0#64)

/-- R165 (c): a failed command changes nothing but its unit's LASTERR, beside delivering its response with result 0. -/
def Obligations.FailedCommandsChangeNothingElse : Prop :=
  ∀ (i : Instr) (s t : State), exec i s = .next t → lasterrOf i.port t ≠ 0#8 →
    t = match i.port with
      | .enc => encFailed t.enc.lasterr s
      | .dec => decFailed t.dec.lasterr s

/-- R161: the statuses each command can end with; BPCLR, TOBYTES, BRLOAD and REMBITS never fail, and
UnsupportedCodeLength is never met (R90). -/
def Obligations.EachCommandFailsOnlyAsListed : Prop :=
  ∀ (i : Instr) (s t : State), exec i s = .next t →
    (lasterrOf i.port t).toNat ∈
      match i with
      | .build => [0, 1]
      | .bpclr => [0]
      | .append _ _ => [0, 8]
      | .tobytes => [0]
      | .brload => [0]
      | .read _ => [0, 6, 8]
      | .rembits => [0]
      | .serialize _ => [0, 1]
      | .deserialize => [0, 4, 5]
      | .encode => [0, 3]
      | .encfile => [0, 1, 3]
      | .decode => [0, 7]
      | .decfile => [0, 4, 5, 7]

/-- R11: a command reads and writes its own unit alone: the other unit, the parameters and the host's further actions
stay, and the same unit state, in a part with the same parameters, gives the same result whatever the other unit
holds. -/
def Obligations.CommandsUseOnlyTheirUnit : Prop :=
  ∀ (i : Instr) (s t : State), exec i s = .next t →
    t.inbox = s.inbox ∧ t.params = s.params ∧
    (i.port = .enc → t.dec = s.dec ∧
      ∀ s', s'.params = s.params → s'.enc = s.enc → exec i s' = .next { s' with enc := t.enc }) ∧
    (i.port = .dec → t.enc = s.enc ∧
      ∀ s', s'.params = s.params → s'.dec = s.dec → exec i s' = .next { s' with dec := t.dec })

/-- 10_state.md R11's own inference ("the result is the same in either order", which it marks [derived]): a command of
ENC and a command of DEC give the same state in either order (log 2). -/
def Obligations.CommandsOfTheTwoUnitsCommute : Prop :=
  ∀ (i j : Instr) (s t u : State), i.port = .enc → j.port = .dec → exec i s = .next t → exec j s = .next u →
    ∃ v, exec j t = .next v ∧ exec i u = .next v

/-- R21: no command reads LASTERR. -/
def Obligations.NoCommandReadsLasterr : Prop :=
  ∀ (i : Instr) (s : State) (c : BitVec 8),
    (i.port = .enc → exec i { s with enc := { s.enc with lasterr := c } } = exec i s) ∧
    (i.port = .dec → exec i { s with dec := { s.dec with lasterr := c } } = exec i s)

/-- The frame of every command (R14, R17, R19, R23, R40, R46): what each writes, and that it leaves the rest. No command
writes FREQ, SRC, SRC_LEN, DIN or DIN_LEN; only BUILD writes ENC.CT; only BPCLR and APPEND write the packer; only
TOBYTES, SERIALIZE, ENCODE and ENCFILE write EOUT and EOUT_LEN; only BRLOAD and READ write the reader; only
DESERIALIZE and DECFILE write DEC.CT, SRCLEN and PAY_OFF; only DECODE and DECFILE write DOUT and DOUT_LEN. -/
def Obligations.FrameOfEveryCommand : Prop :=
  ∀ (i : Instr) (s t : State), exec i s = .next t →
    (∀ a, readByte .src a t = readByte .src a s) ∧ (∀ a, readByte .din a t = readByte .din a s) ∧
    (∀ c, readFreq c t = readFreq c s) ∧ t.enc.srcLen = s.enc.srcLen ∧ t.dec.dinLen = s.dec.dinLen ∧
    t.inbox = s.inbox ∧ t.params = s.params ∧
    (i ≠ .build → ∀ c, readEntry .enc c t = readEntry .enc c s) ∧
    (i ≠ .bpclr → (∀ v n, i ≠ .append v n) → t.enc.bp = s.enc.bp) ∧
    (i ≠ .tobytes → (∀ n, i ≠ .serialize n) → i ≠ .encode → i ≠ .encfile →
      t.enc.eoutLen = s.enc.eoutLen ∧ ∀ a, readByte .eout a t = readByte .eout a s) ∧
    (i ≠ .brload → (∀ n, i ≠ .read n) → t.dec.br = s.dec.br) ∧
    (i ≠ .deserialize → i ≠ .decfile →
      (∀ c, readEntry .dec c t = readEntry .dec c s) ∧ t.dec.srclen = s.dec.srclen ∧ t.dec.payOff = s.dec.payOff) ∧
    (i ≠ .decode → i ≠ .decfile →
      t.dec.doutLen = s.dec.doutLen ∧ ∀ a, readByte .dout a t = readByte .dout a s) ∧
    (i.port = .enc → t.dec.lasterr = s.dec.lasterr) ∧ (i.port = .dec → t.enc.lasterr = s.enc.lasterr)

/-! ### BUILD (40_code_table_builder.md) -/

/-- R90, R91 (a), (b), (d): with at least one weight BUILD succeeds, whatever the weights: the alphabet is that of the
weights, the code is prefix-free, and every word is below 2^len; nothing but ENC.CT, LASTERR and the response
changes (`tableDraws` is the model's own counter, log 7). -/
def Obligations.BuildMakesAValidTable : Prop :=
  ∀ (s : State) (c₀ : Symbol), s.enc.freq.get c₀ ≠ 0 →
    ∃ T : Table,
      exec .build s = .next { s with enc := { s.enc with
        ct := T, tableDraws := s.enc.tableDraws + 1, lasterr := 0#8, resps := s.enc.resps ++ [0#72] } } ∧
      (∀ c, (T.get c).len ≠ 0#8 ↔ s.enc.freq.get c ≠ 0) ∧
      T.PrefixFree ∧
      ∀ c, (T.get c).len ≠ 0#8 → (T.get c).word.toNat < 2 ^ (T.get c).len.toNat

/-- 40_code_table_builder.md R91 (c), which the spec marks [derived]: a code of two symbols or more that BUILD made is
complete: every bit sequence of 255 bits or more has exactly one codeword as a prefix, and the lengths add up to one
(times 2^255). -/
def Obligations.BuiltCodesAreComplete : Prop :=
  ∀ s t : State, exec .build s = .next t → t.enc.lasterr = 0#8 → 2 ≤ t.enc.ct.alphabet.length →
    (∀ q : List Bool, 255 ≤ q.length →
      ∃! c, (t.enc.ct.get c).len ≠ 0#8 ∧ t.enc.ct.code c <+: q) ∧
    (t.enc.ct.alphabet.map fun c => 2 ^ (255 - (t.enc.ct.get c).len.toNat)).sum = 2 ^ 255

/-- R90: with every weight 0, BUILD fails with EmptyAlphabet. -/
def Obligations.BuildNeedsAWeight : Prop :=
  ∀ s : State, (∀ c, s.enc.freq.get c = 0) → exec .build s = .next (encFailed 1#8 s)

/-- R90 corner (a): a single symbol gets length 1 and word 0. -/
def Obligations.BuildOfOneSymbol : Prop :=
  ∀ (s t : State) (c₀ : Symbol), s.enc.freq.get c₀ ≠ 0 → (∀ c, c ≠ c₀ → s.enc.freq.get c = 0) →
    exec .build s = .next t → t.enc.ct.get c₀ = { len := 1#8, word := 0#255 }

/-- R90 corner (b): of two symbols the lighter, or at equal weights the smaller, gets `0`, the other `1`. -/
def Obligations.BuildOfTwoSymbols : Prop :=
  ∀ (s t : State) (c d : Symbol), c.toNat < d.toNat → s.enc.freq.get c ≠ 0 → s.enc.freq.get d ≠ 0 →
    (∀ e, e ≠ c → e ≠ d → s.enc.freq.get e = 0) → exec .build s = .next t →
    (s.enc.freq.get c ≤ s.enc.freq.get d → t.enc.ct.code c = [false] ∧ t.enc.ct.code d = [true]) ∧
    (s.enc.freq.get d < s.enc.freq.get c → t.enc.ct.code c = [true] ∧ t.enc.ct.code d = [false])

/-- R90's merge rule, for two symbols or more: its loop on the symbols with a weight ends with some tree, and with
whatever tree it ends, always taking the least node by (weight, seq) and the least of the others and putting the
first on the left, BUILD succeeds and gives every leaf of that tree its bit path as its codeword. -/
def Obligations.BuildFollowsTheMergeRule : Prop :=
  ∀ s : State, 2 ≤ s.enc.freq.alphabet.length →
    (∃ tree, MergesTo 0 (initialNodes s.enc.freq) tree) ∧
    ∀ tree, MergesTo 0 (initialNodes s.enc.freq) tree →
      ∃ t, exec .build s = .next t ∧ t.enc.lasterr = 0#8 ∧
        (∀ sp ∈ leafPaths tree, (t.enc.ct.get sp.1).len ≠ 0#8 ∧ t.enc.ct.code sp.1 = sp.2) ∧
        ∀ c, (t.enc.ct.get c).len ≠ 0#8 → (c, t.enc.ct.code c) ∈ leafPaths tree

/-- R90 corner (c): with all weights equal and 2^n symbols, every length is n and the word of the i-th symbol in
ascending order is i. -/
def Obligations.BuildOfEqualWeights : Prop :=
  ∀ (s : State) (w n : Nat), 0 < w → 1 ≤ n → s.enc.freq.alphabet.length = 2 ^ n →
    (∀ c ∈ s.enc.freq.alphabet, s.enc.freq.get c = w) →
    ∃ t, exec .build s = .next t ∧ t.enc.lasterr = 0#8 ∧
      ∀ (i : Nat) (c : Symbol), s.enc.freq.alphabet[i]? = some c →
        (t.enc.ct.get c).len.toNat = n ∧ (t.enc.ct.get c).word.toNat = i

/-- What R90's merge rule gives (an inference from it, part of the claim R91 (f) that the spec states without proof): a
heavier symbol never has a longer codeword. -/
def Obligations.HeavierSymbolsHaveNoLongerCodewords : Prop :=
  ∀ s t : State, exec .build s = .next t → t.enc.lasterr = 0#8 →
    ∀ c d, s.enc.freq.get c ≠ 0 → s.enc.freq.get c < s.enc.freq.get d →
      (t.enc.ct.get d).len.toNat ≤ (t.enc.ct.get c).len.toNat

/-- 10_state.md R13's own inference, marked [derived]: "two models that differ by a common positive factor give the same
sequence of merges", so the same table. -/
def Obligations.BuildIgnoresACommonFactor : Prop :=
  ∀ (s s' t t' : State) (k : Nat), 0 < k → (∀ c, s'.enc.freq.get c = k * s.enc.freq.get c) →
    exec .build s = .next t → exec .build s' = .next t' → t.enc.lasterr = 0#8 →
    t'.enc.lasterr = 0#8 ∧ t'.enc.ct.Same t.enc.ct

/-- R7, R6: with weights of WEIGHT_W bits (a clause of the invariant; 32 is only the parameter's default, log 10), every
pending node that BUILD's merge loop has after any number of merges weighs exactly the sum of the weights of its
leaves, and less than 2^(WEIGHT_W + 8). `c :: cs` is the alphabet. -/
def Obligations.MergedWeightsAreExactAndBounded : Prop :=
  ∀ (s : State) (c : Symbol) (cs : List Symbol) (n : Nat), s.enc.freq.alphabet = c :: cs →
    (∀ d, s.enc.freq.get d < 2 ^ s.params.weightW) →
    ∀ x ∈ (pendingAfter s.enc.freq c cs n).1 :: (pendingAfter s.enc.freq c cs n).2,
      x.weight = ((leafPaths x.tree).map fun sp => s.enc.freq.get sp.1).sum ∧
        x.weight < 2 ^ (s.params.weightW + 8)

/-! ### BitPacker (41_bitpacker.md) -/

/-- R100: BPCLR empties the packer, so that BP_NBITS reads 0; nothing else changes but LASTERR and the response. -/
def Obligations.BpclrEmptiesThePacker : Prop :=
  ∀ s : State, ∃ t, exec .bpclr s = .next t ∧ readReg .encBpNbits t = 0 ∧
    t = { s with enc := { s.enc with bp := [], lasterr := 0#8, resps := s.enc.resps ++ [0#72] } }

/-- R101: APPEND with a bit length of 1 to 64 appends the low bits of the value, most significant first, after the old
bits, and BP_NBITS then shows the new length (its low 40 bits, R18); any other bit length is InvalidBitLength and
appends nothing. -/
def Obligations.AppendAddsTheLowBits : Prop :=
  ∀ (s : State) (v : BitVec 64) (n : Nat),
    (1 ≤ n → n ≤ 64 →
      ∃ t, exec (.append v n) s = .next t ∧ readReg .encBpNbits t = (s.enc.bp.length + n) % 2 ^ 40 ∧
        t = { s with enc := { s.enc with
          bp := s.enc.bp ++ (List.range n).map fun j => v.getLsbD (n - 1 - j)
          lasterr := 0#8, resps := s.enc.resps ++ [0#72] } }) ∧
    (n < 1 ∨ 64 < n → exec (.append v n) s = .next (encFailed 8#8 s))

/-- R102: TOBYTES makes EOUT the packer's bits followed by zero bits up to whole bytes: bit `7 - j` of byte `i` is
packed bit `8 i + j`, or zero beyond the last; it leaves the packer and all else as they were. EOUT_LEN shows the
number of bytes where it can hold it (R18, log 8). The premise is that EOUT holds the bytes (R6); else TOBYTES is
refused (U9). -/
def Obligations.TobytesPadsWithZeroBits : Prop :=
  ∀ s : State,
    (Within s.params.eoutCap ((s.enc.bp.length + 7) / 8) →
      ∃ t, exec .tobytes s = .next t ∧ SameButOutput s t ∧ t.enc.lasterr = 0#8 ∧
        (∀ i j, i < (s.enc.bp.length + 7) / 8 → j < 8 →
          (readByte .eout i t).getLsbD (7 - j) = s.enc.bp.getD (8 * i + j) false) ∧
        (s.enc.bp.length < 2 ^ 43 - 7 →
          t.enc.eoutLen.toNat = (s.enc.bp.length + 7) / 8 ∧
          ∃ pad, pad < 8 ∧ bitsOfBytes t.output = s.enc.bp ++ List.replicate pad false)) ∧
    (¬ Within s.params.eoutCap ((s.enc.bp.length + 7) / 8) → exec .tobytes s = .refused .bufferCapacity)

/-! ### BitReader (42_bitreader.md) -/

/-- R110: BRLOAD copies `DIN[0 .. DIN_LEN)` into the reader and sets the cursor to 0, so that BR_NBYTES reads DIN_LEN
and BR_CURSOR reads 0; nothing else changes but LASTERR and the response. An input beyond DIN's capacity is refused
(R6, U9). -/
def Obligations.BrloadCopiesTheInput : Prop :=
  ∀ s : State,
    (s.InputFits 0 → ∃ (bs : List Byte) (t : State),
      exec .brload s = .next t ∧
      t = { s with dec := { s.dec with
        br := { buf := bs, cursor := 0 }, lasterr := 0#8, resps := s.dec.resps ++ [0#72] } } ∧
      bs.length = s.dec.dinLen.toNat ∧ (∀ i, i < s.dec.dinLen.toNat → bs[i]? = some (readByte .din i s)) ∧
      readReg .decBrNbytes t = s.dec.dinLen.toNat ∧ readReg .decBrCursor t = 0) ∧
    (¬ s.InputFits 0 → exec .brload s = .refused .bufferCapacity)

/-- R111, R42: READ tests the range first, then the bits left; a good READ returns the next bits, the first one most
significant, and moves the cursor by exactly `bit_length`; a failed one moves nothing. -/
def Obligations.ReadReturnsTheNextBits : Prop :=
  ∀ (s : State) (n : Nat),
    (n < 1 ∨ 64 < n → exec (.read n) s = .next (decFailed 8#8 s)) ∧
    (1 ≤ n → n ≤ 64 → 8 * s.dec.br.buf.length < s.dec.br.cursor + n →
      exec (.read n) s = .next (decFailed 6#8 s)) ∧
    (1 ≤ n → n ≤ 64 → s.dec.br.cursor + n ≤ 8 * s.dec.br.buf.length →
      ∃ r : BitVec 64,
        exec (.read n) s = .next { s with dec := { s.dec with
          br := { buf := s.dec.br.buf, cursor := s.dec.br.cursor + n }
          lasterr := 0#8, resps := s.dec.resps ++ [r ++ 0#8] } } ∧
        ∀ j, j < 64 → r.getLsbD j = (decide (j < n) && bitAt s.dec.br.buf (s.dec.br.cursor + (n - 1 - j))))

/-- R112: REMBITS returns the number of bits left and changes nothing but LASTERR. The premises rule out states no run
reaches (they are clauses of the invariant). -/
def Obligations.RembitsCountsTheBitsLeft : Prop :=
  ∀ s : State, s.dec.br.cursor ≤ 8 * s.dec.br.buf.length → s.dec.br.buf.length < 2 ^ 40 →
    ∃ r : BitVec 64,
      exec .rembits s = .next { s with dec := { s.dec with
        lasterr := 0#8, resps := s.dec.resps ++ [r ++ 0#8] } } ∧
      r.toNat + s.dec.br.cursor = 8 * s.dec.br.buf.length

/-- 42_bitreader.md R111 corner (e), which the spec marks [derived]: values appended to an empty packer, written out by
TOBYTES and loaded by BRLOAD, are read back by READs of the same lengths, each `v mod 2^n`. The premises are that
the registers and buffers hold the bytes (R6, R18). -/
def Obligations.PackedValuesReadBack : Prop :=
  ∀ (s : State) (vs : List (BitVec 64 × Nat)),
    s.enc.bp = [] → (∀ v ∈ vs, 1 ≤ v.2 ∧ v.2 ≤ 64) → (vs.map fun v => v.2).sum < 2 ^ 43 - 7 →
    Within s.params.eoutCap (((vs.map fun v => v.2).sum + 7) / 8) →
    ∃ t, runCommands ((vs.map fun v => Instr.append v.1 v.2) ++ [.tobytes]) s = .next t ∧
      ∀ u : State, u.input = t.output → u.InputFits 0 →
        ∃ v, runCommands (.brload :: vs.map fun v => Instr.read v.2) u = .next v ∧
          v.dec.resps = u.dec.resps ++ 0#72 :: vs.map fun v => BitVec.ofNat 64 (v.1.toNat % 2 ^ v.2) ++ 0#8

/-! ### HeaderCodec (43_header_codec.md) -/

/-- R120, R60 to R62: SERIALIZE of an empty table fails with EmptyAlphabet; of any other table it makes EOUT the header
with one entry per symbol of the alphabet, ascending, each codeword as `word mod 2^len` in `ceil8(len)` bytes, low
byte first; the length is that of R62, from 10 to 8711; nothing else changes. A header that EOUT cannot hold is
refused (R6, U9). -/
def Obligations.SerializeWritesTheHeader : Prop :=
  ∀ (s : State) (n : Nat), n < 2 ^ 32 →
    ((∀ c, (s.enc.ct.get c).len = 0#8) → exec (.serialize n) s = .next (encFailed 1#8 s)) ∧
    (tableEntries s.enc.ct ≠ [] →
      10 ≤ layoutLength (tableEntries s.enc.ct) ∧ layoutLength (tableEntries s.enc.ct) ≤ 8711 ∧
      (Within s.params.eoutCap (layoutLength (tableEntries s.enc.ct)) →
        ∃ t, exec (.serialize n) s = .next t ∧ SameButOutput s t ∧ t.enc.lasterr = 0#8 ∧
          t.output = headerLayout (layoutLength (tableEntries s.enc.ct)) n (tableEntries s.enc.ct) ∧
          t.enc.eoutLen.toNat = layoutLength (tableEntries s.enc.ct)) ∧
      (¬ Within s.params.eoutCap (layoutLength (tableEntries s.enc.ct)) →
        exec (.serialize n) s = .refused .bufferCapacity))

/-- 43_header_codec.md R122, which the spec marks [derived]: for every table with an entry and every 32-bit source
length, DESERIALIZE of what SERIALIZE wrote, with any bytes after it, gives back the table (≈), the length and the
number of header bytes. The premises are that the buffers hold the bytes (R6). -/
def Obligations.HeadersRoundTrip : Prop :=
  ∀ (s : State) (n : Nat) (c₀ : Symbol), n < 2 ^ 32 → (s.enc.ct.get c₀).len ≠ 0#8 →
    Within s.params.eoutCap (layoutLength (tableEntries s.enc.ct)) →
    ∃ t, exec (.serialize n) s = .next t ∧
      ∀ (u : State) (tail : List Byte), u.input = t.output ++ tail → u.InputFits 0 →
        ∃ v, exec .deserialize u = .next v ∧ v.dec.lasterr = 0#8 ∧ v.dec.ct.Same s.enc.ct ∧
          v.dec.srclen.toNat = n ∧ v.dec.payOff.toNat = t.output.length

/-- R121: DESERIALIZE of a header in the layout of R60, R61, entries in any order, repeated or of length 0, high
codeword bits set or not, bytes after it or not: with `header_total_bytes` equal to the bytes consumed it succeeds
and writes DEC.CT, SRCLEN and PAY_OFF, the last entry of a symbol winning and the word masked; otherwise it is
HeaderSizeMismatch. Nothing else changes but LASTERR and the response (`tableDraws`, which success advances, is the
model's own counter, log 7). The premise is that DIN holds the input (R6). -/
def Obligations.DeserializeReadsEveryEntry : Prop :=
  ∀ (u : State) (es : List HeaderEntry) (total n : Nat) (tail : List Byte),
    1 ≤ es.length → es.length ≤ 256 → (∀ e ∈ es, e.fitting) → total < 2 ^ 16 → n < 2 ^ 32 →
    u.input = headerLayout total n es ++ tail → u.InputFits 0 →
    (total = layoutLength es →
      ∃ T : Table,
        exec .deserialize u = .next { u with dec := { u.dec with
          ct := T, srclen := BitVec.ofNat 32 n, payOff := BitVec.ofNat 40 total
          tableDraws := u.dec.tableDraws + 1, lasterr := 0#8, resps := u.dec.resps ++ [0#72] } } ∧
        ∀ c, (lastEntry es c = none → (T.get c).len = 0#8) ∧
          ∀ e, lastEntry es c = some e →
            (T.get c).len = e.len ∧ (T.get c).word.toNat = leVal e.word % 2 ^ e.len.toNat) ∧
    (total ≠ layoutLength es → exec .deserialize u = .next (decFailed 5#8 u))

/-- 43_header_codec.md R121 corners (a) and (e), (e) marked [derived] there: any truncation of a header in the layout of
R60, R61 is TruncatedHeader, whatever its `header_total_bytes` says, and changes nothing else. -/
def Obligations.TruncatedHeadersAreRejected : Prop :=
  ∀ (u : State) (es : List HeaderEntry) (total n k : Nat),
    1 ≤ es.length → es.length ≤ 256 → (∀ e ∈ es, e.fitting) → k < layoutLength es →
    u.input = (headerLayout total n es).take k → u.InputFits 0 → exec .deserialize u = .next (decFailed 4#8 u)

/-! ### Encoder (44_encoder.md) -/

/-- R131, R63: ENCODE of a source with a symbol that has no entry is UnknownSymbol; otherwise EOUT is the concatenation
of the codewords in source order followed by zero bits up to whole bytes, and nothing else changes. A source that
SRC cannot hold, or a payload that EOUT cannot hold, is refused (R6, U9). The order of these tests is the model's
choice (log 11, DEDUCED): the whole source is held against SRC before UnknownSymbol, so that a source beyond SRC is
refused also where a symbol has no entry, and the payload against EOUT only where ENCODE succeeds. -/
def Obligations.EncodeWritesThePayload : Prop :=
  ∀ s : State,
    (s.SourceFits →
      (¬ s.enc.ct.Covers s.source → exec .encode s = .next (encFailed 3#8 s)) ∧
      (s.enc.ct.Covers s.source →
        (Within s.params.eoutCap (payloadLength s.enc.ct s.source) →
          ∃ t, exec .encode s = .next t ∧ SameButOutput s t ∧ t.enc.lasterr = 0#8 ∧
            t.enc.eoutLen.toNat = payloadLength s.enc.ct s.source ∧
            ∃ pad, pad < 8 ∧ bitsOfBytes t.output = payloadBits s.enc.ct s.source ++ List.replicate pad false) ∧
        (¬ Within s.params.eoutCap (payloadLength s.enc.ct s.source) → exec .encode s = .refused .bufferCapacity))) ∧
    (¬ s.SourceFits → exec .encode s = .refused .bufferCapacity)

/-- R132: ENCFILE of the empty table is EmptyAlphabet, even when a source symbol has no entry; of another table, with a
source symbol that has no entry, it is UnknownSymbol; otherwise EOUT is what SERIALIZE of SRC_LEN gives followed by
what ENCODE gives, and nothing else changes. A source that SRC cannot hold, or a file that EOUT cannot hold, is
refused (R6, U9). The order of these tests is the model's choice (log 11, DEDUCED): the whole source is held against
SRC before EmptyAlphabet and UnknownSymbol, so that a source beyond SRC is refused also with the empty table or a
symbol that has no entry, and the file against EOUT only where ENCFILE succeeds. -/
def Obligations.EncfileIsHeaderThenPayload : Prop :=
  ∀ s : State,
    (s.SourceFits →
      ((∀ c, (s.enc.ct.get c).len = 0#8) → exec .encfile s = .next (encFailed 1#8 s)) ∧
      (∀ c₀, (s.enc.ct.get c₀).len ≠ 0#8 → ¬ s.enc.ct.Covers s.source → exec .encfile s = .next (encFailed 3#8 s)) ∧
      (∀ c₀, (s.enc.ct.get c₀).len ≠ 0#8 → s.enc.ct.Covers s.source →
        (Within s.params.eoutCap (layoutLength (tableEntries s.enc.ct) + payloadLength s.enc.ct s.source) →
          ∃ a b t, exec (.serialize s.enc.srcLen.toNat) s = .next a ∧ exec .encode s = .next b ∧
            exec .encfile s = .next t ∧ SameButOutput s t ∧ t.enc.lasterr = 0#8 ∧
            t.output = a.output ++ b.output ∧ t.enc.eoutLen.toNat = a.enc.eoutLen.toNat + b.enc.eoutLen.toNat) ∧
        (¬ Within s.params.eoutCap (layoutLength (tableEntries s.enc.ct) + payloadLength s.enc.ct s.source) →
          exec .encfile s = .refused .bufferCapacity))) ∧
    (¬ s.SourceFits → exec .encfile s = .refused .bufferCapacity)

/-- R130: appending a codeword in pieces of at most 64 bits, most significant first, has the effect of appending its
bits at once. -/
def Obligations.ChunkedAppendAddsTheCodeword : Prop :=
  ∀ (w len : Nat) (q : List Bool),
    appendChunks len (w % 2 ^ len) len q = q ++ (List.range len).map fun j => w.testBit (len - 1 - j)

/-- R12, R40, R120 corner (f), R131 corner (e): SERIALIZE, ENCODE and ENCFILE depend on the table up to ≈ and on SRC
below SRC_LEN alone: two states that agree on these give the same status and the same output. -/
def Obligations.EncodingReadsOnlySignificantState : Prop :=
  ∀ (i : Instr) (s s' t : State),
    (i = .encode ∨ i = .encfile ∨ ∃ n, i = .serialize n) →
    s'.params = s.params → s'.enc.ct.Same s.enc.ct → s'.enc.srcLen = s.enc.srcLen →
    (∀ a, a < s.enc.srcLen.toNat → readByte .src a s' = readByte .src a s) →
    exec i s = .next t →
    ∃ t', exec i s' = .next t' ∧ t'.enc.lasterr = t.enc.lasterr ∧
      (t.enc.lasterr = 0#8 → t'.output = t.output ∧ t'.enc.eoutLen = t.enc.eoutLen)

/-! ### Decoder (45_decoder.md) -/

/-- 45_decoder.md R147, which the spec marks [derived]: for a prefix-free table and a sequence `x` of fewer than 2^32
symbols that it covers, EncodeBits gives some bits `q`, and any payload that begins with `q` decodes to `x`,
consuming exactly `q`, whatever follows; and the program BUILD, ENCFILE, copy, DECFILE gives back the source of
every state whose weights cover it and are not all zero, where the buffers hold the source, the file and the symbols
(R6). -/
def Obligations.RoundTrip : Prop :=
  (∀ (T : Table) (x : List Symbol), T.PrefixFree → T.Covers x → x.length < 2 ^ 32 →
    ∃ q, encodeBits T x = .ok q ∧
      ∀ P : List Byte, q <+: bitsOfBytes P → decodeWalk T x.length P = .ok (x, q.length)) ∧
  ∀ (s : State) (c₀ : Symbol), s.enc.freq.get c₀ ≠ 0 → (∀ c ∈ s.source, s.enc.freq.get c ≠ 0) → s.SourceFits →
    ∃ a, exec .build s = .next a ∧
      (Within s.params.eoutCap (layoutLength (tableEntries a.enc.ct) + payloadLength a.enc.ct s.source) →
        ∃ b, exec .encfile a = .next b ∧
          ∀ u : State, u.input = b.output → u.InputFits 0 → Within u.params.doutCap s.enc.srcLen.toNat →
            ∃ v, exec .decfile u = .next v ∧ v.dec.lasterr = 0#8 ∧ v.symbols = s.source ∧
              v.dec.doutLen = s.enc.srcLen)

/-- R144, R142, R65: with a prefix-free table DECODE succeeds exactly when the payload begins with the encoding of some
sequence of SRCLEN symbols, and delivers that sequence; otherwise it is MalformedPayload. Nothing else changes. An
input that DIN cannot hold, or symbols that DOUT cannot hold, are refused (R6, U9). What counts as the input is the
model's choice (log 11, DEDUCED): the whole range from PAY_OFF to DIN_LEN, if it is not empty, held against DIN before
anything else, so that an input beyond DIN is refused also where DECODE needs no byte beyond the capacity (R46), as
with SRCLEN 0; and the symbols are held against DOUT only where DECODE succeeds. -/
def Obligations.DecodeRecoversExactlyEncodedSymbols : Prop :=
  ∀ s : State,
    (s.InputFits s.dec.payOff.toNat → s.dec.ct.PrefixFree →
      (∀ x : List Symbol, x.length = s.dec.srclen.toNat → s.dec.ct.Covers x →
        payloadBits s.dec.ct x <+: bitsOfBytes (s.inputFrom s.dec.payOff.toNat) →
        (Within s.params.doutCap s.dec.srclen.toNat →
          ∃ t, exec .decode s = .next t ∧ SameButSymbols s t ∧ t.dec.lasterr = 0#8 ∧
            t.symbols = x ∧ t.dec.doutLen = s.dec.srclen) ∧
        (¬ Within s.params.doutCap s.dec.srclen.toNat → exec .decode s = .refused .bufferCapacity)) ∧
      ((¬ ∃ x : List Symbol, x.length = s.dec.srclen.toNat ∧ s.dec.ct.Covers x ∧
        payloadBits s.dec.ct x <+: bitsOfBytes (s.inputFrom s.dec.payOff.toNat)) →
        exec .decode s = .next (decFailed 7#8 s))) ∧
    (¬ s.InputFits s.dec.payOff.toNat → exec .decode s = .refused .bufferCapacity)

/-- U1, the precondition of R144 (log 9): with a table that is not prefix-free DECODE is refused, and so is DECFILE of a
header that DESERIALIZE accepts with such a table: the spec gives them no result. -/
def Obligations.AmbiguousTablesAreRefused : Prop :=
  (∀ s : State, s.InputFits s.dec.payOff.toNat → ¬ s.dec.ct.PrefixFree → exec .decode s = .refused .notPrefixFree) ∧
  ∀ s a : State, exec .deserialize s = .next a → a.dec.lasterr = 0#8 → ¬ a.dec.ct.PrefixFree →
    exec .decfile s = .refused .notPrefixFree

/-- R145: DECFILE is DESERIALIZE followed by DECODE on what it parsed, all or nothing: a header failure is
DESERIALIZE's; a payload failure changes nothing but LASTERR; success leaves what the two commands leave, with one
response. -/
def Obligations.DecfileIsDeserializeThenDecode : Prop :=
  ∀ s a : State, exec .deserialize s = .next a →
    (a.dec.lasterr ≠ 0#8 → exec .decfile s = .next a) ∧
    (a.dec.lasterr = 0#8 →
      (∀ r, exec .decode a = .refused r → exec .decfile s = .refused r) ∧
      ∀ b, exec .decode a = .next b →
        (b.dec.lasterr = 0#8 →
          exec .decfile s = .next { b with dec := { b.dec with resps := s.dec.resps ++ [0#72] } }) ∧
        (b.dec.lasterr ≠ 0#8 → exec .decfile s = .next (decFailed b.dec.lasterr s)))

/-- R145, R64: DECFILE of a file that holds a header for a prefix-free table and a payload that begins with the encoding
of `x`, `source_length` being its length, completes, where DIN and DOUT hold the bytes (R6), and delivers `x`, the
table (≈), the length and the payload's offset. -/
def Obligations.DecfileRecoversTheFile : Prop :=
  ∀ (u : State) (T : Table) (x : List Symbol) (P : List Byte),
    T.PrefixFree → tableEntries T ≠ [] → T.Covers x → x.length < 2 ^ 32 → payloadBits T x <+: bitsOfBytes P →
    u.input = headerLayout (layoutLength (tableEntries T)) x.length (tableEntries T) ++ P →
    u.InputFits 0 → Within u.params.doutCap x.length →
    ∃ v, exec .decfile u = .next v ∧ v.enc = u.enc ∧ v.inbox = u.inbox ∧ v.params = u.params ∧ v.dec.lasterr = 0#8 ∧ v.symbols = x ∧
      v.dec.doutLen.toNat = x.length ∧ v.dec.ct.Same T ∧ v.dec.srclen.toNat = x.length ∧
      v.dec.payOff.toNat = layoutLength (tableEntries T) ∧ v.dec.br = u.dec.br ∧ v.dec.din = u.dec.din ∧
      v.dec.dinLen = u.dec.dinLen

/-- 45_decoder.md R146, which the spec marks [derived]: for a prefix-free table Lookup is a function, defined at the
length and value of every symbol of the alphabet, and the table form of the decoder gives the same symbols as the
trie and fails exactly when it fails. -/
def Obligations.TrieAndTableFormAgree : Prop :=
  ∀ T : Table, T.PrefixFree →
    (∀ c, (T.get c).len ≠ 0#8 → T.lookup (T.get c).len.toNat ((T.get c).word.toNat % 2 ^ (T.get c).len.toNat) = some c) ∧
    ∀ (n : Nat) (P : List Byte), tableWalk T n P = decodeWalk T n P

/-- 45_decoder.md R141's bounds, which the spec marks [derived]: a trie has at most TRIE_MAX = 65281 nodes; that of a
table BUILD made has 2|A| - 1, or 2 for one symbol. -/
def Obligations.TrieSizes : Prop :=
  (∀ T : Table, (trieBuild T).length ≤ 65281) ∧
  ∀ s t : State, exec .build s = .next t → t.enc.lasterr = 0#8 →
    (trieBuild t.enc.ct).length =
      if t.enc.ct.alphabet.length = 1 then 2 else 2 * t.enc.ct.alphabet.length - 1

/-- R40: a byte of DIN at or beyond DIN_LEN is never read: a command of DEC does the same whatever such bytes hold. -/
def Obligations.InputBeyondItsLengthIsNotRead : Prop :=
  ∀ (i : Instr) (s t : State) (m : Memory), i.port = .dec →
    (∀ a, a < s.dec.dinLen.toNat → m.read .din a = readByte .din a s) →
    exec i s = .next t →
    exec i { s with dec := { s.dec with din := m } } = .next { t with dec := { t.dec with din := m } }
end

