-- ==== Sys2Proof/Laws/Bits.lean ====
section
/-! SUPPORT. What the bit-sequence and byte-sequence functions of 00_scope.md section 5 do, once. -/

namespace Sys2Proof.Machine

@[simp] theorem bitsMsb_zero (v : Nat) : bitsMsb v 0 = [] := rfl

theorem bitsMsb_succ (v n : Nat) : bitsMsb v (n + 1) = v.testBit n :: bitsMsb v n := rfl

@[simp] theorem bitsMsb_length (v n : Nat) : (bitsMsb v n).length = n := by
  induction n with
  | zero => rfl
  | succ n ih => simp [bitsMsb_succ, ih]

theorem bitsMsb_eq_map (v n : Nat) : bitsMsb v n = (List.range n).map fun j => v.testBit (n - 1 - j) := by
  induction n with
  | zero => rfl
  | succ n ih =>
    rw [bitsMsb_succ, List.range_succ_eq_map, List.map_cons, List.map_map, ih]
    congr 1
    refine List.map_congr_left fun j _ => ?_
    simp only [Function.comp_apply]
    congr 1
    omega

theorem bitsMsb_getElem? (v n j : Nat) (h : j < n) : (bitsMsb v n)[j]? = some (v.testBit (n - 1 - j)) := by
  simp [bitsMsb_eq_map, h]

/-- Only the low `n` bits count. -/
theorem bitsMsb_mod (v n : Nat) : bitsMsb (v % 2 ^ n) n = bitsMsb v n := by
  rw [bitsMsb_eq_map, bitsMsb_eq_map]
  refine List.map_congr_left fun j hj => ?_
  have : n - 1 - j < n := by have := List.mem_range.mp hj; omega
  simp [Nat.testBit_mod_two_pow, this]

/-- The high bits come first. -/
theorem bitsMsb_split (v a b : Nat) : bitsMsb v (a + b) = bitsMsb (v >>> b) a ++ bitsMsb v b := by
  induction a with
  | zero => simp
  | succ a ih =>
    rw [show a + 1 + b = (a + b) + 1 by omega, bitsMsb_succ, bitsMsb_succ, ih, Nat.testBit_shiftRight,
      Nat.add_comm b a]
    rfl

theorem valMsbFrom_eq (acc : Nat) (q : List Bool) : valMsbFrom acc q = acc * 2 ^ q.length + valMsb q := by
  unfold valMsb
  induction q generalizing acc with
  | nil => simp [valMsbFrom]
  | cons b q ih =>
    rw [valMsbFrom, ih, valMsbFrom, ih (2 * 0 + b.toNat), List.length_cons, Nat.pow_succ]
    ring

@[simp] theorem valMsb_nil : valMsb [] = 0 := rfl

theorem valMsb_cons (b : Bool) (q : List Bool) : valMsb (b :: q) = b.toNat * 2 ^ q.length + valMsb q := by
  show valMsbFrom (2 * 0 + b.toNat) q = _
  rw [valMsbFrom_eq]
  simp

theorem valMsb_append (q r : List Bool) : valMsb (q ++ r) = valMsb q * 2 ^ r.length + valMsb r := by
  induction q with
  | nil => simp
  | cons b q ih =>
    rw [List.cons_append, valMsb_cons, valMsb_cons, ih, List.length_append, Nat.pow_add]
    ring

theorem valMsb_lt (q : List Bool) : valMsb q < 2 ^ q.length := by
  induction q with
  | nil => simp
  | cons b q ih =>
    rw [valMsb_cons, List.length_cons, Nat.pow_succ]
    cases b <;> simp <;> omega

/-- `val_msb(bits_msb(v, n)) = v mod 2^n` (00_scope.md section 5). -/
theorem valMsb_bitsMsb (v n : Nat) : valMsb (bitsMsb v n) = v % 2 ^ n := by
  induction n with
  | zero => simp [Nat.mod_one]
  | succ n ih =>
    rw [bitsMsb_succ, valMsb_cons, bitsMsb_length, ih, Nat.mod_pow_succ, Nat.testBit_eq_decide_div_mod_eq]
    have : v / 2 ^ n % 2 < 2 := Nat.mod_lt _ (by omega)
    rcases Nat.lt_or_ge (v / 2 ^ n % 2) 1 with h | h
    · have h0 : v / 2 ^ n % 2 = 0 := by omega
      simp [h0]
    · have h1 : v / 2 ^ n % 2 = 1 := by omega
      simp [h1]; omega

theorem bitsMsb_valMsb (q : List Bool) : bitsMsb (valMsb q) q.length = q := by
  induction q with
  | nil => rfl
  | cons b q ih =>
    have hlt := valMsb_lt q
    rw [List.length_cons, bitsMsb_succ, valMsb_cons]
    congr 1
    · rw [Nat.testBit_eq_decide_div_mod_eq, Nat.mul_comm, Nat.mul_add_div (Nat.two_pow_pos _),
        Nat.div_eq_of_lt hlt]
      cases b <;> rfl
    · rw [← bitsMsb_mod, Nat.mul_comm, Nat.mul_add_mod, Nat.mod_eq_of_lt hlt, ih]

/-! ### Little-endian numbers -/

@[simp] theorem leBytes_length (v k : Nat) : (leBytes v k).length = k := by
  induction k generalizing v with
  | zero => rfl
  | succ k ih => simp [leBytes, ih]

/-- `le_val(le_bytes(v, k)) = v mod 256^k` (00_scope.md section 5). -/
theorem leVal_leBytes (v k : Nat) : leVal (leBytes v k) = v % 256 ^ k := by
  induction k generalizing v with
  | zero => simp [leBytes, leVal, Nat.mod_one]
  | succ k ih =>
    simp only [leBytes, leVal, ih, BitVec.toNat_ofNat]
    rw [show 256 ^ (k + 1) = 256 * 256 ^ k from Nat.pow_succ', Nat.mod_mul]

theorem leVal_lt (bs : List Byte) : leVal bs < 256 ^ bs.length := by
  induction bs with
  | nil => simp [leVal]
  | cons b bs ih =>
    have := b.isLt
    simp only [leVal, List.length_cons, Nat.pow_succ]
    omega

/-! ### Bytes as bits, bits as bytes -/

@[simp] theorem bitsOfBytes_nil : bitsOfBytes [] = [] := rfl

theorem bitsOfBytes_cons (b : Byte) (bs : List Byte) : bitsOfBytes (b :: bs) = bitsMsb b.toNat 8 ++ bitsOfBytes bs := by
  simp [bitsOfBytes]

theorem bitsOfBytes_append (bs cs : List Byte) : bitsOfBytes (bs ++ cs) = bitsOfBytes bs ++ bitsOfBytes cs := by
  simp [bitsOfBytes]

@[simp] theorem bitsOfBytes_length (bs : List Byte) : (bitsOfBytes bs).length = 8 * bs.length := by
  induction bs with
  | nil => rfl
  | cons b bs ih => rw [bitsOfBytes_cons, List.length_append, bitsMsb_length, ih, List.length_cons]; omega

/-- Bit `k` of a byte sequence is bit `7 - k mod 8` of byte `k div 8` (20_memory.md R42). -/
theorem bitsOfBytes_getElem? (bs : List Byte) (k : Nat) (h : k < 8 * bs.length) :
    (bitsOfBytes bs)[k]? = some ((bs.getD (k / 8) 0#8).getLsbD (7 - k % 8)) := by
  induction bs generalizing k with
  | nil => simp at h
  | cons b bs ih =>
    rw [bitsOfBytes_cons]
    rcases Nat.lt_or_ge k 8 with hk | hk
    · rw [List.getElem?_append_left (by simpa using hk), bitsMsb_getElem? _ _ _ hk]
      have h0 : k / 8 = 0 := by omega
      have h1 : k % 8 = k := by omega
      rw [h0, h1]
      rfl
    · rw [List.getElem?_append_right (by simpa using hk), bitsMsb_length, ih (k - 8) (by simp at h; omega)]
      have h0 : k / 8 = (k - 8) / 8 + 1 := by omega
      have h1 : (k - 8) % 8 = k % 8 := by omega
      rw [h0, h1]
      rfl

theorem ceil8_le (n : Nat) : n ≤ 8 * ceil8 n := by unfold ceil8; omega

theorem padLen_lt (n : Nat) : padLen n < 8 := by unfold padLen; omega

theorem add_padLen (n : Nat) : n + padLen n = 8 * ceil8 n := by unfold padLen ceil8; omega

theorem packGroups_length (k : Nat) (q : List Bool) : (packGroups k q).length = k := by
  induction k generalizing q with
  | zero => rfl
  | succ k ih => simp [packGroups, ih]

theorem bitsOfBytes_packGroups (k : Nat) (q : List Bool) (h : q.length = 8 * k) : bitsOfBytes (packGroups k q) = q := by
  induction k generalizing q with
  | zero => simpa [packGroups] using (List.length_eq_zero_iff.mp (by omega)).symm
  | succ k ih =>
    have h8 : (q.take 8).length = 8 := by simp; omega
    have hlt := valMsb_lt (q.take 8)
    rw [h8] at hlt
    rw [packGroups, bitsOfBytes_cons, ih _ (by simp; omega), BitVec.toNat_ofNat, Nat.mod_eq_of_lt hlt]
    have hb := bitsMsb_valMsb (q.take 8)
    rw [h8] at hb
    rw [hb, List.take_append_drop]

/-- `|pack(q)| = ceil8(|q|)`. -/
@[simp] theorem pack_length (q : List Bool) : (pack q).length = ceil8 q.length := packGroups_length _ _

/-- `bits_of_bytes(pack(q)) = q ++ zeros(p)`, the definition of `pack` in 00_scope.md section 5. -/
theorem bitsOfBytes_pack (q : List Bool) : bitsOfBytes (pack q) = q ++ zeros (padLen q.length) :=
  bitsOfBytes_packGroups _ _ (by simp [zeros, add_padLen])

theorem takeBytes_append (hd tl : List Byte) : takeBytes hd.length (hd ++ tl) = some (hd, tl) := by
  induction hd with
  | nil => cases tl <;> rfl
  | cons b hd ih => simp [takeBytes, ih]

theorem takeBytes_eq_some {k : Nat} {bs hd tl : List Byte} (h : takeBytes k bs = some (hd, tl)) :
    bs = hd ++ tl ∧ hd.length = k := by
  induction k generalizing bs hd tl with
  | zero =>
    have h' : some (([] : List Byte), bs) = some (hd, tl) := by cases bs <;> exact h
    cases h'
    exact ⟨rfl, rfl⟩
  | succ k ih =>
    cases bs with
    | nil => simp [takeBytes] at h
    | cons b bs =>
      rw [takeBytes] at h
      split at h
      · cases h
      · rename_i hd' tl' heq
        cases h
        obtain ⟨rfl, hl⟩ := ih heq
        exact ⟨rfl, by simp [hl]⟩

theorem takeBytes_eq_none {k : Nat} {bs : List Byte} : takeBytes k bs = none ↔ bs.length < k := by
  induction k generalizing bs with
  | zero => cases bs <;> simp [takeBytes]
  | succ k ih =>
    cases bs with
    | nil => simp [takeBytes]
    | cons b bs =>
      rw [takeBytes, List.length_cons, Nat.add_lt_add_iff_right, ← ih]
      cases takeBytes k bs <;> simp

end Sys2Proof.Machine
end

