-- ==== Sys2Proof/Laws/Decode.lean ====
section
/-! SUPPORT. The fields of a command word and of a response word (30_encoding.md R75, R79), and what the decoder reads. -/

namespace Sys2Proof

theorem packCmd_toNat (v : BitVec 64) (a op : BitVec 8) :
    (packCmd v a op).toNat = v.toNat * 65536 + a.toNat * 256 + op.toNat := by
  have h : (packCmd v a op).toNat = ((v ++ a) ++ op : BitVec (64 + 8 + 8)).toNat := rfl
  have hop := op.isLt
  have ha := a.isLt
  rw [h, BitVec.toNat_append, BitVec.toNat_append, ← Nat.shiftLeft_add_eq_or_of_lt hop,
    ← Nat.shiftLeft_add_eq_or_of_lt ha, Nat.shiftLeft_eq, Nat.shiftLeft_eq]
  omega

@[simp] theorem op_packCmd (v : BitVec 64) (a op : BitVec 8) : Cmd.op (packCmd v a op) = op := by
  apply BitVec.eq_of_toNat_eq
  have := op.isLt
  rw [Cmd.op, BitVec.extractLsb'_toNat, packCmd_toNat]
  omega

@[simp] theorem a_packCmd (v : BitVec 64) (a op : BitVec 8) : Cmd.a (packCmd v a op) = a := by
  apply BitVec.eq_of_toNat_eq
  have := op.isLt
  have := a.isLt
  rw [Cmd.a, BitVec.extractLsb'_toNat, packCmd_toNat, Nat.shiftRight_eq_div_pow]
  omega

@[simp] theorem v_packCmd (v : BitVec 64) (a op : BitVec 8) : Cmd.v (packCmd v a op) = v := by
  apply BitVec.eq_of_toNat_eq
  have := op.isLt
  have := a.isLt
  have := v.isLt
  rw [Cmd.v, BitVec.extractLsb'_toNat, packCmd_toNat, Nat.shiftRight_eq_div_pow]
  omega

/-- Each row of the opcode map is read under its own opcode, with operands that fit their fields. -/
theorem decodeRow_eq_some {w : Cmd} {i : Instr} (h : decodeRow w = some i) :
    i.opcode = Cmd.op w ∧ i.wellFormed = true := by
  have key : ∀ k : Nat, (Cmd.op w).toNat = k → BitVec.ofNat 8 k = Cmd.op w := fun k hk => by rw [← hk]; simp
  unfold decodeRow at h
  split at h <;> cases h <;> rename_i hop <;> refine ⟨key _ hop, ?_⟩ <;>
    first | rfl | exact decide_eq_true (BitVec.isLt _)

theorem decode_eq_ok {p : Port} {w : Cmd} {i : Instr} (h : decode p w = .ok i) : decodeRow w = some i ∧ i.port = p := by
  unfold decode at h
  split at h
  · cases h
  · split at h <;> cases h
    exact ⟨‹_›, ‹_›⟩

namespace Machine

theorem response_toNat (st : Status) (r : BitVec 64) : (response st r).toNat = r.toNat * 256 + st.code.toNat := by
  have h : (response st r).toNat = (r ++ st.code : BitVec (64 + 8)).toNat := rfl
  have hst := st.code.isLt
  rw [h, BitVec.toNat_append, ← Nat.shiftLeft_add_eq_or_of_lt hst, Nat.shiftLeft_eq]

end Machine

end Sys2Proof
end

