-- ==== Sys2Proof/Laws/Ops.lean ====
section
/-! SUPPORT. What each shared operation does, once: buffers, code tables, completion, capacities. -/

namespace Sys2Proof.Machine

/-! ### Buffers -/

theorem cellAt_putCell_same (a : Nat) (b : Byte) (cs : List Host.Cell) : cellAt a (putCell a b cs) = some b := by
  induction cs with
  | nil => simp [putCell, cellAt]
  | cons c cs ih =>
    obtain ⟨a', b'⟩ := c
    unfold putCell
    split_ifs with h1 h2
    · simp [cellAt]
    · simp [cellAt]
    · rw [cellAt, if_neg (Ne.symm h2), ih]

theorem cellAt_putCell_other {a a' : Nat} (h : a' ≠ a) (b : Byte) (cs : List Host.Cell) :
    cellAt a' (putCell a b cs) = cellAt a' cs := by
  induction cs with
  | nil => simp [putCell, cellAt, Ne.symm h]
  | cons c cs ih =>
    obtain ⟨k, b'⟩ := c
    unfold putCell
    split_ifs with h1 h2
    · simp [cellAt, Ne.symm h]
    · subst h2; simp [cellAt, Ne.symm h]
    · simp only [cellAt, ih]

theorem risingFrom_mono {lo lo' : Nat} (h : lo' ≤ lo) {cs : List Host.Cell} (hr : risingFrom lo cs = true) :
    risingFrom lo' cs = true := by
  cases cs with
  | nil => rfl
  | cons c cs =>
    simp only [risingFrom, Bool.and_eq_true, decide_eq_true_eq] at hr ⊢
    exact ⟨by omega, hr.2⟩

theorem risingFrom_putCell {lo a : Nat} (ha : lo ≤ a) (b : Byte) {cs : List Host.Cell}
    (hr : risingFrom lo cs = true) : risingFrom lo (putCell a b cs) = true := by
  induction cs generalizing lo with
  | nil => simpa [putCell, risingFrom] using ha
  | cons c cs ih =>
    obtain ⟨k, b'⟩ := c
    simp only [risingFrom, Bool.and_eq_true, decide_eq_true_eq] at hr
    unfold putCell
    split_ifs with h1 h2
    · simp [risingFrom, ha, h1, hr.2]
    · subst h2; simp [risingFrom, ha, hr.2]
    · simp only [risingFrom, Bool.and_eq_true, decide_eq_true_eq]
      exact ⟨hr.1, ih (by omega) hr.2⟩

theorem risingFrom_cellsFrom (a : Nat) (bs : List Byte) : risingFrom a (cellsFrom a bs) = true := by
  induction bs generalizing a with
  | nil => rfl
  | cons b bs ih => simp [cellsFrom, risingFrom, ih]

/-- Every memory operation keeps the canonical form. -/
theorem wf_unwritten (gen : Nat) : (Memory.unwritten gen).wf = true := rfl

theorem wf_write {m : Memory} (h : m.wf = true) (a : Nat) (b : Byte) : (m.write a b).wf = true :=
  risingFrom_putCell (Nat.zero_le a) b h

theorem wf_writeAll {m : Memory} (h : m.wf = true) (a : Nat) (bs : List Byte) : (m.writeAll a bs).wf = true := by
  induction bs generalizing m a with
  | nil => exact h
  | cons b bs ih => exact ih (wf_write h a b) (a + 1)

theorem wf_replace (m : Memory) (bs : List Byte) : (m.replace bs).wf = true := risingFrom_cellsFrom 0 bs

@[simp] theorem read_write_same (name : BufferName) (m : Memory) (a : Nat) (b : Byte) :
    (m.write a b).read name a = b := by
  simp [Memory.read, Memory.write, cellAt_putCell_same]

@[simp] theorem read_write_other {name : BufferName} {m : Memory} {a a' : Nat} (h : a' ≠ a) (b : Byte) :
    (m.write a b).read name a' = m.read name a' := by
  simp [Memory.read, Memory.write, cellAt_putCell_other h]

theorem read_writeAll_outside {name : BufferName} {m : Memory} {a a' : Nat} {bs : List Byte}
    (h : a' < a ∨ a + bs.length ≤ a') : (m.writeAll a bs).read name a' = m.read name a' := by
  induction bs generalizing m a with
  | nil => rfl
  | cons b bs ih =>
    simp only [List.length_cons] at h
    rw [Memory.writeAll, ih (by omega), read_write_other (by omega)]

theorem read_writeAll_inside {name : BufferName} {m : Memory} {a i : Nat} {bs : List Byte} (h : i < bs.length) :
    (m.writeAll a bs).read name (a + i) = bs[i] := by
  induction bs generalizing m a i with
  | nil => simp at h
  | cons b bs ih =>
    rw [Memory.writeAll]
    cases i with
    | zero => rw [read_writeAll_outside (by omega)]; simp
    | succ i =>
      rw [show a + (i + 1) = a + 1 + i by omega, ih (by simpa using h)]
      rfl

theorem cellAt_cellsFrom (a : Nat) (bs : List Byte) (i : Nat) : cellAt (a + i) (cellsFrom a bs) = bs[i]? := by
  induction bs generalizing a i with
  | nil => rfl
  | cons b bs ih =>
    cases i with
    | zero => simp [cellsFrom, cellAt]
    | succ i => rw [cellsFrom, cellAt, if_neg (by omega), show a + (i + 1) = a + 1 + i by omega, ih]; simp

theorem cellAt_cellsFrom_zero (bs : List Byte) (i : Nat) : cellAt i (cellsFrom 0 bs) = bs[i]? := by
  simpa using cellAt_cellsFrom 0 bs i

theorem read_replace {name : BufferName} {m : Memory} {bs : List Byte} {i : Nat} (h : i < bs.length) :
    (m.replace bs).read name i = bs[i] := by
  simp [Memory.read, Memory.replace, cellAt_cellsFrom_zero, h]

@[simp] theorem slice_length (name : BufferName) (m : Memory) (a n : Nat) : (m.slice name a n).length = n := by
  induction n generalizing a with
  | zero => rfl
  | succ n ih => simp [Memory.slice, ih]

theorem slice_getElem? (name : BufferName) (m : Memory) (a n i : Nat) (h : i < n) :
    (m.slice name a n)[i]? = some (m.read name (a + i)) := by
  induction n generalizing a i with
  | zero => omega
  | succ n ih =>
    cases i with
    | zero => rfl
    | succ i => rw [Memory.slice, List.getElem?_cons_succ, ih _ _ (by omega), Nat.add_right_comm, Nat.add_assoc]

/-- A slice depends on its own bytes alone. -/
theorem slice_congr {name : BufferName} {m m' : Memory} {a n : Nat}
    (h : ∀ i, a ≤ i → i < a + n → m.read name i = m'.read name i) : m.slice name a n = m'.slice name a n := by
  induction n generalizing a with
  | zero => rfl
  | succ n ih =>
    rw [Memory.slice, Memory.slice, h a (by omega) (by omega), ih fun i hi hi' => h i (by omega) (by omega)]

theorem slice_eq_of_read {name : BufferName} {m : Memory} {a : Nat} {bs : List Byte}
    (h : ∀ i (hi : i < bs.length), m.read name (a + i) = bs[i]) : m.slice name a bs.length = bs := by
  refine List.ext_getElem? fun i => ?_
  rcases Nat.lt_or_ge i bs.length with hi | hi
  · rw [slice_getElem? _ _ _ _ _ hi, h i hi, List.getElem?_eq_getElem hi]
  · rw [List.getElem?_eq_none (by simpa using hi), List.getElem?_eq_none hi]

/-- An output buffer holds what replaced its content. -/
@[simp] theorem slice_replace (name : BufferName) (m : Memory) (bs : List Byte) :
    (m.replace bs).slice name 0 bs.length = bs :=
  slice_eq_of_read fun i hi => by rw [Nat.zero_add, read_replace hi]

theorem slice_writeAll (name : BufferName) (m : Memory) (a : Nat) (bs : List Byte) :
    (m.writeAll a bs).slice name a bs.length = bs :=
  slice_eq_of_read fun _ hi => read_writeAll_inside hi

/-! ### Code tables -/

@[simp] theorem Table.get_put_same (T : Table) (s : Symbol) (e : Entry) : (T.put s e).get s = e := by
  show (Vector.set T s.toNat e s.isLt)[s.toNat]'_ = e
  simp

@[simp] theorem Table.get_put_other {T : Table} {s t : Symbol} (h : t ≠ s) (e : Entry) :
    (T.put s e).get t = T.get t := by
  show (Vector.set T s.toNat e s.isLt)[t.toNat]'t.isLt = T[t.toNat]'t.isLt
  exact Vector.getElem_set_ne _ _ fun hst => h (BitVec.eq_of_toNat_eq hst.symm)

@[simp] theorem Freq.get_put_same (F : Freq) (s : Symbol) (w : Weight) : (F.put s w).get s = w := by
  show (Vector.set F s.toNat w s.isLt)[s.toNat]'_ = w
  simp

@[simp] theorem Freq.get_put_other {F : Freq} {s t : Symbol} (h : t ≠ s) (w : Weight) :
    (F.put s w).get t = F.get t := by
  show (Vector.set F s.toNat w s.isLt)[t.toNat]'t.isLt = F[t.toNat]'t.isLt
  exact Vector.getElem_set_ne _ _ fun hst => h (BitVec.eq_of_toNat_eq hst.symm)

@[simp] theorem Table.reset_get (s : Symbol) : Table.reset.get s = { len := 0#8, word := 0#255 } := by
  show (Vector.replicate 256 _)[s.toNat]'s.isLt = _
  simp

theorem mem_allSymbols (s : Symbol) : s ∈ allSymbols :=
  List.mem_map.mpr ⟨s.toNat, List.mem_range.mpr s.isLt, by simp⟩

theorem allSymbols_toNat : allSymbols.map BitVec.toNat = List.range 256 := by decide +kernel

theorem allSymbols_nodup : allSymbols.Nodup :=
  List.Nodup.of_map BitVec.toNat (allSymbols_toNat ▸ List.nodup_range)

theorem allSymbols_length : allSymbols.length = 256 := by simp [allSymbols]

theorem allSymbols_getElem (i : Nat) (h : i < allSymbols.length) : allSymbols[i] = BitVec.ofNat 8 i := by
  simp [allSymbols]

theorem indexed_eq {α : Type} (V : Vector α 256) : indexed V = allSymbols.map fun s => (s, Vector.get V s.toFin) := by
  refine List.ext_getElem (by simp [indexed, allSymbols]) fun i h1 h2 => ?_
  have hi : i < 256 := by simpa [allSymbols] using h2
  simp only [indexed, List.getElem_zip, List.getElem_map, allSymbols_getElem, Vector.getElem_toList]
  refine congrArg (Prod.mk _) ?_
  show V[i] = V[(BitVec.ofNat 8 i).toNat]'(BitVec.isLt _)
  have : (BitVec.ofNat 8 i).toNat = i := by rw [BitVec.toNat_ofNat]; exact Nat.mod_eq_of_lt hi
  simp only [this]

/-- The alphabet as a choice among all symbols. -/
theorem Table.alphabet_eq (T : Table) : T.alphabet = allSymbols.filter fun s => decide ((T.get s).len ≠ 0#8) := by
  rw [Table.alphabet, indexed_eq, List.filter_map, List.map_map]
  exact (List.map_congr_left fun _ _ => rfl).trans (List.map_id _)

theorem get_ofList {α : Type} (l : List α) (h : l.toArray.size = 256) (i : Fin 256) :
    Vector.get { toArray := l.toArray, size_toArray := h } i = l[i.val]'(by
      have := i.isLt
      rw [List.size_toArray] at h
      omega) := rfl

@[simp] theorem tabulate_get {α : Type} (f : Symbol → α) (s : Symbol) : Vector.get (tabulate f) s.toFin = f s := by
  rw [tabulate, get_ofList, List.getElem_map, allSymbols_getElem]
  simp

@[simp] theorem Table.absent_get (p : Port) (draw : Nat) (s : Symbol) :
    (Table.absent p draw).get s = { len := 0#8, word := Config.freeWord p draw s } := tabulate_get _ s

/-- `Alphabet(T)` (10_state.md R24). -/
theorem Table.mem_alphabet {T : Table} {s : Symbol} : s ∈ T.alphabet ↔ (T.get s).len ≠ 0#8 := by
  simp [Table.alphabet_eq, mem_allSymbols]

theorem Table.alphabet_nodup (T : Table) : T.alphabet.Nodup := T.alphabet_eq ▸ allSymbols_nodup.filter _

theorem Table.alphabet_length_le (T : Table) : T.alphabet.length ≤ 256 :=
  T.alphabet_eq ▸ allSymbols_length ▸ List.length_filter_le _ _

@[simp] theorem Table.code_length (T : Table) (s : Symbol) : (T.code s).length = (T.get s).len.toNat :=
  bitsMsb_length _ _

/-- `PrefixFree(T)` as R24 words it. -/
theorem Table.prefixFree_iff {T : Table} :
    T.prefixFree = true ↔
      ∀ s t, s ≠ t → (T.get s).len ≠ 0#8 → (T.get t).len ≠ 0#8 → ¬ T.code s <+: T.code t := by
  simp only [Table.prefixFree, Table.apart, List.all_eq_true, Table.mem_alphabet, Bool.or_eq_true,
    decide_eq_true_eq, Bool.not_eq_true', ← Bool.not_eq_true, List.isPrefixOf_iff_prefix]
  constructor
  · intro h s t hst hs ht
    exact (h s hs t ht).resolve_left hst
  · intro h s hs t ht
    by_cases hst : s = t
    · exact .inl hst
    · exact .inr (h s t hst hs ht)

/-! ### Capacities (00_scope.md R6, U9) -/

@[simp] theorem fits_none (n : Nat) : fits none n = true := rfl

@[simp] theorem fits_some (c n : Nat) : fits (some c) n = decide (n ≤ c) := rfl

theorem fits_mono {cap : Option Nat} {m n : Nat} (h : m ≤ n) (hn : fits cap n = true) : fits cap m = true := by
  cases cap with
  | none => rfl
  | some c => exact decide_eq_true (Nat.le_trans h (of_decide_eq_true hn))

/-- What delivering an output to EOUT can answer. -/
theorem deliverEout_eq (bs : List Byte) (s : State) :
    (fits s.params.eoutCap bs.length = true ∧
      deliverEout bs s = .next ((s.setEout bs).complete .enc .ok 0#64)) ∨
    (fits s.params.eoutCap bs.length = false ∧ deliverEout bs s = .refused .bufferCapacity) := by
  unfold deliverEout
  cases h : fits s.params.eoutCap bs.length
  · exact .inr ⟨rfl, rfl⟩
  · exact .inl ⟨rfl, rfl⟩

/-- What delivering an output to DOUT can answer. -/
theorem deliverDout_eq (out : List Symbol) (s : State) :
    (fits s.params.doutCap out.length = true ∧
      deliverDout out s = .next ((s.setDout out).complete .dec .ok 0#64)) ∨
    (fits s.params.doutCap out.length = false ∧ deliverDout out s = .refused .bufferCapacity) := by
  unfold deliverDout
  cases h : fits s.params.doutCap out.length
  · exact .inr ⟨rfl, rfl⟩
  · exact .inl ⟨rfl, rfl⟩

/-- Whether the input `DIN[off .. DIN_LEN)` lies within DIN. -/
theorem inputFits_iff {off : Nat} {s : State} :
    (decide (s.dec.dinLen.toNat ≤ off) || fits s.params.dinCap s.dec.dinLen.toNat) = true ↔
      (off < s.dec.dinLen.toNat → fits s.params.dinCap s.dec.dinLen.toNat = true) := by
  rw [Bool.or_eq_true, decide_eq_true_eq, ← Nat.not_lt]
  exact Decidable.imp_iff_not_or.symm

/-- A command with an input in DIN runs where the input fits. -/
theorem withInput_of_fits {off : Nat} {s : State}
    (h : off < s.dec.dinLen.toNat → fits s.params.dinCap s.dec.dinLen.toNat = true) (k : Result) :
    withInput off s k = k := if_pos (inputFits_iff.mpr h)

/-- A command with an input in DIN is refused where the input does not fit. -/
theorem withInput_of_not_fits {off : Nat} {s : State} (h : off < s.dec.dinLen.toNat)
    (hf : fits s.params.dinCap s.dec.dinLen.toNat = false) (k : Result) :
    withInput off s k = .refused .bufferCapacity :=
  if_neg fun hc => absurd (inputFits_iff.mp hc h) (by rw [hf]; exact Bool.false_ne_true)

/-- What a command with an input in DIN did if it answered a next state. -/
theorem withInput_next {off : Nat} {s t : State} {k : Result} (h : withInput off s k = .next t) :
    (off < s.dec.dinLen.toNat → fits s.params.dinCap s.dec.dinLen.toNat = true) ∧ k = .next t := by
  unfold withInput at h
  split at h
  · exact ⟨inputFits_iff.mp ‹_›, h⟩
  · cases h

/-- A command with the source as its input runs where the source fits. -/
theorem withSource_of_fits {s : State} (h : fits s.params.srcCap s.enc.srcLen.toNat = true) (k : List Symbol → Result) :
    withSource s k = k s.source := if_pos h

/-- A command with the source as its input is refused where the source does not fit. -/
theorem withSource_of_not_fits {s : State} (h : fits s.params.srcCap s.enc.srcLen.toNat = false)
    (k : List Symbol → Result) : withSource s k = .refused .bufferCapacity :=
  if_neg (by rw [h]; exact Bool.false_ne_true)

/-- What a command with the source as its input did if it answered a next state. -/
theorem withSource_next {s t : State} {k : List Symbol → Result} (h : withSource s k = .next t) :
    fits s.params.srcCap s.enc.srcLen.toNat = true ∧ k s.source = .next t := by
  unfold withSource at h
  split at h
  · exact ⟨‹_›, h⟩
  · cases h

/-- What delivering an output to EOUT did if it answered a next state. -/
theorem deliverEout_next {bs : List Byte} {s t : State} (h : deliverEout bs s = .next t) :
    fits s.params.eoutCap bs.length = true ∧ t = (s.setEout bs).complete .enc .ok 0#64 := by
  rcases deliverEout_eq bs s with ⟨hf, he⟩ | ⟨_, he⟩ <;> rw [he] at h <;> cases h
  exact ⟨hf, rfl⟩

/-- What delivering an output to DOUT did if it answered a next state. -/
theorem deliverDout_next {out : List Symbol} {s t : State} (h : deliverDout out s = .next t) :
    fits s.params.doutCap out.length = true ∧ t = (s.setDout out).complete .dec .ok 0#64 := by
  rcases deliverDout_eq out s with ⟨hf, he⟩ | ⟨_, he⟩ <;> rw [he] at h <;> cases h
  exact ⟨hf, rfl⟩

theorem eoutLenOf_toNat {gen n : Nat} (h : n < 2 ^ 40) : (eoutLenOf gen n).toNat = n := by
  rw [eoutLenOf, if_pos h, BitVec.toNat_ofNat, Nat.mod_eq_of_lt h]

/-- What the host finds in EOUT after an output of fewer than 2^40 bytes. -/
theorem output_setEout {bs : List Byte} (h : bs.length < 2 ^ 40) (s : State) : (s.setEout bs).output = bs := by
  show (s.enc.eout.replace bs).slice .eout 0 (eoutLenOf _ bs.length).toNat = bs
  rw [eoutLenOf_toNat h, slice_replace]

/-- What the host finds in DOUT after an output of fewer than 2^32 symbols. -/
theorem symbols_setDout {out : List Symbol} (h : out.length < 2 ^ 32) (s : State) :
    (s.setDout out).symbols = out := by
  show (s.dec.dout.replace out).slice .dout 0 (BitVec.ofNat 32 out.length).toNat = out
  rw [BitVec.toNat_ofNat, Nat.mod_eq_of_lt h, slice_replace]

/-! ### Completion (60_exceptions.md R160, R165) -/

theorem fail_eq (p : Port) (st : Status) (s : State) : fail p st s = .next (s.complete p st 0#64) := rfl

theorem succeed_eq (p : Port) (r : BitVec 64) (s : State) : succeed p r s = .next (s.complete p .ok r) := rfl

theorem code_lt_ten (st : Status) : st.code.toNat < 10 := by cases st <;> decide

theorem code_eq_zero {st : Status} : st.code = 0#8 ↔ st = .ok := by cases st <;> decide

theorem code_injective {st st' : Status} (h : st.code = st'.code) : st = st' := by
  cases st <;> cases st' <;> first | rfl | (exfalso; revert h; decide)

end Sys2Proof.Machine
end

