-- ==== Sys2Proof/Laws/State.lean ====
section
/-! SUPPORT. One lemma per field per update of the state, each true by rfl. -/

namespace Sys2Proof.Machine

section
variable (s : State) (q : List Bool)
@[simp] theorem State.setBp_enc_lasterr : (s.setBp q).enc.lasterr = s.enc.lasterr := rfl
@[simp] theorem State.setBp_enc_srcLen : (s.setBp q).enc.srcLen = s.enc.srcLen := rfl
@[simp] theorem State.setBp_enc_eoutLen : (s.setBp q).enc.eoutLen = s.enc.eoutLen := rfl
@[simp] theorem State.setBp_enc_bp : (s.setBp q).enc.bp = q := rfl
@[simp] theorem State.setBp_enc_freq : (s.setBp q).enc.freq = s.enc.freq := rfl
@[simp] theorem State.setBp_enc_ct : (s.setBp q).enc.ct = s.enc.ct := rfl
@[simp] theorem State.setBp_enc_src : (s.setBp q).enc.src = s.enc.src := rfl
@[simp] theorem State.setBp_enc_eout : (s.setBp q).enc.eout = s.enc.eout := rfl
@[simp] theorem State.setBp_enc_resps : (s.setBp q).enc.resps = s.enc.resps := rfl
@[simp] theorem State.setBp_enc_tableDraws : (s.setBp q).enc.tableDraws = s.enc.tableDraws := rfl
@[simp] theorem State.setBp_dec : (s.setBp q).dec = s.dec := rfl
@[simp] theorem State.setBp_inbox : (s.setBp q).inbox = s.inbox := rfl
@[simp] theorem State.setBp_params : (s.setBp q).params = s.params := rfl
end

section
variable (s : State) (T : Table)
@[simp] theorem State.setEncTable_enc_lasterr : (s.setEncTable T).enc.lasterr = s.enc.lasterr := rfl
@[simp] theorem State.setEncTable_enc_srcLen : (s.setEncTable T).enc.srcLen = s.enc.srcLen := rfl
@[simp] theorem State.setEncTable_enc_eoutLen : (s.setEncTable T).enc.eoutLen = s.enc.eoutLen := rfl
@[simp] theorem State.setEncTable_enc_bp : (s.setEncTable T).enc.bp = s.enc.bp := rfl
@[simp] theorem State.setEncTable_enc_freq : (s.setEncTable T).enc.freq = s.enc.freq := rfl
@[simp] theorem State.setEncTable_enc_ct : (s.setEncTable T).enc.ct = T := rfl
@[simp] theorem State.setEncTable_enc_src : (s.setEncTable T).enc.src = s.enc.src := rfl
@[simp] theorem State.setEncTable_enc_eout : (s.setEncTable T).enc.eout = s.enc.eout := rfl
@[simp] theorem State.setEncTable_enc_resps : (s.setEncTable T).enc.resps = s.enc.resps := rfl
@[simp] theorem State.setEncTable_enc_tableDraws : (s.setEncTable T).enc.tableDraws = s.enc.tableDraws + 1 := rfl
@[simp] theorem State.setEncTable_dec : (s.setEncTable T).dec = s.dec := rfl
@[simp] theorem State.setEncTable_inbox : (s.setEncTable T).inbox = s.inbox := rfl
@[simp] theorem State.setEncTable_params : (s.setEncTable T).params = s.params := rfl
end

section
variable (s : State) (bs : List Byte)
@[simp] theorem State.setEout_enc_lasterr : (s.setEout bs).enc.lasterr = s.enc.lasterr := rfl
@[simp] theorem State.setEout_enc_srcLen : (s.setEout bs).enc.srcLen = s.enc.srcLen := rfl
@[simp] theorem State.setEout_enc_eoutLen : (s.setEout bs).enc.eoutLen = eoutLenOf (s.enc.eout.gen + 1) bs.length := rfl
@[simp] theorem State.setEout_enc_bp : (s.setEout bs).enc.bp = s.enc.bp := rfl
@[simp] theorem State.setEout_enc_freq : (s.setEout bs).enc.freq = s.enc.freq := rfl
@[simp] theorem State.setEout_enc_ct : (s.setEout bs).enc.ct = s.enc.ct := rfl
@[simp] theorem State.setEout_enc_src : (s.setEout bs).enc.src = s.enc.src := rfl
@[simp] theorem State.setEout_enc_eout : (s.setEout bs).enc.eout = s.enc.eout.replace bs := rfl
@[simp] theorem State.setEout_enc_resps : (s.setEout bs).enc.resps = s.enc.resps := rfl
@[simp] theorem State.setEout_enc_tableDraws : (s.setEout bs).enc.tableDraws = s.enc.tableDraws := rfl
@[simp] theorem State.setEout_dec : (s.setEout bs).dec = s.dec := rfl
@[simp] theorem State.setEout_inbox : (s.setEout bs).inbox = s.inbox := rfl
@[simp] theorem State.setEout_params : (s.setEout bs).params = s.params := rfl
end

section
variable (s : State) (buf : List Byte) (cursor : Nat)
@[simp] theorem State.setReader_dec_lasterr : (s.setReader buf cursor).dec.lasterr = s.dec.lasterr := rfl
@[simp] theorem State.setReader_dec_dinLen : (s.setReader buf cursor).dec.dinLen = s.dec.dinLen := rfl
@[simp] theorem State.setReader_dec_srclen : (s.setReader buf cursor).dec.srclen = s.dec.srclen := rfl
@[simp] theorem State.setReader_dec_payOff : (s.setReader buf cursor).dec.payOff = s.dec.payOff := rfl
@[simp] theorem State.setReader_dec_doutLen : (s.setReader buf cursor).dec.doutLen = s.dec.doutLen := rfl
@[simp] theorem State.setReader_dec_br : (s.setReader buf cursor).dec.br = { buf := buf, cursor := cursor } := rfl
@[simp] theorem State.setReader_dec_ct : (s.setReader buf cursor).dec.ct = s.dec.ct := rfl
@[simp] theorem State.setReader_dec_din : (s.setReader buf cursor).dec.din = s.dec.din := rfl
@[simp] theorem State.setReader_dec_dout : (s.setReader buf cursor).dec.dout = s.dec.dout := rfl
@[simp] theorem State.setReader_dec_resps : (s.setReader buf cursor).dec.resps = s.dec.resps := rfl
@[simp] theorem State.setReader_dec_tableDraws : (s.setReader buf cursor).dec.tableDraws = s.dec.tableDraws := rfl
@[simp] theorem State.setReader_enc : (s.setReader buf cursor).enc = s.enc := rfl
@[simp] theorem State.setReader_inbox : (s.setReader buf cursor).inbox = s.inbox := rfl
@[simp] theorem State.setReader_params : (s.setReader buf cursor).params = s.params := rfl
end

section
variable (s : State) (T : Table) (n pos : Nat)
@[simp] theorem State.setHeader_dec_lasterr : (s.setHeader T n pos).dec.lasterr = s.dec.lasterr := rfl
@[simp] theorem State.setHeader_dec_dinLen : (s.setHeader T n pos).dec.dinLen = s.dec.dinLen := rfl
@[simp] theorem State.setHeader_dec_srclen : (s.setHeader T n pos).dec.srclen = BitVec.ofNat 32 n := rfl
@[simp] theorem State.setHeader_dec_payOff : (s.setHeader T n pos).dec.payOff = BitVec.ofNat 40 pos := rfl
@[simp] theorem State.setHeader_dec_doutLen : (s.setHeader T n pos).dec.doutLen = s.dec.doutLen := rfl
@[simp] theorem State.setHeader_dec_br : (s.setHeader T n pos).dec.br = s.dec.br := rfl
@[simp] theorem State.setHeader_dec_ct : (s.setHeader T n pos).dec.ct = T := rfl
@[simp] theorem State.setHeader_dec_din : (s.setHeader T n pos).dec.din = s.dec.din := rfl
@[simp] theorem State.setHeader_dec_dout : (s.setHeader T n pos).dec.dout = s.dec.dout := rfl
@[simp] theorem State.setHeader_dec_resps : (s.setHeader T n pos).dec.resps = s.dec.resps := rfl
@[simp] theorem State.setHeader_dec_tableDraws : (s.setHeader T n pos).dec.tableDraws = s.dec.tableDraws + 1 := rfl
@[simp] theorem State.setHeader_enc : (s.setHeader T n pos).enc = s.enc := rfl
@[simp] theorem State.setHeader_inbox : (s.setHeader T n pos).inbox = s.inbox := rfl
@[simp] theorem State.setHeader_params : (s.setHeader T n pos).params = s.params := rfl
end

section
variable (s : State) (out : List Symbol)
@[simp] theorem State.setDout_dec_lasterr : (s.setDout out).dec.lasterr = s.dec.lasterr := rfl
@[simp] theorem State.setDout_dec_dinLen : (s.setDout out).dec.dinLen = s.dec.dinLen := rfl
@[simp] theorem State.setDout_dec_srclen : (s.setDout out).dec.srclen = s.dec.srclen := rfl
@[simp] theorem State.setDout_dec_payOff : (s.setDout out).dec.payOff = s.dec.payOff := rfl
@[simp] theorem State.setDout_dec_doutLen : (s.setDout out).dec.doutLen = BitVec.ofNat 32 out.length := rfl
@[simp] theorem State.setDout_dec_br : (s.setDout out).dec.br = s.dec.br := rfl
@[simp] theorem State.setDout_dec_ct : (s.setDout out).dec.ct = s.dec.ct := rfl
@[simp] theorem State.setDout_dec_din : (s.setDout out).dec.din = s.dec.din := rfl
@[simp] theorem State.setDout_dec_dout : (s.setDout out).dec.dout = s.dec.dout.replace out := rfl
@[simp] theorem State.setDout_dec_resps : (s.setDout out).dec.resps = s.dec.resps := rfl
@[simp] theorem State.setDout_dec_tableDraws : (s.setDout out).dec.tableDraws = s.dec.tableDraws := rfl
@[simp] theorem State.setDout_enc : (s.setDout out).enc = s.enc := rfl
@[simp] theorem State.setDout_inbox : (s.setDout out).inbox = s.inbox := rfl
@[simp] theorem State.setDout_params : (s.setDout out).params = s.params := rfl
end

section
variable (s : State) (n : BitVec 32)
@[simp] theorem State.setSrcLen_enc_lasterr : (s.setSrcLen n).enc.lasterr = s.enc.lasterr := rfl
@[simp] theorem State.setSrcLen_enc_srcLen : (s.setSrcLen n).enc.srcLen = n := rfl
@[simp] theorem State.setSrcLen_enc_eoutLen : (s.setSrcLen n).enc.eoutLen = s.enc.eoutLen := rfl
@[simp] theorem State.setSrcLen_enc_bp : (s.setSrcLen n).enc.bp = s.enc.bp := rfl
@[simp] theorem State.setSrcLen_enc_freq : (s.setSrcLen n).enc.freq = s.enc.freq := rfl
@[simp] theorem State.setSrcLen_enc_ct : (s.setSrcLen n).enc.ct = s.enc.ct := rfl
@[simp] theorem State.setSrcLen_enc_src : (s.setSrcLen n).enc.src = s.enc.src := rfl
@[simp] theorem State.setSrcLen_enc_eout : (s.setSrcLen n).enc.eout = s.enc.eout := rfl
@[simp] theorem State.setSrcLen_enc_resps : (s.setSrcLen n).enc.resps = s.enc.resps := rfl
@[simp] theorem State.setSrcLen_enc_tableDraws : (s.setSrcLen n).enc.tableDraws = s.enc.tableDraws := rfl
@[simp] theorem State.setSrcLen_dec : (s.setSrcLen n).dec = s.dec := rfl
@[simp] theorem State.setSrcLen_inbox : (s.setSrcLen n).inbox = s.inbox := rfl
@[simp] theorem State.setSrcLen_params : (s.setSrcLen n).params = s.params := rfl
end

section
variable (s : State) (n : BitVec 40)
@[simp] theorem State.setDinLen_dec_lasterr : (s.setDinLen n).dec.lasterr = s.dec.lasterr := rfl
@[simp] theorem State.setDinLen_dec_dinLen : (s.setDinLen n).dec.dinLen = n := rfl
@[simp] theorem State.setDinLen_dec_srclen : (s.setDinLen n).dec.srclen = s.dec.srclen := rfl
@[simp] theorem State.setDinLen_dec_payOff : (s.setDinLen n).dec.payOff = s.dec.payOff := rfl
@[simp] theorem State.setDinLen_dec_doutLen : (s.setDinLen n).dec.doutLen = s.dec.doutLen := rfl
@[simp] theorem State.setDinLen_dec_br : (s.setDinLen n).dec.br = s.dec.br := rfl
@[simp] theorem State.setDinLen_dec_ct : (s.setDinLen n).dec.ct = s.dec.ct := rfl
@[simp] theorem State.setDinLen_dec_din : (s.setDinLen n).dec.din = s.dec.din := rfl
@[simp] theorem State.setDinLen_dec_dout : (s.setDinLen n).dec.dout = s.dec.dout := rfl
@[simp] theorem State.setDinLen_dec_resps : (s.setDinLen n).dec.resps = s.dec.resps := rfl
@[simp] theorem State.setDinLen_dec_tableDraws : (s.setDinLen n).dec.tableDraws = s.dec.tableDraws := rfl
@[simp] theorem State.setDinLen_enc : (s.setDinLen n).enc = s.enc := rfl
@[simp] theorem State.setDinLen_inbox : (s.setDinLen n).inbox = s.inbox := rfl
@[simp] theorem State.setDinLen_params : (s.setDinLen n).params = s.params := rfl
end

section
variable (s : State) (n : BitVec 32)
@[simp] theorem State.setSrclen_dec_lasterr : (s.setSrclen n).dec.lasterr = s.dec.lasterr := rfl
@[simp] theorem State.setSrclen_dec_dinLen : (s.setSrclen n).dec.dinLen = s.dec.dinLen := rfl
@[simp] theorem State.setSrclen_dec_srclen : (s.setSrclen n).dec.srclen = n := rfl
@[simp] theorem State.setSrclen_dec_payOff : (s.setSrclen n).dec.payOff = s.dec.payOff := rfl
@[simp] theorem State.setSrclen_dec_doutLen : (s.setSrclen n).dec.doutLen = s.dec.doutLen := rfl
@[simp] theorem State.setSrclen_dec_br : (s.setSrclen n).dec.br = s.dec.br := rfl
@[simp] theorem State.setSrclen_dec_ct : (s.setSrclen n).dec.ct = s.dec.ct := rfl
@[simp] theorem State.setSrclen_dec_din : (s.setSrclen n).dec.din = s.dec.din := rfl
@[simp] theorem State.setSrclen_dec_dout : (s.setSrclen n).dec.dout = s.dec.dout := rfl
@[simp] theorem State.setSrclen_dec_resps : (s.setSrclen n).dec.resps = s.dec.resps := rfl
@[simp] theorem State.setSrclen_dec_tableDraws : (s.setSrclen n).dec.tableDraws = s.dec.tableDraws := rfl
@[simp] theorem State.setSrclen_enc : (s.setSrclen n).enc = s.enc := rfl
@[simp] theorem State.setSrclen_inbox : (s.setSrclen n).inbox = s.inbox := rfl
@[simp] theorem State.setSrclen_params : (s.setSrclen n).params = s.params := rfl
end

section
variable (s : State) (n : BitVec 40)
@[simp] theorem State.setPayOff_dec_lasterr : (s.setPayOff n).dec.lasterr = s.dec.lasterr := rfl
@[simp] theorem State.setPayOff_dec_dinLen : (s.setPayOff n).dec.dinLen = s.dec.dinLen := rfl
@[simp] theorem State.setPayOff_dec_srclen : (s.setPayOff n).dec.srclen = s.dec.srclen := rfl
@[simp] theorem State.setPayOff_dec_payOff : (s.setPayOff n).dec.payOff = n := rfl
@[simp] theorem State.setPayOff_dec_doutLen : (s.setPayOff n).dec.doutLen = s.dec.doutLen := rfl
@[simp] theorem State.setPayOff_dec_br : (s.setPayOff n).dec.br = s.dec.br := rfl
@[simp] theorem State.setPayOff_dec_ct : (s.setPayOff n).dec.ct = s.dec.ct := rfl
@[simp] theorem State.setPayOff_dec_din : (s.setPayOff n).dec.din = s.dec.din := rfl
@[simp] theorem State.setPayOff_dec_dout : (s.setPayOff n).dec.dout = s.dec.dout := rfl
@[simp] theorem State.setPayOff_dec_resps : (s.setPayOff n).dec.resps = s.dec.resps := rfl
@[simp] theorem State.setPayOff_dec_tableDraws : (s.setPayOff n).dec.tableDraws = s.dec.tableDraws := rfl
@[simp] theorem State.setPayOff_enc : (s.setPayOff n).enc = s.enc := rfl
@[simp] theorem State.setPayOff_inbox : (s.setPayOff n).inbox = s.inbox := rfl
@[simp] theorem State.setPayOff_params : (s.setPayOff n).params = s.params := rfl
end

section
variable (s : State) (c : Symbol) (w : Weight)
@[simp] theorem State.setFreq_enc_lasterr : (s.setFreq c w).enc.lasterr = s.enc.lasterr := rfl
@[simp] theorem State.setFreq_enc_srcLen : (s.setFreq c w).enc.srcLen = s.enc.srcLen := rfl
@[simp] theorem State.setFreq_enc_eoutLen : (s.setFreq c w).enc.eoutLen = s.enc.eoutLen := rfl
@[simp] theorem State.setFreq_enc_bp : (s.setFreq c w).enc.bp = s.enc.bp := rfl
@[simp] theorem State.setFreq_enc_freq : (s.setFreq c w).enc.freq = s.enc.freq.put c (w % 2 ^ s.params.weightW) := rfl
@[simp] theorem State.setFreq_enc_ct : (s.setFreq c w).enc.ct = s.enc.ct := rfl
@[simp] theorem State.setFreq_enc_src : (s.setFreq c w).enc.src = s.enc.src := rfl
@[simp] theorem State.setFreq_enc_eout : (s.setFreq c w).enc.eout = s.enc.eout := rfl
@[simp] theorem State.setFreq_enc_resps : (s.setFreq c w).enc.resps = s.enc.resps := rfl
@[simp] theorem State.setFreq_enc_tableDraws : (s.setFreq c w).enc.tableDraws = s.enc.tableDraws := rfl
@[simp] theorem State.setFreq_dec : (s.setFreq c w).dec = s.dec := rfl
@[simp] theorem State.setFreq_inbox : (s.setFreq c w).inbox = s.inbox := rfl
@[simp] theorem State.setFreq_params : (s.setFreq c w).params = s.params := rfl
end

section
variable (s : State) (c : Symbol) (e : Entry)
@[simp] theorem State.setEntry_enc_enc_lasterr : (s.setEntry .enc c e).enc.lasterr = s.enc.lasterr := rfl
@[simp] theorem State.setEntry_enc_enc_srcLen : (s.setEntry .enc c e).enc.srcLen = s.enc.srcLen := rfl
@[simp] theorem State.setEntry_enc_enc_eoutLen : (s.setEntry .enc c e).enc.eoutLen = s.enc.eoutLen := rfl
@[simp] theorem State.setEntry_enc_enc_bp : (s.setEntry .enc c e).enc.bp = s.enc.bp := rfl
@[simp] theorem State.setEntry_enc_enc_freq : (s.setEntry .enc c e).enc.freq = s.enc.freq := rfl
@[simp] theorem State.setEntry_enc_enc_ct : (s.setEntry .enc c e).enc.ct = s.enc.ct.put c e := rfl
@[simp] theorem State.setEntry_enc_enc_src : (s.setEntry .enc c e).enc.src = s.enc.src := rfl
@[simp] theorem State.setEntry_enc_enc_eout : (s.setEntry .enc c e).enc.eout = s.enc.eout := rfl
@[simp] theorem State.setEntry_enc_enc_resps : (s.setEntry .enc c e).enc.resps = s.enc.resps := rfl
@[simp] theorem State.setEntry_enc_enc_tableDraws : (s.setEntry .enc c e).enc.tableDraws = s.enc.tableDraws := rfl
@[simp] theorem State.setEntry_enc_dec : (s.setEntry .enc c e).dec = s.dec := rfl
@[simp] theorem State.setEntry_enc_inbox : (s.setEntry .enc c e).inbox = s.inbox := rfl
@[simp] theorem State.setEntry_enc_params : (s.setEntry .enc c e).params = s.params := rfl
end

section
variable (s : State) (c : Symbol) (e : Entry)
@[simp] theorem State.setEntry_dec_dec_lasterr : (s.setEntry .dec c e).dec.lasterr = s.dec.lasterr := rfl
@[simp] theorem State.setEntry_dec_dec_dinLen : (s.setEntry .dec c e).dec.dinLen = s.dec.dinLen := rfl
@[simp] theorem State.setEntry_dec_dec_srclen : (s.setEntry .dec c e).dec.srclen = s.dec.srclen := rfl
@[simp] theorem State.setEntry_dec_dec_payOff : (s.setEntry .dec c e).dec.payOff = s.dec.payOff := rfl
@[simp] theorem State.setEntry_dec_dec_doutLen : (s.setEntry .dec c e).dec.doutLen = s.dec.doutLen := rfl
@[simp] theorem State.setEntry_dec_dec_br : (s.setEntry .dec c e).dec.br = s.dec.br := rfl
@[simp] theorem State.setEntry_dec_dec_ct : (s.setEntry .dec c e).dec.ct = s.dec.ct.put c e := rfl
@[simp] theorem State.setEntry_dec_dec_din : (s.setEntry .dec c e).dec.din = s.dec.din := rfl
@[simp] theorem State.setEntry_dec_dec_dout : (s.setEntry .dec c e).dec.dout = s.dec.dout := rfl
@[simp] theorem State.setEntry_dec_dec_resps : (s.setEntry .dec c e).dec.resps = s.dec.resps := rfl
@[simp] theorem State.setEntry_dec_dec_tableDraws : (s.setEntry .dec c e).dec.tableDraws = s.dec.tableDraws := rfl
@[simp] theorem State.setEntry_dec_enc : (s.setEntry .dec c e).enc = s.enc := rfl
@[simp] theorem State.setEntry_dec_inbox : (s.setEntry .dec c e).inbox = s.inbox := rfl
@[simp] theorem State.setEntry_dec_params : (s.setEntry .dec c e).params = s.params := rfl
end

section
variable (s : State) (st : Status) (r : BitVec 64)
@[simp] theorem State.complete_enc_enc_lasterr : (s.complete .enc st r).enc.lasterr = st.code := rfl
@[simp] theorem State.complete_enc_enc_srcLen : (s.complete .enc st r).enc.srcLen = s.enc.srcLen := rfl
@[simp] theorem State.complete_enc_enc_eoutLen : (s.complete .enc st r).enc.eoutLen = s.enc.eoutLen := rfl
@[simp] theorem State.complete_enc_enc_bp : (s.complete .enc st r).enc.bp = s.enc.bp := rfl
@[simp] theorem State.complete_enc_enc_freq : (s.complete .enc st r).enc.freq = s.enc.freq := rfl
@[simp] theorem State.complete_enc_enc_ct : (s.complete .enc st r).enc.ct = s.enc.ct := rfl
@[simp] theorem State.complete_enc_enc_src : (s.complete .enc st r).enc.src = s.enc.src := rfl
@[simp] theorem State.complete_enc_enc_eout : (s.complete .enc st r).enc.eout = s.enc.eout := rfl
@[simp] theorem State.complete_enc_enc_resps : (s.complete .enc st r).enc.resps = s.enc.resps ++ [response st r] := rfl
@[simp] theorem State.complete_enc_enc_tableDraws : (s.complete .enc st r).enc.tableDraws = s.enc.tableDraws := rfl
@[simp] theorem State.complete_enc_dec : (s.complete .enc st r).dec = s.dec := rfl
@[simp] theorem State.complete_enc_inbox : (s.complete .enc st r).inbox = s.inbox := rfl
@[simp] theorem State.complete_enc_params : (s.complete .enc st r).params = s.params := rfl
end

section
variable (s : State) (st : Status) (r : BitVec 64)
@[simp] theorem State.complete_dec_dec_lasterr : (s.complete .dec st r).dec.lasterr = st.code := rfl
@[simp] theorem State.complete_dec_dec_dinLen : (s.complete .dec st r).dec.dinLen = s.dec.dinLen := rfl
@[simp] theorem State.complete_dec_dec_srclen : (s.complete .dec st r).dec.srclen = s.dec.srclen := rfl
@[simp] theorem State.complete_dec_dec_payOff : (s.complete .dec st r).dec.payOff = s.dec.payOff := rfl
@[simp] theorem State.complete_dec_dec_doutLen : (s.complete .dec st r).dec.doutLen = s.dec.doutLen := rfl
@[simp] theorem State.complete_dec_dec_br : (s.complete .dec st r).dec.br = s.dec.br := rfl
@[simp] theorem State.complete_dec_dec_ct : (s.complete .dec st r).dec.ct = s.dec.ct := rfl
@[simp] theorem State.complete_dec_dec_din : (s.complete .dec st r).dec.din = s.dec.din := rfl
@[simp] theorem State.complete_dec_dec_dout : (s.complete .dec st r).dec.dout = s.dec.dout := rfl
@[simp] theorem State.complete_dec_dec_resps : (s.complete .dec st r).dec.resps = s.dec.resps ++ [response st r] := rfl
@[simp] theorem State.complete_dec_dec_tableDraws : (s.complete .dec st r).dec.tableDraws = s.dec.tableDraws := rfl
@[simp] theorem State.complete_dec_enc : (s.complete .dec st r).enc = s.enc := rfl
@[simp] theorem State.complete_dec_inbox : (s.complete .dec st r).inbox = s.inbox := rfl
@[simp] theorem State.complete_dec_params : (s.complete .dec st r).params = s.params := rfl
end

end Sys2Proof.Machine
end

