-- ==== Sys2Proof/Laws/Exec.lean ====
section
/-! SUPPORT. What each meaning can answer, once: one inversion lemma per command. Every command that answers a next state
either failed, changing only LASTERR and the responses, or succeeded with the writes its rule lists. -/

namespace Sys2Proof.Machine

/-- The test of a capacity decides `Within` (00_scope.md R6). -/
theorem fits_iff {cap : Option Nat} {n : Nat} : fits cap n = true ↔ Within cap n := by
  cases cap with
  | none => exact ⟨fun _ _ h => (Option.some_ne_none _ h.symm).elim, fun _ => rfl⟩
  | some c =>
    rw [fits_some, decide_eq_true_eq]
    exact ⟨fun h _ hc => Option.some.inj hc ▸ h, fun h => h c rfl⟩

theorem not_fits_iff {cap : Option Nat} {n : Nat} : fits cap n = false ↔ ¬ Within cap n := by
  rw [← fits_iff, Bool.not_eq_true]

variable {s t : State}

theorem execBuild_cases (h : execBuild s = .next t) :
    (∃ st, buildTable (Table.absent .enc s.enc.tableDraws) s.enc.freq = .error st ∧ t = s.complete .enc st 0#64) ∨
    (∃ T, buildTable (Table.absent .enc s.enc.tableDraws) s.enc.freq = .ok T ∧
      t = (s.setEncTable T).complete .enc .ok 0#64) := by
  unfold execBuild at h
  split at h <;> cases h
  · exact .inl ⟨_, ‹_›, rfl⟩
  · exact .inr ⟨_, ‹_›, rfl⟩

theorem execBpclr_eq (s : State) : execBpclr s = .next ((s.setBp []).complete .enc .ok 0#64) := rfl

theorem execAppend_cases {v : BitVec 64} {n : Nat} (h : execAppend v n s = .next t) :
    (bitLengthOk n = false ∧ t = s.complete .enc .invalidBitLength 0#64) ∨
    (bitLengthOk n = true ∧ t = (s.setBp (s.enc.bp ++ bitsMsb v.toNat n)).complete .enc .ok 0#64) := by
  unfold execAppend at h
  split at h <;> cases h
  · exact .inr ⟨‹_›, rfl⟩
  · exact .inl ⟨Bool.eq_false_iff.mpr ‹_›, rfl⟩

theorem execTobytes_cases (h : execTobytes s = .next t) :
    fits s.params.eoutCap (pack s.enc.bp).length = true ∧
    t = (s.setEout (pack s.enc.bp)).complete .enc .ok 0#64 := deliverEout_next h

theorem execBrload_cases (h : execBrload s = .next t) :
    (0 < s.dec.dinLen.toNat → fits s.params.dinCap s.dec.dinLen.toNat = true) ∧
    t = (s.setReader s.input 0).complete .dec .ok 0#64 := by
  obtain ⟨hf, h⟩ := withInput_next h
  cases h
  exact ⟨hf, rfl⟩

theorem execRead_cases {n : Nat} (h : execRead n s = .next t) :
    (bitLengthOk n = false ∧ t = s.complete .dec .invalidBitLength 0#64) ∨
    (bitLengthOk n = true ∧ s.dec.br.remaining < n ∧ t = s.complete .dec .outOfBits 0#64) ∨
    (bitLengthOk n = true ∧ n ≤ s.dec.br.remaining ∧
      t = (s.setReader s.dec.br.buf (s.dec.br.cursor + n)).complete .dec .ok
        (BitVec.ofNat 64 (valMsb (s.dec.br.next n)))) := by
  unfold execRead at h
  cases hn : bitLengthOk n
  · rw [hn] at h
    cases h
    exact .inl ⟨rfl, rfl⟩
  · simp only [hn, Bool.not_true, Bool.false_eq_true, if_false] at h
    split at h <;> cases h
    · exact .inr (.inl ⟨rfl, ‹_›, rfl⟩)
    · exact .inr (.inr ⟨rfl, Nat.not_lt.mp ‹_›, rfl⟩)

theorem execRembits_eq (s : State) :
    execRembits s = .next (s.complete .dec .ok (BitVec.ofNat 64 s.dec.br.remaining)) := rfl

theorem execSerialize_cases {n : Nat} (h : execSerialize n s = .next t) :
    (∃ st, header s.enc.ct n = .error st ∧ t = s.complete .enc st 0#64) ∨
    (∃ b, header s.enc.ct n = .ok b ∧ fits s.params.eoutCap b.length = true ∧
      t = (s.setEout b).complete .enc .ok 0#64) := by
  unfold execSerialize at h
  split at h
  · cases h; exact .inl ⟨_, ‹_›, rfl⟩
  · exact .inr ⟨_, ‹_›, deliverEout_next h⟩

theorem execDeserialize_cases (h : execDeserialize s = .next t) :
    (0 < s.dec.dinLen.toNat → fits s.params.dinCap s.dec.dinLen.toNat = true) ∧
    ((∃ st, parseHeader (Table.absent .dec s.dec.tableDraws) s.input = .error st ∧
      t = s.complete .dec st 0#64) ∨
    (∃ T n pos, parseHeader (Table.absent .dec s.dec.tableDraws) s.input = .ok (T, n, pos) ∧
      t = (s.setHeader T n pos).complete .dec .ok 0#64)) := by
  obtain ⟨hf, h⟩ := withInput_next h
  refine ⟨hf, ?_⟩
  split at h <;> cases h
  · exact .inl ⟨_, ‹_›, rfl⟩
  · exact .inr ⟨_, _, _, ‹_›, rfl⟩

theorem execEncode_cases (h : execEncode s = .next t) :
    fits s.params.srcCap s.enc.srcLen.toNat = true ∧
    ((∃ st, encodeBits s.enc.ct s.source = .error st ∧ t = s.complete .enc st 0#64) ∨
    (∃ q, encodeBits s.enc.ct s.source = .ok q ∧ fits s.params.eoutCap (pack q).length = true ∧
      t = (s.setEout (pack q)).complete .enc .ok 0#64)) := by
  obtain ⟨hf, h⟩ := withSource_next h
  refine ⟨hf, ?_⟩
  split at h
  · cases h; exact .inl ⟨_, ‹_›, rfl⟩
  · exact .inr ⟨_, ‹_›, deliverEout_next h⟩

theorem execEncfile_cases (h : execEncfile s = .next t) :
    fits s.params.srcCap s.enc.srcLen.toNat = true ∧
    ((∃ st, header s.enc.ct s.enc.srcLen.toNat = .error st ∧ t = s.complete .enc st 0#64) ∨
    (∃ b st, header s.enc.ct s.enc.srcLen.toNat = .ok b ∧ encodeBits s.enc.ct s.source = .error st ∧
      t = s.complete .enc st 0#64) ∨
    (∃ b q, header s.enc.ct s.enc.srcLen.toNat = .ok b ∧ encodeBits s.enc.ct s.source = .ok q ∧
      fits s.params.eoutCap (b ++ pack q).length = true ∧
      t = (s.setEout (b ++ pack q)).complete .enc .ok 0#64)) := by
  obtain ⟨hf, h⟩ := withSource_next h
  refine ⟨hf, ?_⟩
  split at h
  · cases h; exact .inl ⟨_, ‹_›, rfl⟩
  · split at h
    · cases h; exact .inr (.inl ⟨_, _, ‹_›, ‹_›, rfl⟩)
    · exact .inr (.inr ⟨_, _, ‹_›, ‹_›, deliverEout_next h⟩)

theorem execDecode_cases (h : execDecode s = .next t) :
    (s.dec.payOff.toNat < s.dec.dinLen.toNat → fits s.params.dinCap s.dec.dinLen.toNat = true) ∧
    s.dec.ct.prefixFree = true ∧
    ((∃ st, decodeWalk s.dec.ct s.dec.srclen.toNat (s.inputFrom s.dec.payOff.toNat) = .error st ∧
      t = s.complete .dec st 0#64) ∨
    (∃ out k, decodeWalk s.dec.ct s.dec.srclen.toNat (s.inputFrom s.dec.payOff.toNat) = .ok (out, k) ∧
      fits s.params.doutCap out.length = true ∧ t = (s.setDout out).complete .dec .ok 0#64)) := by
  obtain ⟨hf, h⟩ := withInput_next h
  refine ⟨hf, ?_⟩
  cases hp : s.dec.ct.prefixFree
  · rw [hp] at h; cases h
  · simp only [hp, Bool.not_true, Bool.false_eq_true, if_false] at h
    refine ⟨rfl, ?_⟩
    split at h
    · cases h; exact .inl ⟨_, ‹_›, rfl⟩
    · exact .inr ⟨_, _, ‹_›, deliverDout_next h⟩

theorem execDecfile_cases (h : execDecfile s = .next t) :
    (0 < s.dec.dinLen.toNat → fits s.params.dinCap s.dec.dinLen.toNat = true) ∧
    ((∃ st, parseHeader (Table.absent .dec s.dec.tableDraws) s.input = .error st ∧
      t = s.complete .dec st 0#64) ∨
    (∃ T n pos, parseHeader (Table.absent .dec s.dec.tableDraws) s.input = .ok (T, n, pos) ∧
      T.prefixFree = true ∧
      ((∃ st, decodeWalk T n (s.inputFrom pos) = .error st ∧ t = s.complete .dec st 0#64) ∨
      (∃ out k, decodeWalk T n (s.inputFrom pos) = .ok (out, k) ∧ fits s.params.doutCap out.length = true ∧
        t = ((s.setHeader T n pos).setDout out).complete .dec .ok 0#64)))) := by
  obtain ⟨hf, h⟩ := withInput_next h
  refine ⟨hf, ?_⟩
  split at h
  · cases h; exact .inl ⟨_, ‹_›, rfl⟩
  · rename_i T n pos hparse
    cases hp : T.prefixFree
    · rw [hp] at h; cases h
    · simp only [hp, Bool.not_true, Bool.false_eq_true, if_false] at h
      refine .inr ⟨T, n, pos, hparse, hp, ?_⟩
      split at h
      · cases h; exact .inl ⟨_, ‹_›, rfl⟩
      · exact .inr ⟨_, _, ‹_›, deliverDout_next h⟩

end Sys2Proof.Machine
end

