-- ==== Sys2Proof/Laws/Huffman.lean ====
section
/-! SUPPORT. The symbols that have a weight, and what one turn of the merge loop does (40_code_table_builder.md R90). -/

namespace Sys2Proof.Machine

/-- The symbols with a weight as a choice among all symbols. -/
theorem Freq.alphabet_eq (F : Freq) : F.alphabet = allSymbols.filter fun s => decide (F.get s ≠ 0) := by
  rw [Freq.alphabet, indexed_eq, List.filter_map, List.map_map]
  exact (List.map_congr_left fun _ _ => rfl).trans (List.map_id _)

theorem Freq.mem_alphabet {F : Freq} {s : Symbol} : s ∈ F.alphabet ↔ F.get s ≠ 0 := by
  simp [Freq.alphabet_eq, mem_allSymbols]

theorem Freq.alphabet_nodup (F : Freq) : F.alphabet.Nodup := F.alphabet_eq ▸ allSymbols_nodup.filter _

theorem Freq.alphabet_length_le (F : Freq) : F.alphabet.length ≤ 256 :=
  F.alphabet_eq ▸ allSymbols_length ▸ List.length_filter_le _ _

/-! ### The merge loop -/

/-- Taking out the least leaves the others. -/
theorem extractMin_perm (x : Pending) (ys : List Pending) :
    ((extractMin x ys).1 :: (extractMin x ys).2).Perm (x :: ys) := by
  induction ys generalizing x with
  | nil => exact List.Perm.refl _
  | cons y ys ih =>
    unfold extractMin
    split
    · exact (List.Perm.swap _ _ _).trans ((ih y).cons x)
    · exact ((List.Perm.swap _ _ _).trans ((ih x).cons y)).trans (List.Perm.swap _ _ _)

theorem before_iff {x y : Pending} :
    x.before y = true ↔ x.weight < y.weight ∨ x.weight = y.weight ∧ x.seq < y.seq := by
  simp [Pending.before]

theorem not_before_trans {x y z : Pending} (hxy : y.before x = false) (hyz : z.before y = false) :
    z.before x = false := by
  rw [Bool.eq_false_iff, ne_eq, before_iff] at *
  omega

/-- Nothing comes before the node that is taken out. -/
theorem extractMin_least (x : Pending) (ys : List Pending) :
    ∀ z ∈ x :: ys, z.before (extractMin x ys).1 = false := by
  have refl : ∀ z : Pending, z.before z = false := fun z => by
    rw [Bool.eq_false_iff, ne_eq, before_iff]; omega
  induction ys generalizing x with
  | nil => intro z hz; rw [List.mem_singleton.mp hz]; exact refl x
  | cons y ys ih =>
    unfold extractMin
    split
    · rename_i hyx
      have hxy : x.before y = false := by
        rw [before_iff] at hyx
        rw [Bool.eq_false_iff, ne_eq, before_iff]
        omega
      intro z hz
      rcases List.mem_cons.mp hz with rfl | hz
      · exact not_before_trans (ih y y (List.mem_cons_self ..)) hxy
      · exact ih y z hz
    · rename_i hyx
      intro z hz
      rcases List.mem_cons.mp hz with rfl | hz
      · exact ih z z (List.mem_cons_self ..)
      · rcases List.mem_cons.mp hz with rfl | hz
        · exact not_before_trans (ih x x (List.mem_cons_self ..)) (Bool.eq_false_iff.mpr hyx)
        · exact ih x z (List.mem_cons_of_mem _ hz)

/-- What one turn of the merge loop does to two pending nodes or more: it takes out `x`, which nothing comes before, then
`y`, which nothing left comes before, and adds their parent. -/
theorem mergeOnce_cases (k : Nat) (p q : Pending) (ps : List Pending) :
    ∃ x y rest, mergeOnce k p (q :: ps) = (mergePair k x y, rest) ∧ (x :: y :: rest).Perm (p :: q :: ps) ∧
      (∀ z ∈ y :: rest, z.before x = false) ∧ ∀ z ∈ rest, z.before y = false := by
  have h1 := extractMin_perm p (q :: ps)
  have l1 := extractMin_least p (q :: ps)
  have hlen := h1.length_eq
  unfold mergeOnce
  split
  · rename_i x he
    rw [he] at hlen
    simp at hlen
  · rename_i x q' qs he
    rw [he] at h1 l1
    have h2 := extractMin_perm q' qs
    have l2 := extractMin_least q' qs
    have hp : (x :: (extractMin q' qs).1 :: (extractMin q' qs).2).Perm (p :: q :: ps) := (h2.cons x).trans h1
    exact ⟨x, (extractMin q' qs).1, (extractMin q' qs).2, rfl, hp,
      fun z hz => l1 z (hp.subset (List.mem_cons_of_mem _ hz)),
      fun z hz => l2 z (h2.subset (List.mem_cons_of_mem _ hz))⟩

end Sys2Proof.Machine
end

