-- ==== Sys2Proof/Laws/PerInstr.lean ====
section
/-! SUPPORT. Claims about every command as syntax, one lemma per constructor: the three fields of the command word written
for it (30_encoding.md R75, R77). -/

namespace Sys2Proof.Laws.CmdFields

open Sys2Proof

/-- The word written for a command has the command's opcode in 7:0 and its operand fields in 15:8 and 79:16. -/
def Statement (i : Instr) : Prop :=
  Cmd.op (encode i) = i.opcode ∧ Cmd.a (encode i) = i.fieldA ∧ Cmd.v (encode i) = i.fieldV

theorem fields (i : Instr) : Statement i := ⟨op_packCmd _ _ _, a_packCmd _ _ _, v_packCmd _ _ _⟩

theorem build : Statement .build := fields _
theorem bpclr : Statement .bpclr := fields _
theorem append (value : BitVec 64) (bitLength : Nat) : Statement (.append value bitLength) := fields _
theorem tobytes : Statement .tobytes := fields _
theorem brload : Statement .brload := fields _
theorem read (bitLength : Nat) : Statement (.read bitLength) := fields _
theorem rembits : Statement .rembits := fields _
theorem serialize (sourceLength : Nat) : Statement (.serialize sourceLength) := fields _
theorem deserialize : Statement .deserialize := fields _
theorem encode : Statement .encode := fields _
theorem encfile : Statement .encfile := fields _
theorem decode : Statement .decode := fields _
theorem decfile : Statement .decfile := fields _

end Sys2Proof.Laws.CmdFields
end

