-- ==== Sys2Proof/Tests/Slice0.lean ====
section
/-! SUPPORT. Tests: what is not well formed, command words of the spec, single commands on small states with results from
95_test_vectors.md, and for each statement with hypotheses a state that meets them. -/

namespace Sys2Proof.Tests

/-! One declaration after the other: checking many at once would take a thread each. -/
set_option Elab.async false

open Sys2Proof Sys2Proof.Machine

/-! ### WellFormed -/

theorem test_append_wellFormed : Instr.wellFormed (.append 0#64 256) = false ∧ Instr.wellFormed (.append 0#64 255) = true := by
  decide
theorem test_read_wellFormed : Instr.wellFormed (.read 256) = false ∧ Instr.wellFormed (.read 255) = true := by decide
theorem test_serialize_wellFormed :
    Instr.wellFormed (.serialize (2 ^ 32)) = false ∧ Instr.wellFormed (.serialize (2 ^ 32 - 1)) = true := by decide

/-! ### Command words: the fields `v`, `a`, `op` written out (30_encoding.md R75, R76; 95_test_vectors.md V1 to V8) -/

theorem test_decode_build : decode .enc (0#64 ++ 0#8 ++ 0b00000001#8) = .ok .build := by decide
theorem test_decode_bpclr : decode .enc (0#64 ++ 0#8 ++ 0b00010000#8) = .ok .bpclr := by decide
theorem test_decode_append : decode .enc (5#64 ++ 3#8 ++ 0b00010001#8) = .ok (.append 5#64 3) := by decide
theorem test_decode_tobytes : decode .enc (0#64 ++ 0#8 ++ 0b00010010#8) = .ok .tobytes := by decide
theorem test_decode_brload : decode .dec (0#64 ++ 0#8 ++ 0b00100000#8) = .ok .brload := by decide
theorem test_decode_read : decode .dec (0#64 ++ 64#8 ++ 0b00100001#8) = .ok (.read 64) := by decide
theorem test_decode_rembits : decode .dec (0#64 ++ 0#8 ++ 0b00100010#8) = .ok .rembits := by decide
theorem test_decode_serialize :
    decode .enc (0xFFFFFFFF00000006#64 ++ 0#8 ++ 0b00110000#8) = .ok (.serialize 6) := by decide
theorem test_decode_deserialize : decode .dec (0#64 ++ 0#8 ++ 0b00110001#8) = .ok .deserialize := by decide
theorem test_decode_encode : decode .enc (0xDEADBEEF00000000#64 ++ 0xAB#8 ++ 0b01000000#8) = .ok .encode := by decide
theorem test_decode_encfile : decode .enc (0#64 ++ 0#8 ++ 0b01000001#8) = .ok .encfile := by decide
theorem test_decode_decode : decode .dec (0#64 ++ 0#8 ++ 0b01010000#8) = .ok .decode := by decide
theorem test_decode_decfile : decode .dec (0#64 ++ 0#8 ++ 0b01010001#8) = .ok .decfile := by decide
theorem test_decode_illegal : decode .dec 0x02#80 = .error .undefinedOpcode ∧ decode .enc 0x00#80 = .error .undefinedOpcode ∧
    decode .enc 0xFF#80 = .error .undefinedOpcode ∧ decode .dec 0x01#80 = .error .otherUnit ∧
    decode .enc 0x0821#80 = .error .otherUnit := by decide
theorem test_table_word : decodeTableWord 80 0x0821 = some (.read 8) ∧ decodeTableWord 8 0x11 = some (.append 0#64 0) ∧
    decodeTableWord 80 0x03 = none := by decide

/-! ### States for the tests -/

def bytes (ns : List Nat) : List Byte := ns.map (BitVec.ofNat 8)

/-- A buffer that holds bytes from address 0 on. -/
def held (bs : List Byte) : Memory := (Memory.unwritten 0).replace bs

def tableOf (es : List (Symbol × Nat × Nat)) : Table :=
  es.foldl (fun T e => T.put e.1 { len := BitVec.ofNat 8 e.2.1, word := BitVec.ofNat 255 e.2.2 }) Table.reset

def freqOf (ws : List (Symbol × Nat)) : Freq :=
  ws.foldl (fun F w => F.put w.1 w.2) (Vector.replicate 256 0)

/-- Unit ENC with weights, a table, a source and packed bits; DEC at reset. -/
def encWith (F : Freq) (T : Table) (x : List Symbol) (q : List Bool) : State :=
  { State.reset with
    enc := { State.reset.enc with freq := F, ct := T, src := held x, srcLen := BitVec.ofNat 32 x.length, bp := q } }

/-- Unit DEC with a table, an input, a symbol count, a payload offset and a cursor; ENC at reset. -/
def decWith (T : Table) (din : List Byte) (n off cursor : Nat) : State :=
  { State.reset with
    dec := { State.reset.dec with ct := T, din := held din, dinLen := BitVec.ofNat 40 din.length
                                  srclen := BitVec.ofNat 32 n, payOff := BitVec.ofNat 40 off
                                  br := { buf := din, cursor := cursor } } }

def given (acts : List HostAction) (s : State) : State := { s with inbox := acts }

/-! Example A of 95_test_vectors.md. -/
def freqA : Freq := freqOf [(0x61#8, 5), (0x62#8, 2), (0x63#8, 1), (0x64#8, 1)]
def tableA : Table := tableOf [(0x61#8, 1, 0b1), (0x62#8, 2, 0b00), (0x63#8, 3, 0b010), (0x64#8, 3, 0b011)]
def sourceA : List Byte := bytes [0x61, 0x62, 0x61, 0x63, 0x61, 0x64]
def headerA : List Byte :=
  bytes [0x13, 0, 3, 6, 0, 0, 0, 0x61, 1, 1, 0x62, 2, 0, 0x63, 3, 2, 0x64, 3, 3]
def fileA : List Byte := headerA ++ bytes [0x95, 0x60]
def encA : State := encWith freqA tableA sourceA [true, false, true]
def decA : State := decWith tableA fileA 6 19 12

/-- Both units loaded with example A. -/
def fullA : State := { encA with dec := decA.dec }

/-- Both units loaded with example A in a part whose buffers hold exactly what it needs, less `k` bytes each, and whose
weights have three bits. -/
def smallA (k : Nat) : State :=
  fullA.withParams { Params.default with weightW := 3, srcCap := some (6 - k), eoutCap := some (21 - k)
                                         dinCap := some (21 - k), doutCap := some (6 - k) }

/-- A table whose two codewords are equal (95_test_vectors.md V43 (a)). -/
def tableTwin : Table := tableOf [(0x42#8, 1, 1), (0x43#8, 1, 1)]
def fileTwin : List Byte := bytes [0x0F, 0, 2, 1, 0, 0, 0, 0x41, 0, 0x42, 1, 1, 0x43, 1, 1]

/-! ### Reading an outcome -/

def passes (r : Result) (f : State → Bool) : Bool :=
  match r with
  | .next t => f t
  | .fault _ => false
  | .refused _ => false

def refusal (r : Result) : Option Refusal :=
  match r with
  | .next _ => none
  | .fault _ => none
  | .refused q => some q

theorem next_of {r : Result} (P : State → Prop) [DecidablePred P] (h : passes r (fun t => decide (P t)) = true) :
    ∃ t, r = .next t ∧ P t := by
  cases r with
  | next t => exact ⟨t, rfl, of_decide_eq_true h⟩
  | fault q => exact q.rec
  | refused q => cases h

theorem refused_of {r : Result} {q : Refusal} (h : refusal r = some q) : r = .refused q := by
  cases r with
  | next t => cases h
  | fault q => exact q.rec
  | refused q' => cases h; rfl

/-- A claim about every index of an array, by one pass. -/
theorem forall_get {α : Type} {V : Vector α 256} {P : Symbol → α → Prop} [∀ c x, Decidable (P c x)]
    (h : ((indexed V).all fun ce => decide (P ce.1 ce.2)) = true) (c : Symbol) : P c (Vector.get V c.toFin) := by
  rw [indexed_eq, List.all_map, List.all_eq_true] at h
  exact of_decide_eq_true (h c (mem_allSymbols c))

/-- A claim about every index of two arrays, by one pass. -/
theorem forall_get₂ {α : Type} {V W : Vector α 256} {P : α → α → Prop} [∀ x y, Decidable (P x y)]
    (h : (((indexed V).zip (indexed W)).all fun p => decide (P p.1.2 p.2.2)) = true) (c : Symbol) :
    P (Vector.get V c.toFin) (Vector.get W c.toFin) := by
  rw [indexed_eq, indexed_eq, List.zip_map', List.all_map, List.all_eq_true] at h
  exact of_decide_eq_true (h c (mem_allSymbols c))

theorem filled_held (bs : List Byte) : (held bs).FilledTo bs.length := fun a => by
  simp [held, Memory.replace, cellAt_cellsFrom_zero]

theorem input_decWith (T : Table) {din : List Byte} (n off cursor : Nat) (h : din.length < 2 ^ 40) :
    (decWith T din n off cursor).input = din := by
  have hn : (BitVec.ofNat 40 din.length).toNat = din.length := by
    rw [BitVec.toNat_ofNat]; exact Nat.mod_eq_of_lt h
  exact (congrArg (Memory.slice .din (held din) 0) hn).trans (slice_replace .din (Memory.unwritten 0) din)

theorem unbounded_input (T : Table) (din : List Byte) (n off cursor : Nat) : (decWith T din n off cursor).InputFits 0 :=
  fun _ => fits_iff.mp rfl

theorem prefixFree_tableA : tableA.PrefixFree := Table.prefixFree_iff.mp (by decide +kernel)
theorem not_prefixFree_twin : ¬ tableTwin.PrefixFree := fun h =>
  absurd (Table.prefixFree_iff.mpr h) (by decide +kernel)

/-! ### One command, one step (95_test_vectors.md) -/

/-- V10. -/
theorem test_build : passes (exec .build encA) (fun t => decide (t.enc.lasterr = 0#8 ∧
    (t.enc.ct.alphabet.map fun c => (c.toNat, (t.enc.ct.get c).len.toNat, (t.enc.ct.get c).word.toNat)) =
      [(0x61, 1, 1), (0x62, 2, 0), (0x63, 3, 2), (0x64, 3, 3)])) = true := by decide +kernel
/-- R100. -/
theorem test_bpclr : passes (exec .bpclr encA) (fun t => decide (t.enc.bp = [] ∧ t.enc.resps = [0#72])) = true := by
  decide +kernel
/-- V20, V21. -/
theorem test_append : passes (exec (.append 0xF1#64 2) encA) (fun t =>
    decide (t.enc.bp = [true, false, true, false, true])) = true := by decide +kernel
/-- V27. -/
theorem test_append_range : passes (exec (.append 1#64 65) encA) (fun t =>
    decide (t.enc.bp = [true, false, true] ∧ t.enc.resps = [8#72])) = true := by decide +kernel
/-- V23. -/
theorem test_tobytes : passes (exec .tobytes (encWith (freqOf []) tableA [] (bitsMsb 0x1A5 9))) (fun t =>
    decide (t.output = bytes [0xD2, 0x80] ∧ t.enc.bp.length = 9)) = true := by decide +kernel
/-- V28. -/
theorem test_brload : passes (exec .brload decA) (fun t =>
    decide (t.dec.br = { buf := fileA, cursor := 0 })) = true := by decide +kernel
/-- V28, V9. -/
theorem test_read : passes (exec (.read 8) (decWith tableA (bytes [0x95, 0x60]) 0 0 4)) (fun t =>
    decide (t.dec.resps = [0x5600#72] ∧ t.dec.br.cursor = 12)) = true := by decide +kernel
/-- V28, V65. -/
theorem test_read_fails : passes (exec (.read 5) (decWith tableA (bytes [0x95, 0x60]) 0 0 12)) (fun t =>
      decide (t.dec.resps = [6#72] ∧ t.dec.br.cursor = 12)) = true ∧
    passes (exec (.read 70) (decWith tableA (bytes [0x95, 0x60]) 0 0 12)) (fun t =>
      decide (t.dec.resps = [8#72])) = true := by decide +kernel
/-- V9. -/
theorem test_rembits : passes (exec .rembits (decWith tableA (bytes [0x95, 0x60]) 0 0 12)) (fun t =>
    decide (t.dec.resps = [0x400#72])) = true := by decide +kernel
/-- V35. -/
theorem test_serialize : passes (exec (.serialize 6) encA) (fun t => decide (t.output = headerA)) = true := by
  decide +kernel
/-- V37 (a), V38. -/
theorem test_serialize_word : passes (exec (.serialize 4) (encWith freqA
    (tableOf [(0x41#8, 9, 0x1A5), (0x42#8, 1, 0xFE)]) [] [])) (fun t =>
    decide (t.output = bytes [0x0E, 0, 1, 4, 0, 0, 0, 0x41, 9, 0xA5, 1, 0x42, 1, 0])) = true := by decide +kernel
/-- V39 (c). -/
theorem test_deserialize : passes (exec .deserialize (decWith Table.reset (bytes [0x13, 0, 3, 6, 0, 0, 0, 0x64, 3, 3,
    0x63, 3, 2, 0x62, 2, 0, 0x61, 1, 1]) 0 0 0)) (fun t => decide (t.dec.srclen = 6#32 ∧ t.dec.payOff = 19#40 ∧
    t.dec.ct.alphabet.map t.dec.ct.code = tableA.alphabet.map tableA.code)) = true := by decide +kernel
/-- V41, V42 (a). -/
theorem test_deserialize_fails :
    passes (exec .deserialize (decWith tableA (0xFF#8 :: fileA.drop 1) 5 4 0)) (fun t =>
      decide (t.dec.lasterr = 5#8 ∧ t.dec.srclen = 5#32 ∧ t.dec.ct.alphabet.length = 4)) = true ∧
    passes (exec .deserialize (decWith tableA (fileA.set 2 4#8) 5 4 0)) (fun t =>
      decide (t.dec.lasterr = 4#8 ∧ t.dec.payOff = 4#40)) = true := by decide +kernel
/-- V45, V66. -/
theorem test_encode : passes (exec .encode (encWith freqA (tableA.put 0x61#8 { len := 1#8, word := 0x7FFF#255 }) sourceA []))
    (fun t => decide (t.output = bytes [0x95, 0x60] ∧ t.enc.eoutLen = 2#40)) = true := by decide +kernel
/-- V47. -/
theorem test_encode_unknown : passes (exec .encode (encWith freqA tableA (bytes [0x61, 0x65]) []))
    (fun t => decide (t.enc.lasterr = 3#8 ∧ t.enc.eoutLen = 0#40)) = true := by decide +kernel
/-- P1. -/
theorem test_encfile : passes (exec .encfile encA) (fun t => decide (t.output = fileA ∧ t.enc.bp.length = 3)) = true := by
  decide +kernel
/-- V64. -/
theorem test_encfile_empty : passes (exec .encfile (encWith freqA Table.reset (bytes [0x61]) [])) (fun t =>
    decide (t.enc.lasterr = 1#8)) = true := by decide +kernel
/-- V50: pad bits decoded as two further symbols. -/
theorem test_decode : passes (exec .decode (decWith tableA fileA 8 19 0)) (fun t =>
    decide (t.symbols = sourceA ++ bytes [0x62, 0x62] ∧ t.dec.doutLen = 8#32)) = true := by decide +kernel
/-- V50, V53. -/
theorem test_decode_fails : passes (exec .decode (decWith tableA fileA 9 19 0)) (fun t =>
      decide (t.dec.lasterr = 7#8 ∧ t.dec.doutLen = 0#32)) = true ∧
    passes (exec .decode (decWith (tableOf [(0x41#8, 1, 0)]) [0x20#8] 3 0 0)) (fun t =>
      decide (t.dec.lasterr = 7#8)) = true := by decide +kernel
/-- V59 (b). -/
theorem test_decfile : passes (exec .decfile (decWith Table.reset fileA 0 0 0)) (fun t => decide (t.symbols = sourceA ∧
    t.dec.srclen = 6#32 ∧ t.dec.payOff = 19#40 ∧ t.dec.ct.alphabet.length = 4)) = true := by decide +kernel
/-- V59 (a): a good header is not kept. -/
theorem test_decfile_atomic : passes (exec .decfile (decWith Table.reset (fileA.take 20) 0 0 0)) (fun t =>
    decide (t.dec.lasterr = 7#8 ∧ t.dec.ct.alphabet = [] ∧ t.dec.payOff = 0#40)) = true := by decide +kernel
/-- V8. -/
theorem test_illegal : passes (step (State.reset.withFetchWord 80 0x03)) (fun t =>
    decide (t.enc.resps = [9#72] ∧ t.enc.lasterr = 9#8 ∧ t.dec.lasterr = 0#8)) = true := by decide +kernel
/-- The table form of R146 on V50. -/
theorem test_tableWalk : (tableWalk tableA 8 (bytes [0x95, 0x60])).toOption =
    some (sourceA ++ bytes [0x62, 0x62], 15) := by decide +kernel

/-! ### Witnesses: every statement's hypotheses are met -/

theorem witness_DecodeInvertsEncode : Instr.wellFormed (.append 0xFFFFFFFFFFFFFFFF#64 255) = true ∧
    Instr.wellFormed (.read 255) = true ∧ Instr.wellFormed (.serialize (2 ^ 32 - 1)) = true ∧
    Instr.wellFormed .decfile = true := by decide
theorem witness_DecodedCommandsAreWellFormed :
    decode .enc 0xFFFFFFFFFFFFFFFFFF11#80 = .ok (.append 0xFFFFFFFFFFFFFFFF#64 255) := by decide
/-- The four hypotheses of `UnusedCommandBitsAreIgnored`. -/
def agree (w w' : Cmd) : Prop :=
  (∀ j, j < 8 → w.getLsbD j = w'.getLsbD j) ∧
  (w.extractLsb' 0 8 = 0x11#8 ∨ w.extractLsb' 0 8 = 0x21#8 → ∀ j, 8 ≤ j → j < 16 → w.getLsbD j = w'.getLsbD j) ∧
  (w.extractLsb' 0 8 = 0x11#8 → ∀ j, 16 ≤ j → j < 80 → w.getLsbD j = w'.getLsbD j) ∧
  (w.extractLsb' 0 8 = 0x30#8 → ∀ j, 16 ≤ j → j < 48 → w.getLsbD j = w'.getLsbD j)
/-- ENCODE with other `a` and `v`. -/
theorem witness_UnusedCommandBitsAreIgnored_Z : agree 0x40#80 0xDEADBEEF00000000AB40#80 :=
  ⟨by decide, fun h => absurd h (by decide), fun h => absurd h (by decide), fun h => absurd h (by decide)⟩
/-- READ with another `v`. -/
theorem witness_UnusedCommandBitsAreIgnored_L : agree 0xFF21#80 0xFFFFFFFFFFFFFFFFFF21#80 :=
  ⟨by decide, fun _ j h1 h2 => by interval_cases j <;> decide, fun h => absurd h (by decide), fun h => absurd h (by decide)⟩
/-- SERIALIZE with another `a` and another upper half of `v`. -/
theorem witness_UnusedCommandBitsAreIgnored_N : agree 0xFFFFFFFF0030#80 0xFFFFFFFFFFFFFFFFAB30#80 := by
  refine ⟨by decide, fun h => absurd h (by decide), fun h => absurd h (by decide), fun _ j h1 h2 => ?_⟩
  interval_cases j <;> decide
/-- APPEND uses every bit. -/
theorem witness_UnusedCommandBitsAreIgnored_VL : agree 0xFFFFFFFFFFFFFFFFFF11#80 0xFFFFFFFFFFFFFFFFFF11#80 :=
  ⟨fun _ _ => rfl, fun _ _ _ _ => rfl, fun _ _ _ _ => rfl, fun _ _ _ _ => rfl⟩
theorem witness_TableWordsRunAsTheNextStep : decodeTableWord 80 0x0821 = some (.read 8) ∧
    decodeTableWord 8 0x51 = some .decfile := by decide
theorem witness_StepRunsTheDecodedCommand :
    (given [.command .enc 0x50311#80] encA).inbox = .command .enc 0x50311#80 :: [] ∧
    decode .enc 0x50311#80 = .ok (.append 5#64 3) := ⟨rfl, by decide⟩
theorem witness_IllegalCommandRecordsOnlyItself :
    (given [.command .enc 0x00#80] encA).inbox = .command .enc 0x00#80 :: [] ∧
    ((0x00#80).extractLsb' 0 8).toNat ∉ legalOpcodes .enc ∧ ((0xFF#80).extractLsb' 0 8).toNat ∉ legalOpcodes .dec ∧
    ((0x0821#80).extractLsb' 0 8).toNat ∉ legalOpcodes .enc ∧ ((0x41#80).extractLsb' 0 8).toNat ∈ legalOpcodes .enc :=
  ⟨rfl, by decide⟩
theorem witness_IdleMachineDoesNotChange : fullA.inbox = [] := rfl
theorem witness_HostRegisterWritesChangeOneRegister :
    (given [.writeSrcLen 0xFFFFFFFF#32] encA).inbox = .writeSrcLen 0xFFFFFFFF#32 :: [] ∧
    (given [.writeDinLen 0xFFFFFFFFFF#40] encA).inbox = .writeDinLen 0xFFFFFFFFFF#40 :: [] ∧
    (given [.writeSrclen 0xFFFFFFFF#32] encA).inbox = .writeSrclen 0xFFFFFFFF#32 :: [] ∧
    (given [.writePayOff 0xFFFFFFFFFF#40] encA).inbox = .writePayOff 0xFFFFFFFFFF#40 :: [] := ⟨rfl, rfl, rfl, rfl⟩
/-- The widest weight of the default and of a part with weights of three bits, and one bit more. -/
theorem witness_HostTableWrites_width : 0xFFFFFFFF < 2 ^ encA.params.weightW ∧ 7 < 2 ^ (smallA 0).params.weightW ∧
    ¬ 8 < 2 ^ (smallA 0).params.weightW := by decide
theorem witness_HostTableWritesChangeOneEntry :
    (given [.writeFreq 255#8 0xFFFFFFFF] encA).inbox = .writeFreq 255#8 0xFFFFFFFF :: [] ∧
    (given [.writeEntry .enc 0#8 255#8 (BitVec.allOnes 255)] encA).inbox =
      .writeEntry .enc 0#8 255#8 (BitVec.allOnes 255) :: [] ∧
    (given [.writeEntry .dec 255#8 0#8 1#255] encA).inbox = .writeEntry .dec 255#8 0#8 1#255 :: [] := ⟨rfl, rfl, rfl⟩
/-- The last byte of SRC and the first beyond it, and the same in a part whose DIN has 21 bytes. -/
theorem witness_HostByteWritesChangeOneByte :
    (given [.writeSrc (2 ^ 32 - 2) 7#8] encA).inbox = .writeSrc (2 ^ 32 - 2) 7#8 :: [] ∧
    Within encA.params.srcCap (2 ^ 32 - 2 + 1) ∧ ¬ Within encA.params.srcCap (2 ^ 32 - 1 + 1) ∧
    (given [.writeDin 20 7#8] (smallA 0)).inbox = .writeDin 20 7#8 :: [] ∧
    Within (smallA 0).params.dinCap (20 + 1) ∧ ¬ Within (smallA 0).params.dinCap (21 + 1) :=
  ⟨rfl, fits_iff.mp (by decide), not_fits_iff.mp (by decide), rfl, fits_iff.mp (by decide), not_fits_iff.mp (by decide)⟩
theorem witness_CopyMovesTheOutputToTheInput : (∃ t, exec .encfile (smallA 0) = .next t ∧ t.enc.eoutLen = 21#40 ∧
      (given [.copyEoutToDin] t).inbox = .copyEoutToDin :: [] ∧ Within t.params.dinCap t.enc.eoutLen.toNat) ∧
    ¬ Within (smallA 1).params.dinCap (21#40).toNat :=
  ⟨(next_of (fun t => t.enc.eoutLen = 21#40 ∧ fits t.params.dinCap t.enc.eoutLen.toNat = true) (by decide +kernel)).imp
    fun _ h => ⟨h.1, h.2.1, rfl, fits_iff.mp h.2.2⟩, not_fits_iff.mp (by decide)⟩
theorem witness_HostMacrosSetTheBuffers : ((List.replicate (2 ^ 32 - 1) 7#8).length < 2 ^ 32 ∧
      Within encA.params.srcCap (List.replicate (2 ^ 32 - 1) 7#8).length) ∧
    ((List.replicate (2 ^ 40 - 1) 7#8).length < 2 ^ 40 ∧
      Within encA.params.dinCap (List.replicate (2 ^ 40 - 1) 7#8).length) := by
  rw [List.length_replicate, List.length_replicate]
  exact ⟨⟨by decide, fits_iff.mp (by decide)⟩, by decide, fits_iff.mp (by decide)⟩

/-- A state in mid-work: output buffers filled, the reader at its end, an old failure in each unit. -/
def workA (acts : List HostAction) : State :=
  { params := (smallA 0).params
    enc := { fullA.enc with eout := held fileA, eoutLen := 21#40, lasterr := 9#8 }
    dec := { fullA.dec with dout := held sourceA, doutLen := 6#32, lasterr := 7#8, br := { buf := fileA, cursor := 168 } }
    inbox := acts }

theorem within_held {cap : Option Nat} {bs : List Byte} (h : fits cap bs.length = true) (a : Nat)
    (ha : (cellAt a (held bs).cells).isSome = true) : Within cap (a + 1) :=
  fits_iff.mp (fits_mono (Nat.succ_le_of_lt ((filled_held bs a).mp ha)) h)

theorem witness_inv (acts : List HostAction) : (workA acts).Inv where
  weight_lt := forall_get (V := freqA) (P := fun _ w => w < 2 ^ 3) (by decide +kernel)
  src_wf := wf_replace _ _
  eout_wf := wf_replace _ _
  din_wf := wf_replace _ _
  dout_wf := wf_replace _ _
  src_capacity := within_held (cap := some 6) (bs := sourceA) (by decide)
  din_capacity := within_held (cap := some 21) (bs := fileA) (by decide)
  cursor_le := by show 168 ≤ 8 * fileA.length; decide
  buf_lt := by show fileA.length < 2 ^ 40; decide
  eout_filled := ⟨21, filled_held fileA, fits_iff.mp (show fits (some 21) 21 = true by decide), fun _ => rfl⟩
  dout_filled := filled_held sourceA
  dout_capacity := fits_iff.mp (show fits (some 6) 6 = true by decide)
  enc_status := by show (9#8).toNat ≤ 9; decide
  dec_status := by show (7#8).toNat ≤ 9; decide

theorem witness_RegistersShowTheirContent : (workA []).Inv := witness_inv []
theorem witness_ResetGivesTheResetValues : (workA [.reset]).inbox = .reset :: [] := rfl
theorem witness_StepKeepsTheInvariant : (workA [.command .enc 0x12#80]).Inv ∧
    ∃ t, step (workA [.command .enc 0x12#80]) = .next t ∧ t.enc.eoutLen = 1#40 :=
  ⟨witness_inv _, next_of (fun t => t.enc.eoutLen = 1#40) (by decide +kernel)⟩
def allCommands : List Instr := [.build, .bpclr, .append 5#64 3, .tobytes, .brload, .read 8, .rembits, .serialize 6,
  .deserialize, .encode, .encfile, .decode, .decfile]

theorem witness_RefusalsHaveTwoCauses :
    step (given [.command .dec 0x50#80] (decWith tableTwin [] 0 0 0)) = .refused .notPrefixFree ∧
    step (given [.command .dec 0x51#80] (decWith tableA fileTwin 0 0 0)) = .refused .notPrefixFree ∧
    step (given [.writeSrc (2 ^ 32 - 1) 7#8] encA) = .refused .bufferCapacity ∧
    step (given [.command .enc 0x41#80] (smallA 1)) = .refused .bufferCapacity :=
  ⟨refused_of (by decide +kernel), refused_of (by decide +kernel), refused_of (by decide +kernel),
    refused_of (by decide +kernel)⟩
/-- Every command of example A succeeds where its buffers fit exactly. -/
theorem witness_CapacitiesRefuse_fit :
    (allCommands.all fun i => passes (exec i (smallA 0)) fun t => decide (lasterrOf i.port t = 0#8)) = true := by
  decide +kernel
/-- ENCODE, ENCFILE, BRLOAD, DESERIALIZE, DECODE and DECFILE are refused where their input is one byte too long. -/
theorem witness_CapacitiesRefuse_input : ([.encode, .encfile, .brload, .deserialize, .decode, .decfile].all fun i =>
    decide (refusal (exec i (smallA 1)) = some .bufferCapacity)) = true ∧ ¬ InputWithin .encode (smallA 1) ∧
    ¬ InputWithin .decode (smallA 1) :=
  ⟨by decide +kernel, not_fits_iff.mp (by decide), fun h => not_fits_iff.mp (by decide) (h (by decide))⟩
/-- SERIALIZE needs 19 bytes of EOUT, DECODE 6 of DOUT. -/
theorem witness_CapacitiesRefuse_output :
    (InputWithin (.serialize 6) fullA ∧
      (∃ t, exec (.serialize 6) (fullA.withParams (unboundedOutput { Params.default with eoutCap := some 18 })) = .next t ∧
        t.enc.lasterr = 0#8 ∧ ¬ OutputWithin (.serialize 6) { Params.default with eoutCap := some 18 } t) ∧
      exec (.serialize 6) (fullA.withParams { Params.default with eoutCap := some 18 }) = .refused .bufferCapacity) ∧
    exec .decode (fullA.withParams { Params.default with doutCap := some 5 }) = .refused .bufferCapacity :=
  ⟨⟨trivial, (next_of (fun t => t.enc.lasterr = 0#8 ∧ fits (some 18) t.enc.eout.cells.length = false)
      (by decide +kernel)).imp fun _ h => ⟨h.1, h.2.1, not_fits_iff.mp h.2.2⟩, refused_of (by decide +kernel)⟩,
    refused_of (by decide +kernel)⟩


theorem witness_commands_succeed :
    (allCommands.all fun i => passes (exec i fullA) fun t => decide (lasterrOf i.port t = 0#8)) = true := by decide +kernel
/-- V61: what each command answers as the first after reset. -/
theorem witness_commands_fail : (allCommands.map fun i => passes (exec i State.reset) fun t =>
    decide (lasterrOf i.port t ≠ 0#8)) =
    [true, false, false, false, false, true, false, true, true, false, true, false, true] := by decide +kernel
theorem witness_EveryCommandDeliversOneResponse : (∃ t, exec .build fullA = .next t ∧ lasterrOf .enc t = 0#8) ∧
    (∃ t, exec (.read 1) State.reset = .next t ∧ lasterrOf .dec t ≠ 0#8) :=
  ⟨next_of _ (by decide +kernel), next_of _ (by decide +kernel)⟩
theorem witness_FailedCommandsChangeNothingElse : (∃ t, exec .build State.reset = .next t ∧ lasterrOf .enc t ≠ 0#8) ∧
    (∃ t, exec .deserialize State.reset = .next t ∧ lasterrOf .dec t ≠ 0#8) :=
  ⟨next_of _ (by decide +kernel), next_of _ (by decide +kernel)⟩
theorem witness_EachCommandFailsOnlyAsListed : ∃ t, exec (.read 65) decA = .next t ∧ t.dec.lasterr = 8#8 :=
  next_of (fun t => t.dec.lasterr = 8#8) (by decide +kernel)
theorem witness_CommandsUseOnlyTheirUnit :
    (∃ t, exec .encfile fullA = .next t ∧ Instr.port .encfile = .enc ∧ encA.params = fullA.params ∧ encA.enc = fullA.enc) ∧
    (∃ t, exec .decfile fullA = .next t ∧ Instr.port .decfile = .dec ∧ decA.params = fullA.params ∧ decA.dec = fullA.dec) :=
  ⟨(next_of (fun t => t.enc.lasterr = 0#8) (by decide +kernel)).imp fun _ h => ⟨h.1, rfl, rfl, rfl⟩,
    (next_of (fun t => t.dec.lasterr = 0#8) (by decide +kernel)).imp fun _ h => ⟨h.1, rfl, rfl, rfl⟩⟩
theorem witness_CommandsOfTheTwoUnitsCommute : Instr.port .encfile = .enc ∧ Instr.port .decode = .dec ∧
    (∃ t, exec .encfile fullA = .next t ∧ t.enc.lasterr = 0#8) ∧ ∃ u, exec .decode fullA = .next u ∧ u.dec.lasterr = 0#8 :=
  ⟨rfl, rfl, next_of (fun t => t.enc.lasterr = 0#8) (by decide +kernel), next_of (fun t => t.dec.lasterr = 0#8) (by decide +kernel)⟩
theorem witness_NoCommandReadsLasterr : Instr.port (.serialize 6) = .enc ∧ Instr.port .rembits = .dec := ⟨rfl, rfl⟩
theorem witness_FrameOfEveryCommand : ∃ t, exec (.append 5#64 3) fullA = .next t ∧ t.enc.bp.length = 6 :=
  next_of (fun t => t.enc.bp.length = 6) (by decide +kernel)

theorem witness_BuildMakesAValidTable : fullA.enc.freq.get 0x61#8 ≠ 0 := by decide +kernel
theorem witness_BuiltCodesAreComplete : ∃ t, exec .build (encWith (freqOf [(0#8, 1), (255#8, 0xFFFFFFFF)]) Table.reset [] []) =
      .next t ∧ t.enc.lasterr = 0#8 ∧ 2 ≤ t.enc.ct.alphabet.length ∧ 255 ≤ (List.replicate 255 true).length :=
  next_of (fun t => t.enc.lasterr = 0#8 ∧ 2 ≤ t.enc.ct.alphabet.length ∧ 255 ≤ (List.replicate 255 true).length)
    (by decide +kernel)
theorem witness_BuildNeedsAWeight : ∀ c, State.reset.enc.freq.get c = 0 :=
  forall_get (P := fun _ w => w = 0) (by decide +kernel)
theorem witness_BuildOfOneSymbol : ∃ s : State, s.enc.freq.get 0xFF#8 ≠ 0 ∧
    (∀ c, c ≠ 0xFF#8 → s.enc.freq.get c = 0) ∧ ∃ t, exec .build s = .next t ∧ t.enc.lasterr = 0#8 :=
  ⟨encWith (freqOf [(0xFF#8, 1)]) tableA [] [], by decide +kernel,
    forall_get (P := fun c w => c ≠ 0xFF#8 → w = 0) (by decide +kernel),
    next_of (fun t => t.enc.lasterr = 0#8) (by decide +kernel)⟩
/-- Equal weights: the first clause at its boundary. -/
theorem witness_BuildOfTwoSymbols_equal : ∃ s : State, (0#8).toNat < (255#8).toNat ∧ s.enc.freq.get 0#8 ≠ 0 ∧
    s.enc.freq.get 255#8 ≠ 0 ∧ (∀ e, e ≠ 0#8 → e ≠ 255#8 → s.enc.freq.get e = 0) ∧
    s.enc.freq.get 0#8 ≤ s.enc.freq.get 255#8 ∧ ∃ t, exec .build s = .next t ∧ t.enc.lasterr = 0#8 :=
  ⟨encWith (freqOf [(0#8, 5), (255#8, 5)]) Table.reset [] [], by decide, by decide +kernel, by decide +kernel,
    forall_get (P := fun e w => e ≠ 0#8 → e ≠ 255#8 → w = 0) (by decide +kernel), by decide +kernel,
    next_of (fun t => t.enc.lasterr = 0#8) (by decide +kernel)⟩
/-- The greater symbol lighter by one: the second clause at its boundary. -/
theorem witness_BuildOfTwoSymbols_lighter : ∃ s : State, (0#8).toNat < (255#8).toNat ∧ s.enc.freq.get 0#8 ≠ 0 ∧
    s.enc.freq.get 255#8 ≠ 0 ∧ (∀ e, e ≠ 0#8 → e ≠ 255#8 → s.enc.freq.get e = 0) ∧
    s.enc.freq.get 255#8 < s.enc.freq.get 0#8 ∧ ∃ t, exec .build s = .next t ∧ t.enc.lasterr = 0#8 :=
  ⟨encWith (freqOf [(0#8, 5), (255#8, 4)]) Table.reset [] [], by decide, by decide +kernel, by decide +kernel,
    forall_get (P := fun e w => e ≠ 0#8 → e ≠ 255#8 → w = 0) (by decide +kernel), by decide +kernel,
    next_of (fun t => t.enc.lasterr = 0#8) (by decide +kernel)⟩
/-- Three symbols of weight 1, V15 (a): 10 and 20 merge first, then 30 comes before their parent. -/
def freqThree : Freq := freqOf [(10#8, 1), (20#8, 1), (30#8, 1)]
def treeThree : HTree := .node (.leaf 30#8) (.node (.leaf 10#8) (.leaf 20#8))
theorem witness_BuildFollowsTheMergeRule : 2 ≤ freqThree.alphabet.length ∧ MergesTo 0 (initialNodes freqThree) treeThree := by
  have h : initialNodes freqThree = [{ weight := 1, seq := 10, tree := .leaf 10#8 },
      { weight := 1, seq := 20, tree := .leaf 20#8 }, { weight := 1, seq := 30, tree := .leaf 30#8 }] := by decide +kernel
  refine ⟨by decide +kernel, h ▸ .merge 0 _ _ _ [{ weight := 1, seq := 30, tree := .leaf 30#8 }] _ (.refl _) ?_ ?_
    (.merge 1 _ { weight := 1, seq := 30, tree := .leaf 30#8 }
      { weight := 2, seq := 256, tree := .node (.leaf 10#8) (.leaf 20#8) } [] _ (.swap _ _ _) ?_ ?_ (.done _ _))⟩ <;>
  · unfold Pending.Less; decide
/-- V15 (a), V16: the codewords that the tie-break gives; V19: no weight. -/
theorem test_build_ties :
    passes (exec .build (encWith freqThree Table.reset [] [])) (fun t => decide (t.enc.ct.alphabet.map t.enc.ct.code =
      [[true, false], [true, true], [false]])) = true ∧
    passes (exec .build (encWith (freqOf [(0#8, 2), (1#8, 2), (2#8, 2), (3#8, 2), (4#8, 4), (5#8, 4)]) Table.reset [] []))
      (fun t => decide (t.enc.ct.alphabet.map (fun c => ((t.enc.ct.get c).len.toNat, (t.enc.ct.get c).word.toNat)) =
        [(3, 4), (3, 5), (3, 6), (3, 7), (2, 0), (2, 1)])) = true ∧
    passes (exec .build (encWith (freqOf []) tableA [] [])) (fun t =>
      decide (t.enc.lasterr = 1#8 ∧ t.enc.ct.alphabet.length = 4)) = true := by decide +kernel
/-- V14 (a). -/
theorem witness_BuildOfEqualWeights : ∃ s : State, 0 < 1 ∧ 1 ≤ 2 ∧ s.enc.freq.alphabet.length = 2 ^ 2 ∧
    (∀ c ∈ s.enc.freq.alphabet, s.enc.freq.get c = 1) ∧ s.enc.freq.alphabet[3]? = some 3#8 :=
  ⟨encWith (freqOf [(0#8, 1), (1#8, 1), (2#8, 1), (3#8, 1)]) tableA [] [], by decide, by decide, by decide +kernel,
    by decide +kernel, by decide +kernel⟩
theorem witness_HeavierSymbolsHaveNoLongerCodewords : (∃ t, exec .build encA = .next t ∧ t.enc.lasterr = 0#8) ∧
    encA.enc.freq.get 0x64#8 ≠ 0 ∧ encA.enc.freq.get 0x64#8 < encA.enc.freq.get 0x62#8 :=
  ⟨next_of (fun t => t.enc.lasterr = 0#8) (by decide +kernel), by decide +kernel, by decide +kernel⟩
/-- Example A in a part with weights of three bits. -/
theorem witness_MergedWeightsAreExactAndBounded :
    (smallA 0).enc.freq.alphabet = 0x61#8 :: [0x62#8, 0x63#8, 0x64#8] ∧
    ∀ d, (smallA 0).enc.freq.get d < 2 ^ (smallA 0).params.weightW :=
  ⟨by decide +kernel, forall_get (V := freqA) (P := fun _ w => w < 2 ^ 3) (by decide +kernel)⟩
theorem witness_BuildIgnoresACommonFactor : ∃ s s' : State, 0 < 2 ∧
    (∀ c, s'.enc.freq.get c = 2 * s.enc.freq.get c) ∧
    (∃ t, exec .build s = .next t ∧ t.enc.lasterr = 0#8) ∧ ∃ t', exec .build s' = .next t' ∧ t'.enc.lasterr = 0#8 :=
  ⟨encA, encWith (freqOf [(0x61#8, 10), (0x62#8, 4), (0x63#8, 2), (0x64#8, 2)]) tableA [] [], by decide,
    forall_get₂ (P := fun w w' : Weight => w' = 2 * w) (by decide +kernel),
    next_of (fun t => t.enc.lasterr = 0#8) (by decide +kernel),
    next_of (fun t => t.enc.lasterr = 0#8) (by decide +kernel)⟩

theorem witness_AppendAddsTheLowBits : (1 ≤ 1 ∧ 1 ≤ 64) ∧ (1 ≤ 64 ∧ 64 ≤ 64) ∧ (0 < 1 ∨ 64 < 0) ∧ (65 < 1 ∨ 64 < 65) := by
  decide
theorem witness_TobytesPadsWithZeroBits : Within (smallA 0).params.eoutCap ((fullA.enc.bp.length + 7) / 8) ∧
    fullA.enc.bp.length < 2 ^ 43 - 7 ∧ 0 < (fullA.enc.bp.length + 7) / 8 ∧
    ¬ Within (smallA 21).params.eoutCap ((fullA.enc.bp.length + 7) / 8) :=
  ⟨fits_iff.mp (by decide), by decide, by decide, not_fits_iff.mp (by decide)⟩
/-- DIN holds exactly the input, or one byte less. -/
theorem witness_BrloadCopiesTheInput : (smallA 0).InputFits 0 ∧ ¬ (smallA 1).InputFits 0 :=
  ⟨fun _ => fits_iff.mp (by decide), fun h => not_fits_iff.mp (by decide) (h (by decide))⟩

theorem witness_ReadReturnsTheNextBits : (0 < 1 ∨ 64 < 0) ∧ (65 < 1 ∨ 64 < 65) ∧
    (1 ≤ 5 ∧ 5 ≤ 64 ∧ 8 * (decWith tableA [0x95#8, 0x60#8] 0 0 12).dec.br.buf.length <
      (decWith tableA [0x95#8, 0x60#8] 0 0 12).dec.br.cursor + 5) ∧
    (1 ≤ 4 ∧ 4 ≤ 64 ∧ (decWith tableA [0x95#8, 0x60#8] 0 0 12).dec.br.cursor + 4 ≤
      8 * (decWith tableA [0x95#8, 0x60#8] 0 0 12).dec.br.buf.length) := by decide
theorem witness_RembitsCountsTheBitsLeft : (workA []).dec.br.cursor ≤ 8 * (workA []).dec.br.buf.length ∧
    (workA []).dec.br.buf.length < 2 ^ 40 := ⟨(witness_inv []).cursor_le, (witness_inv []).buf_lt⟩

/-- V22, the shortest and the longest value. -/
def packedValues : List (BitVec 64 × Nat) := [(1#64, 1), (0xDEADBEEFCAFEF00D#64, 64)]
def packedBytes : List Byte := bytes [0xEF, 0x56, 0xDF, 0x77, 0xE5, 0x7F, 0x78, 0x06, 0x80]
theorem witness_PackedValuesReadBack : ∃ t, State.reset.enc.bp = [] ∧ (∀ v ∈ packedValues, 1 ≤ v.2 ∧ v.2 ≤ 64) ∧
    (packedValues.map fun v => v.2).sum < 2 ^ 43 - 7 ∧
    Within State.reset.params.eoutCap (((packedValues.map fun v => v.2).sum + 7) / 8) ∧
    runCommands ((packedValues.map fun v => Instr.append v.1 v.2) ++ [.tobytes]) State.reset = .next t ∧
    (decWith tableA packedBytes 0 0 0).input = t.output ∧ (decWith tableA packedBytes 0 0 0).InputFits 0 :=
  have h := next_of (r := runCommands ((packedValues.map fun v => Instr.append v.1 v.2) ++ [.tobytes]) State.reset)
    (fun t => (decWith tableA packedBytes 0 0 0).input = t.output) (by decide +kernel)
  h.imp fun _ h => ⟨rfl, by decide, by decide, fits_iff.mp (by decide), h.1, h.2, unbounded_input _ _ _ _ _⟩

theorem witness_SerializeWritesTheHeader : 2 ^ 32 - 1 < 2 ^ 32 ∧ (∀ c, (State.reset.enc.ct.get c).len = 0#8) ∧
    tableEntries fullA.enc.ct ≠ [] ∧ Within (some 19) (layoutLength (tableEntries fullA.enc.ct)) ∧
    ¬ Within (some 18) (layoutLength (tableEntries fullA.enc.ct)) :=
  ⟨by decide, forall_get (P := fun _ (e : Entry) => e.len = 0#8) (by decide +kernel), by decide +kernel,
    fits_iff.mp (by decide +kernel), not_fits_iff.mp (by decide +kernel)⟩

def fileMax : List Byte := (bytes [0x13, 0, 3, 255, 255, 255, 255] ++ headerA.drop 7) ++ [0xFF#8]
theorem witness_HeadersRoundTrip : ∃ t, (2 ^ 32 - 1 < 2 ^ 32) ∧ (encA.enc.ct.get 0x61#8).len ≠ 0#8 ∧
    Within encA.params.eoutCap (layoutLength (tableEntries encA.enc.ct)) ∧
    exec (.serialize (2 ^ 32 - 1)) encA = .next t ∧
    (decWith tableA fileMax 0 0 0).input = t.output ++ [0xFF#8] ∧ (decWith tableA fileMax 0 0 0).InputFits 0 :=
  have h := next_of (r := exec (.serialize (2 ^ 32 - 1)) encA)
    (fun t => (decWith tableA fileMax 0 0 0).input = t.output ++ [0xFF#8]) (by decide +kernel)
  h.imp fun _ h => ⟨by decide, by decide +kernel, fits_iff.mp rfl, h.1, h.2, unbounded_input _ _ _ _ _⟩

/-- The longest entry and the shortest. -/
def entryLong : HeaderEntry := { symbol := 0xFF#8, len := 255#8, word := List.replicate 32 0xFF#8 }
def entryNone : HeaderEntry := { symbol := 0xFF#8, len := 0#8, word := [] }
theorem fitting_entryLong : entryLong.fitting := rfl
theorem fitting_entryNone : entryNone.fitting := rfl
theorem fitting_replicate (n : Nat) : ∀ e ∈ List.replicate n entryLong, e.fitting := fun e h => by
  rw [List.eq_of_mem_replicate h]; rfl
theorem layoutLength_replicate (n : Nat) : layoutLength (List.replicate n entryLong) = 7 + n * 34 := by
  simp [layoutLength, entryLong]
theorem headerLayout_length (total n : Nat) (es : List HeaderEntry) :
    (headerLayout total n es).length = 7 + (es.map fun e => e.bytes.length).sum := by
  simp [headerLayout]; omega

/-- 256 entries, all of one symbol, `header_total_bytes` as consumed and bytes after the header. -/
theorem witness_DeserializeReadsEveryEntry_good : ∃ (u : State) (es : List HeaderEntry) (total n : Nat) (tail : List Byte),
    1 ≤ es.length ∧ es.length ≤ 256 ∧ (∀ e ∈ es, e.fitting) ∧ total < 2 ^ 16 ∧ n < 2 ^ 32 ∧
    u.input = headerLayout total n es ++ tail ∧ u.InputFits 0 ∧ total = layoutLength es := by
  refine ⟨decWith tableA (headerLayout 8711 (2 ^ 32 - 1) (List.replicate 256 entryLong) ++ [1#8]) 0 0 0,
    List.replicate 256 entryLong, 8711, 2 ^ 32 - 1, [1#8], ?_, ?_, fitting_replicate _, by decide, by decide,
    input_decWith _ _ _ _ ?_, unbounded_input _ _ _ _ _, ?_⟩
  · rw [List.length_replicate]; decide
  · rw [List.length_replicate]
  · rw [List.length_append, headerLayout_length, List.map_replicate, List.sum_replicate]; decide
  · rw [layoutLength_replicate]
/-- One entry of length 0, `header_total_bytes` one too many. -/
theorem witness_DeserializeReadsEveryEntry_bad : ∃ (u : State) (es : List HeaderEntry) (total n : Nat) (tail : List Byte),
    1 ≤ es.length ∧ es.length ≤ 256 ∧ (∀ e ∈ es, e.fitting) ∧ total < 2 ^ 16 ∧ n < 2 ^ 32 ∧
    u.input = headerLayout total n es ++ tail ∧ u.InputFits 0 ∧ total ≠ layoutLength es ∧ lastEntry es 0xFF#8 = some entryNone ∧
    lastEntry es 0#8 = none :=
  ⟨decWith tableA (headerLayout 10 0 [entryNone]) 0 0 0, [entryNone], 10, 0, [], by decide, by decide,
    fun e h => by rw [List.mem_singleton.mp h]; rfl, by decide, by decide,
    (input_decWith _ _ _ _ (by decide)).trans (List.append_nil _).symm, unbounded_input _ _ _ _ _, by decide, by decide, by decide⟩
/-- Every byte but the last of a header of 256 entries. -/
theorem witness_TruncatedHeadersAreRejected : ∃ (u : State) (es : List HeaderEntry) (total n k : Nat),
    1 ≤ es.length ∧ es.length ≤ 256 ∧ (∀ e ∈ es, e.fitting) ∧ k < layoutLength es ∧ k + 1 = layoutLength es ∧
    u.input = (headerLayout total n es).take k ∧ u.InputFits 0 := by
  refine ⟨decWith tableA ((headerLayout 8711 5 (List.replicate 256 entryLong)).take 8710) 0 0 0,
    List.replicate 256 entryLong, 8711, 5, 8710, ?_, ?_, fitting_replicate _, ?_, ?_, input_decWith _ _ _ _ ?_,
    unbounded_input _ _ _ _ _⟩
  · rw [List.length_replicate]; decide
  · rw [List.length_replicate]
  · rw [layoutLength_replicate]; decide
  · rw [layoutLength_replicate]
  · rw [List.length_take]; omega

theorem witness_EncodeWritesThePayload_fits : (encWith freqA tableA (bytes [0x61, 0x65]) []).SourceFits ∧
    (smallA 0).SourceFits ∧ ¬ (smallA 1).SourceFits ∧ Within (some 2) (payloadLength tableA sourceA) ∧
    ¬ Within (some 1) (payloadLength tableA sourceA) :=
  ⟨fits_iff.mp (by decide), fits_iff.mp (by decide), not_fits_iff.mp (by decide), fits_iff.mp (by decide +kernel),
    not_fits_iff.mp (by decide +kernel)⟩
theorem witness_EncodeWritesThePayload : ¬ (encWith freqA tableA (bytes [0x61, 0x65]) []).enc.ct.Covers
      (encWith freqA tableA (bytes [0x61, 0x65]) []).source ∧ fullA.enc.ct.Covers fullA.source := by
  unfold Table.Covers; decide +kernel

theorem witness_EncfileIsHeaderThenPayload : (∀ c, (State.reset.enc.ct.get c).len = 0#8) ∧
    (((encWith freqA tableA (bytes [0x61, 0x65]) []).enc.ct.get 0x61#8).len ≠ 0#8 ∧
      ¬ (encWith freqA tableA (bytes [0x61, 0x65]) []).enc.ct.Covers (encWith freqA tableA (bytes [0x61, 0x65]) []).source) ∧
    ((fullA.enc.ct.get 0x61#8).len ≠ 0#8 ∧ fullA.enc.ct.Covers fullA.source) ∧
    Within (some 21) (layoutLength (tableEntries tableA) + payloadLength tableA sourceA) ∧
    ¬ Within (some 20) (layoutLength (tableEntries tableA) + payloadLength tableA sourceA) ∧
    State.reset.SourceFits ∧ fullA.SourceFits ∧ ¬ (smallA 1).SourceFits :=
  ⟨forall_get (P := fun _ (e : Entry) => e.len = 0#8) (by decide +kernel),
    ⟨by decide +kernel, witness_EncodeWritesThePayload.1⟩, ⟨by decide +kernel, witness_EncodeWritesThePayload.2⟩,
    fits_iff.mp (by decide +kernel), not_fits_iff.mp (by decide +kernel), fits_iff.mp (by decide), fits_iff.mp (by decide),
    not_fits_iff.mp (by decide)⟩
/-- High bits of a word and a byte of SRC beyond SRC_LEN differ. -/
theorem witness_EncodingReadsOnlySignificantState : ∃ s s' : State,
    s'.params = s.params ∧ s'.enc.ct.Same s.enc.ct ∧ s'.enc.ct.get 0x61#8 ≠ s.enc.ct.get 0x61#8 ∧ s'.enc.srcLen = s.enc.srcLen ∧
    (∀ a, a < s.enc.srcLen.toNat → readByte .src a s' = readByte .src a s) ∧
    ∃ t, exec .encfile s = .next t ∧ t.enc.lasterr = 0#8 :=
  ⟨encA, { State.reset with enc := { State.reset.enc with
      ct := tableA.put 0x61#8 { len := 1#8, word := 0x7FFF#255 }, src := held (sourceA ++ [0x65#8]), srcLen := 6#32 } },
    rfl, forall_get₂ (P := fun e e' : Entry => e.len = e'.len ∧ e.value = e'.value) (by decide +kernel),
    by decide +kernel, by decide +kernel, by decide +kernel, next_of (fun t => t.enc.lasterr = 0#8) (by decide +kernel)⟩

theorem witness_RoundTrip_walk : tableA.PrefixFree ∧ tableA.Covers sourceA ∧ sourceA.length < 2 ^ 32 ∧
    ∃ q, (encodeBits tableA sourceA).toOption = some q ∧ q <+: bitsOfBytes (bytes [0x95, 0x7F]) :=
  ⟨prefixFree_tableA, by unfold Table.Covers; decide +kernel, by decide,
    [true, false, false, true, false, true, false, true, false, true, true], by decide +kernel, by decide +kernel⟩
theorem witness_RoundTrip_file : (smallA 0).enc.freq.get 0x61#8 ≠ 0 ∧
    (∀ c ∈ (smallA 0).source, (smallA 0).enc.freq.get c ≠ 0) ∧ (smallA 0).SourceFits ∧
    ∃ a, exec .build (smallA 0) = .next a ∧
      fits (smallA 0).params.eoutCap (layoutLength (tableEntries a.enc.ct) + payloadLength a.enc.ct (smallA 0).source) = true ∧
      ∃ b, exec .encfile a = .next b ∧ (smallA 0).input = b.output ∧ (smallA 0).InputFits 0 ∧
        Within (smallA 0).params.doutCap (smallA 0).enc.srcLen.toNat :=
  ⟨by decide +kernel, by decide +kernel, fits_iff.mp (by decide),
    (next_of (fun a => fits (smallA 0).params.eoutCap
        (layoutLength (tableEntries a.enc.ct) + payloadLength a.enc.ct (smallA 0).source) = true ∧
      passes (exec .encfile a) (fun b => decide ((smallA 0).input = b.output)) = true) (by decide +kernel)).imp
      fun _ h => ⟨h.1, h.2.1, (next_of _ h.2.2).imp fun _ g =>
        ⟨g.1, g.2, fun _ => fits_iff.mp (by decide), fits_iff.mp (by decide)⟩⟩⟩
theorem witness_DecodeRecoversExactlyEncodedSymbols_fits : decA.InputFits 19 ∧ ¬ (smallA 1).InputFits 19 ∧
    Within (smallA 0).params.doutCap 6 ∧ ¬ Within (smallA 1).params.doutCap 6 ∧
    (decWith Table.reset [0#8] 1 0 0).InputFits 0 ∧ (decWith tableTwin [] 0 0 0).InputFits 0 :=
  ⟨fun _ => fits_iff.mp rfl, fun h => not_fits_iff.mp (by decide) (h (by decide)), fits_iff.mp (by decide),
    not_fits_iff.mp (by decide), unbounded_input _ _ _ _ _, unbounded_input _ _ _ _ _⟩
theorem witness_DecodeRecoversExactlyEncodedSymbols_good : decA.dec.ct.PrefixFree ∧
    sourceA.length = decA.dec.srclen.toNat ∧ decA.dec.ct.Covers sourceA ∧
    payloadBits decA.dec.ct sourceA <+: bitsOfBytes (decA.inputFrom decA.dec.payOff.toNat) :=
  ⟨prefixFree_tableA, by decide, by unfold Table.Covers; decide +kernel, by decide +kernel⟩
/-- The empty table, one symbol asked for (V54). -/
theorem witness_DecodeRecoversExactlyEncodedSymbols_bad : (decWith Table.reset [0#8] 1 0 0).dec.ct.PrefixFree ∧
    ¬ ∃ x : List Symbol, x.length = (decWith Table.reset [0#8] 1 0 0).dec.srclen.toNat ∧
      (decWith Table.reset [0#8] 1 0 0).dec.ct.Covers x ∧
      payloadBits (decWith Table.reset [0#8] 1 0 0).dec.ct x <+:
        bitsOfBytes ((decWith Table.reset [0#8] 1 0 0).inputFrom (decWith Table.reset [0#8] 1 0 0).dec.payOff.toNat) := by
  refine ⟨Table.prefixFree_iff.mp (by decide +kernel), ?_⟩
  rintro ⟨x, hx, hc, -⟩
  match x, hx, hc with
  | c :: _, _, hc => exact hc c (List.mem_cons_self ..) (by simp [decWith])
theorem witness_AmbiguousTablesAreRefused : ¬ (decWith tableTwin [] 0 0 0).dec.ct.PrefixFree ∧
    ∃ a, exec .deserialize (decWith tableA fileTwin 0 0 0) = .next a ∧ a.dec.lasterr = 0#8 ∧ ¬ a.dec.ct.PrefixFree :=
  ⟨not_prefixFree_twin,
    (next_of (fun a => a.dec.lasterr = 0#8 ∧ a.dec.ct.prefixFree = false) (by decide +kernel)).imp fun _ h =>
      ⟨h.1, h.2.1, fun hp => absurd (Table.prefixFree_iff.mpr hp) (by rw [h.2.2]; decide)⟩⟩
theorem witness_DecfileIsDeserializeThenDecode :
    (∃ a, exec .deserialize State.reset = .next a ∧ a.dec.lasterr ≠ 0#8) ∧
    (∃ a, exec .deserialize (decWith tableA fileTwin 0 0 0) = .next a ∧ a.dec.lasterr = 0#8 ∧
      exec .decode a = .refused .notPrefixFree) ∧
    (∃ a, exec .deserialize decA = .next a ∧ a.dec.lasterr = 0#8 ∧ ∃ b, exec .decode a = .next b ∧ b.dec.lasterr = 0#8) ∧
    (∃ a, exec .deserialize (decWith tableA headerA 0 0 0) = .next a ∧ a.dec.lasterr = 0#8 ∧
      ∃ b, exec .decode a = .next b ∧ b.dec.lasterr ≠ 0#8) := by
  refine ⟨next_of (fun a => a.dec.lasterr ≠ 0#8) (by decide +kernel),
    (next_of (fun a => a.dec.lasterr = 0#8 ∧ refusal (exec .decode a) = some .notPrefixFree) (by decide +kernel)).imp
      fun _ h => ⟨h.1, h.2.1, refused_of h.2.2⟩,
    (next_of (fun a => a.dec.lasterr = 0#8 ∧ passes (exec .decode a) (fun b => decide (b.dec.lasterr = 0#8)) = true)
      (by decide +kernel)).imp fun _ h => ⟨h.1, h.2.1, next_of _ h.2.2⟩,
    (next_of (fun a => a.dec.lasterr = 0#8 ∧ passes (exec .decode a) (fun b => decide (b.dec.lasterr ≠ 0#8)) = true)
      (by decide +kernel)).imp fun _ h => ⟨h.1, h.2.1, next_of _ h.2.2⟩⟩
theorem witness_DecfileRecoversTheFile : tableA.PrefixFree ∧ tableEntries tableA ≠ [] ∧ tableA.Covers sourceA ∧
    sourceA.length < 2 ^ 32 ∧ payloadBits tableA sourceA <+: bitsOfBytes (bytes [0x95, 0x60]) ∧
    decA.input = headerLayout (layoutLength (tableEntries tableA)) sourceA.length (tableEntries tableA) ++
      bytes [0x95, 0x60] ∧
    decA.InputFits 0 ∧ Within decA.params.doutCap sourceA.length :=
  ⟨prefixFree_tableA, by decide +kernel, by unfold Table.Covers; decide +kernel, by decide, by decide +kernel,
    by decide +kernel, unbounded_input _ _ _ _ _, fits_iff.mp rfl⟩
theorem witness_TrieAndTableFormAgree : tableA.PrefixFree ∧ (tableA.get 0x61#8).len ≠ 0#8 :=
  ⟨prefixFree_tableA, by decide +kernel⟩
theorem witness_TrieSizes : (∃ t, exec .build (encWith (freqOf [(0xFF#8, 1)]) tableA [] []) = .next t ∧ t.enc.lasterr = 0#8) ∧
    ∃ t, exec .build fullA = .next t ∧ t.enc.lasterr = 0#8 :=
  ⟨next_of (fun t => t.enc.lasterr = 0#8) (by decide +kernel), next_of (fun t => t.enc.lasterr = 0#8) (by decide +kernel)⟩
theorem witness_InputBeyondItsLengthIsNotRead : Instr.port .decfile = .dec ∧
    (∀ a, a < decA.dec.dinLen.toNat → (held (fileA ++ [0xFF#8])).read .din a = readByte .din a decA) ∧
    ∃ t, exec .decfile decA = .next t ∧ t.dec.lasterr = 0#8 :=
  ⟨rfl, by decide +kernel, next_of (fun t => t.dec.lasterr = 0#8) (by decide +kernel)⟩

end Sys2Proof.Tests
end

/-! The statements of 00_scope.md: what the merge loop of BUILD keeps (R7), and for which capacity a command is refused
(R6, U9). -/

namespace Sys2Proof.Machine

/-! ### What the merge loop keeps (40_code_table_builder.md R90) -/

/-- What replacing two pending nodes by their parent keeps, whichever two they are, the merge loop keeps. -/
theorem mergeTurns_keeps {P : List Pending → Prop}
    (hmerge : ∀ k x y rest L, (x :: y :: rest).Perm L → P L → P (mergePair k x y :: rest))
    (n k : Nat) (p : Pending) (ps : List Pending) (h : P (p :: ps)) :
    P ((mergeTurns n k p ps).1 :: (mergeTurns n k p ps).2) := by
  induction n generalizing k p ps with
  | zero => exact h
  | succ n ih =>
    cases ps with
    | nil => exact ih (k + 1) p [] h
    | cons q ps =>
      obtain ⟨x, y, rest, hmo, hperm, -, -⟩ := mergeOnce_cases k p q ps
      rw [mergeTurns, hmo]
      exact ih (k + 1) _ rest (hmerge k x y rest _ hperm h)

/-- The weights of a tree's leaves, added up. -/
def leafWeight (F : Freq) (t : HTree) : Nat := ((leafPaths t).map fun sp => F.get sp.1).sum

theorem leafWeight_leaf (F : Freq) (c : Symbol) : leafWeight F (.leaf c) = F.get c := by
  simp [leafWeight, leafPaths]

theorem leafWeight_node (F : Freq) (l r : HTree) :
    leafWeight F (.node l r) = leafWeight F l + leafWeight F r := by
  simp [leafWeight, leafPaths, Function.comp_def]

/-- Every pending node weighs what its leaves weigh, and all of them together weigh `total`. -/
def WeighsAsItsLeaves (F : Freq) (total : Nat) (L : List Pending) : Prop :=
  (∀ x ∈ L, x.weight = leafWeight F x.tree) ∧ (L.map Pending.weight).sum = total

theorem weighsAsItsLeaves_initial (F : Freq) (cs : List Symbol) :
    WeighsAsItsLeaves F (cs.map F.get).sum (cs.map (pendingOf F)) := by
  refine ⟨fun x hx => ?_, by rw [List.map_map]; rfl⟩
  obtain ⟨c, -, rfl⟩ := List.mem_map.mp hx
  exact (leafWeight_leaf F c).symm

theorem weighsAsItsLeaves_merge {F : Freq} {total : Nat} (k : Nat) (x y : Pending) (rest L : List Pending)
    (hperm : (x :: y :: rest).Perm L) (h : WeighsAsItsLeaves F total L) :
    WeighsAsItsLeaves F total (mergePair k x y :: rest) := by
  obtain ⟨hexact, htotal⟩ := h
  have hall : ∀ z ∈ x :: y :: rest, z.weight = leafWeight F z.tree := fun z hz => hexact z (hperm.subset hz)
  have hsum := (hperm.map Pending.weight).sum_eq
  simp only [List.forall_mem_cons] at hall
  obtain ⟨hx, hy, hrest⟩ := hall
  constructor
  · refine List.forall_mem_cons.mpr ⟨?_, hrest⟩
    show x.weight + y.weight = leafWeight F (.node x.tree y.tree)
    rw [leafWeight_node, hx, hy]
  · simp only [List.map_cons, List.sum_cons, mergePair] at hsum ⊢
    omega

theorem weighsAsItsLeaves_pendingAfter (F : Freq) (c : Symbol) (cs : List Symbol) (n : Nat) :
    WeighsAsItsLeaves F ((c :: cs).map F.get).sum ((pendingAfter F c cs n).1 :: (pendingAfter F c cs n).2) :=
  mergeTurns_keeps weighsAsItsLeaves_merge n 0 _ _ (weighsAsItsLeaves_initial F (c :: cs))

/-- At most 256 weights of `W` bits add up to less than `2^(W + 8)`. -/
theorem sum_alphabet_lt {F : Freq} {W : Nat} (h : ∀ d, F.get d < 2 ^ W) :
    (F.alphabet.map F.get).sum < 2 ^ (W + 8) := by
  have hle : (F.alphabet.map F.get).sum ≤ F.alphabet.length * (2 ^ W - 1) := by
    simpa using List.sum_le_card_nsmul (F.alphabet.map F.get) (2 ^ W - 1)
      (List.forall_mem_map.mpr fun d _ => Nat.le_sub_one_of_lt (h d))
  have hpos : 0 < 2 ^ W := Nat.two_pow_pos W
  calc (F.alphabet.map F.get).sum
      ≤ F.alphabet.length * (2 ^ W - 1) := hle
    _ ≤ 256 * (2 ^ W - 1) := Nat.mul_le_mul_right _ F.alphabet_length_le
    _ < 2 ^ (W + 8) := by rw [Nat.pow_add]; omega

/-- Settles O33: the merge loop keeps that every node weighs what its leaves weigh and that all nodes together weigh what
the alphabet weighs, which bounds each of them. -/
theorem mergedWeightsAreExactAndBounded : Obligations.MergedWeightsAreExactAndBounded := by
  unfold Obligations.MergedWeightsAreExactAndBounded
  intro s c cs n halphabet hweights x hx
  obtain ⟨hexact, htotal⟩ := weighsAsItsLeaves_pendingAfter s.enc.freq c cs n
  refine ⟨hexact x hx, ?_⟩
  calc x.weight
      ≤ ((c :: cs).map s.enc.freq.get).sum := htotal ▸ List.le_sum_of_mem (List.mem_map_of_mem hx)
    _ < 2 ^ (s.params.weightW + 8) := halphabet ▸ sum_alphabet_lt hweights

/-! ### With which codes the functions of the commands fail (60_exceptions.md R161) -/

theorem header_error {T : Table} {n : Nat} {st : Status} (h : header T n = .error st) : st = .emptyAlphabet := by
  unfold header at h
  split at h <;> cases h
  rfl

theorem encodeBits_error {T : Table} {x : List Symbol} {st : Status} (h : encodeBits T x = .error st) :
    st = .unknownSymbol := by
  induction x with
  | nil => cases h
  | cons c x ih =>
    unfold encodeBits at h
    split at h
    · cases h; rfl
    · split at h <;> cases h
      exact ih ‹_›

theorem parseEntries_error {count : Nat} {T : Table} {pos : Nat} {bytes : List Byte} {st : Status}
    (h : parseEntries count T pos bytes = .error st) : st = .truncatedHeader := by
  induction count generalizing T pos bytes with
  | zero => cases h
  | succ count ih =>
    unfold parseEntries at h
    split at h
    · split at h
      · cases h; rfl
      · exact ih h
    · cases h; rfl

theorem parseHeader_error {T₀ : Table} {bytes : List Byte} {st : Status} (h : parseHeader T₀ bytes = .error st) :
    st = .truncatedHeader ∨ st = .headerSizeMismatch := by
  unfold parseHeader at h
  split at h
  · split at h
    · cases h; exact .inl (parseEntries_error ‹_›)
    · split at h <;> cases h
      exact .inr rfl
  · cases h; exact .inl rfl

theorem decodeWalk_error {T : Table} {n : Nat} {P : List Byte} {st : Status} (h : decodeWalk T n P = .error st) :
    st = .malformedPayload := by
  unfold decodeWalk at h
  split at h <;> cases h
  rfl

/-! ### Capacities (00_scope.md R6, 93_implementation_defined.md U9) -/

theorem withSource_of_sourceFits {s : State} (h : s.SourceFits) (k : List Symbol → Result) :
    withSource s k = k s.source := withSource_of_fits (fits_iff.mpr h) k

theorem withSource_of_not_sourceFits {s : State} (h : ¬ s.SourceFits) (k : List Symbol → Result) :
    withSource s k = .refused .bufferCapacity := withSource_of_not_fits (not_fits_iff.mpr h) k

theorem withInput_of_inputFits {off : Nat} {s : State} (h : s.InputFits off) (k : Result) : withInput off s k = k :=
  withInput_of_fits (fun hlt => fits_iff.mpr (h hlt)) k

theorem withInput_of_not_inputFits {off : Nat} {s : State} (h : ¬ s.InputFits off) (k : Result) :
    withInput off s k = .refused .bufferCapacity := by
  obtain ⟨hlt, hnot⟩ := Classical.not_imp.mp h
  exact withInput_of_not_fits hlt (not_fits_iff.mpr hnot) k

theorem cellsFrom_length (a : Nat) (bs : List Byte) : (cellsFrom a bs).length = bs.length := by
  induction bs generalizing a with
  | nil => rfl
  | cons b bs ih => simp [cellsFrom, ih]

@[simp] theorem replace_cells_length (m : Memory) (bs : List Byte) : (m.replace bs).cells.length = bs.length :=
  cellsFrom_length 0 bs

/-- A command whose input exceeds its buffer is refused. -/
theorem exec_of_not_inputWithin {i : Instr} {s : State} (h : ¬ InputWithin i s) :
    exec i s = .refused .bufferCapacity := by
  cases i with
  | encode => rw [exec, execEncode, withSource_of_not_sourceFits h]
  | encfile => rw [exec, execEncfile, withSource_of_not_sourceFits h]
  | brload | deserialize | decode | decfile => exact withInput_of_not_inputFits h _
  | build | bpclr | append | tobytes | serialize | read | rembits => exact absurd trivial h

/-- The same part with unbounded output buffers. -/
def State.unbounded (s : State) : State := s.withParams (unboundedOutput s.params)

section
variable (s : State)
@[simp] theorem State.unbounded_enc : s.unbounded.enc = s.enc := rfl
@[simp] theorem State.unbounded_dec : s.unbounded.dec = s.dec := rfl
@[simp] theorem State.unbounded_input : s.unbounded.input = s.input := rfl
@[simp] theorem State.unbounded_inputFrom : s.unbounded.inputFrom = s.inputFrom := rfl
end

theorem withSource_unbounded {s : State} (h : s.SourceFits) (k : List Symbol → Result) :
    withSource s.unbounded k = k s.source := withSource_of_sourceFits (s := s.unbounded) h k

theorem withInput_unbounded {off : Nat} {s : State} (h : s.InputFits off) (k : Result) :
    withInput off s.unbounded k = k := withInput_of_inputFits (s := s.unbounded) h k

/-- `r` is what the command answers in a part with the parameters `P`, if it answers `r'` in the same part with unbounded
output buffers: the same, unless it succeeds with an output that exceeds a capacity of `P`. -/
def OutputCapped (i : Instr) (P : Params) (r r' : Result) : Prop :=
  (∀ t, r' = .next t →
    (lasterrOf i.port t = 0#8 → ¬ OutputWithin i P t → r = .refused .bufferCapacity) ∧
    (lasterrOf i.port t ≠ 0#8 ∨ OutputWithin i P t → r = .next (t.withParams P))) ∧
  ∀ q, r' = .refused q → r = .refused q

section
variable {i : Instr} {P : Params} {r : Result} {t : State}

theorem outputCapped_refused (q : Refusal) : OutputCapped i P (.refused q) (.refused q) :=
  ⟨fun _ h => (nomatch h), fun _ h => h⟩

theorem outputCapped_next (hr : r = .next (t.withParams P)) (h : lasterrOf i.port t ≠ 0#8 ∨ OutputWithin i P t) :
    OutputCapped i P r (.next t) := by
  refine ⟨fun t' ht => ?_, fun _ hq => by cases hq⟩
  cases ht
  exact ⟨fun hok hnot => (h.elim (· hok) hnot).elim, fun _ => hr⟩

/-- A success whose output is tested against its capacity before it is delivered. -/
theorem outputCapped_tested {within : Bool} (hok : lasterrOf i.port t = 0#8) (hw : within = true ↔ OutputWithin i P t)
    (hr : r = if within then .next (t.withParams P) else .refused .bufferCapacity) : OutputCapped i P r (.next t) := by
  refine ⟨fun t' ht => ?_, fun _ hq => by cases hq⟩
  cases ht
  constructor
  · exact fun _ hnot => hr.trans (if_neg fun h => hnot (hw.mp h))
  · exact fun h => hr.trans (if_pos (hw.mpr (h.resolve_left fun hne => hne hok)))

end

section
variable {i : Instr} (s : State)

/-- A failure has no output that could exceed a capacity. -/
theorem outputCapped_fail {p : Port} {st cause : Status} (hport : i.port = p) (hst : st = cause)
    (hcause : cause ≠ .ok) :
    OutputCapped i s.params (fail p st s) (fail p st s.unbounded) := by
  have hcode : st.code ≠ 0#8 := fun h => hcause (hst ▸ code_eq_zero.mp h)
  cases p <;> exact outputCapped_next rfl (.inl (by rw [hport]; exact hcode))

theorem outputCapped_deliverEout (bs : List Byte) (hport : i.port = .enc)
    (hout : ∀ t, OutputWithin i s.params t ↔ Within s.params.eoutCap t.enc.eout.cells.length) :
    OutputCapped i s.params (deliverEout bs s) (deliverEout bs s.unbounded) :=
  outputCapped_tested (t := (s.unbounded.setEout bs).complete .enc .ok 0#64) (by rw [hport]; rfl)
    (by rw [hout]; simpa using fits_iff) rfl

theorem outputCapped_deliverDout (out : List Symbol) (hport : i.port = .dec)
    (hout : ∀ t, OutputWithin i s.params t ↔ Within s.params.doutCap t.dec.dout.cells.length) :
    OutputCapped i s.params (deliverDout out s) (deliverDout out s.unbounded) :=
  outputCapped_tested (t := (s.unbounded.setDout out).complete .dec .ok 0#64) (by rw [hport]; rfl)
    (by rw [hout]; simpa using fits_iff) rfl

end

/-! ### Each command and its capacities -/

section
variable {s : State}

theorem build_outputCapped : OutputCapped .build s.params (execBuild s) (execBuild s.unbounded) := by
  unfold execBuild
  rw [State.unbounded_enc]
  split <;> exact outputCapped_next rfl (.inr trivial)

theorem append_outputCapped (v : BitVec 64) (n : Nat) :
    OutputCapped (.append v n) s.params (execAppend v n s) (execAppend v n s.unbounded) := by
  unfold execAppend
  split <;> exact outputCapped_next rfl (.inr trivial)

theorem read_outputCapped (n : Nat) :
    OutputCapped (.read n) s.params (execRead n s) (execRead n s.unbounded) := by
  unfold execRead
  rw [State.unbounded_dec]
  split_ifs <;> exact outputCapped_next rfl (.inr trivial)

theorem brload_outputCapped (h : s.InputFits 0) :
    OutputCapped .brload s.params (execBrload s) (execBrload s.unbounded) := by
  unfold execBrload
  rw [withInput_of_inputFits h, withInput_unbounded h]
  exact outputCapped_next rfl (.inr trivial)

theorem deserialize_outputCapped (h : s.InputFits 0) :
    OutputCapped .deserialize s.params (execDeserialize s) (execDeserialize s.unbounded) := by
  unfold execDeserialize
  rw [withInput_of_inputFits h, withInput_unbounded h, State.unbounded_dec, State.unbounded_input]
  split <;> exact outputCapped_next rfl (.inr trivial)

theorem serialize_outputCapped (n : Nat) :
    OutputCapped (.serialize n) s.params (execSerialize n s) (execSerialize n s.unbounded) := by
  unfold execSerialize
  rw [State.unbounded_enc]
  split
  · exact outputCapped_fail s rfl (header_error ‹_›) (by decide)
  · exact outputCapped_deliverEout s _ rfl fun _ => Iff.rfl

theorem encode_outputCapped (h : s.SourceFits) :
    OutputCapped .encode s.params (execEncode s) (execEncode s.unbounded) := by
  unfold execEncode
  rw [withSource_of_sourceFits h, withSource_unbounded h, State.unbounded_enc]
  split
  · exact outputCapped_fail s rfl (encodeBits_error ‹_›) (by decide)
  · exact outputCapped_deliverEout s _ rfl fun _ => Iff.rfl

theorem encfile_outputCapped (h : s.SourceFits) :
    OutputCapped .encfile s.params (execEncfile s) (execEncfile s.unbounded) := by
  unfold execEncfile
  rw [withSource_of_sourceFits h, withSource_unbounded h, State.unbounded_enc]
  split
  · exact outputCapped_fail s rfl (header_error ‹_›) (by decide)
  · split
    · exact outputCapped_fail s rfl (encodeBits_error ‹_›) (by decide)
    · exact outputCapped_deliverEout s _ rfl fun _ => Iff.rfl

theorem decode_outputCapped (h : s.InputFits s.dec.payOff.toNat) :
    OutputCapped .decode s.params (execDecode s) (execDecode s.unbounded) := by
  unfold execDecode
  rw [State.unbounded_dec, State.unbounded_inputFrom, withInput_of_inputFits h, withInput_unbounded h]
  split
  · exact outputCapped_refused _
  · split
    · exact outputCapped_fail s rfl (decodeWalk_error ‹_›) (by decide)
    · exact outputCapped_deliverDout s _ rfl fun _ => Iff.rfl

theorem decfile_outputCapped (h : s.InputFits 0) :
    OutputCapped .decfile s.params (execDecfile s) (execDecfile s.unbounded) := by
  unfold execDecfile
  rw [withInput_of_inputFits h, withInput_unbounded h, State.unbounded_dec, State.unbounded_input,
    State.unbounded_inputFrom]
  split
  · rcases parseHeader_error ‹_› with hst | hst <;> exact outputCapped_fail s rfl hst (by decide)
  · split
    · exact outputCapped_refused _
    · split
      · exact outputCapped_fail s rfl (decodeWalk_error ‹_›) (by decide)
      · exact outputCapped_deliverDout (s.setHeader _ _ _) _ rfl fun _ => Iff.rfl

end

/-- A command whose input lies within its buffer differs from what it does with unbounded output buffers by the capacities
of the output alone. -/
theorem exec_outputCapped {i : Instr} {s : State} (h : InputWithin i s) :
    OutputCapped i s.params (exec i s) (exec i s.unbounded) := by
  cases i with
  | build => exact build_outputCapped
  | bpclr | rembits => exact outputCapped_next rfl (.inr trivial)
  | append v n => exact append_outputCapped v n
  | tobytes => exact outputCapped_deliverEout s _ rfl fun _ => Iff.rfl
  | brload => exact brload_outputCapped h
  | read n => exact read_outputCapped n
  | serialize n => exact serialize_outputCapped n
  | deserialize => exact deserialize_outputCapped h
  | encode => exact encode_outputCapped h
  | encfile => exact encfile_outputCapped h
  | decode => exact decode_outputCapped h
  | decfile => exact decfile_outputCapped h

/-- Settles O57: the input is tested first, and only a delivered output depends on the capacities of the output. -/
theorem capacitiesRefuseWhatExceedsThem : Obligations.CapacitiesRefuseWhatExceedsThem := by
  unfold Obligations.CapacitiesRefuseWhatExceedsThem
  exact fun i s => ⟨exec_of_not_inputWithin, fun h => (exec_outputCapped h).1, fun h => (exec_outputCapped h).2⟩

end Sys2Proof.Machine

/-! The statements of 10_state.md: what every step keeps, what each command may write, what a command reads, and what a host
write stores. -/

namespace Sys2Proof.Machine

/-! ### What each command writes (10_state.md R14, R17, R19, R23; 20_memory.md R40) -/

/-- DECODE and DECFILE emit as many symbols as they are asked for (45_decoder.md R143). -/
theorem walkFrom_length {A : Arena} {n cur k : Nat} {q : List Bool} {r : List Symbol × Nat}
    (h : walkFrom A n cur k q = some r) : r.1.length = n := by
  fun_induction walkFrom A n cur k q generalizing r with
  | case1 => cases h; rfl
  | case2 | case3 | case4 => cases h
  | case5 n cur k b q j hchild hleaf out k' hwalk ih => cases h; simp [ih hwalk]
  | case6 n cur k b q j hchild hleaf ih => exact ih h

theorem decodeWalk_length {T : Table} {n k : Nat} {P : List Byte} {out : List Symbol}
    (h : decodeWalk T n P = .ok (out, k)) : out.length = n := by
  unfold decodeWalk at h
  split at h <;> cases h
  exact walkFrom_length ‹_›

/-- The source length of a header has four bytes (30_encoding.md R60). -/
theorem parseHeader_sourceLength_lt {T₀ T : Table} {bytes : List Byte} {n pos : Nat}
    (h : parseHeader T₀ bytes = .ok (T, n, pos)) : n < 2 ^ 32 := by
  unfold parseHeader at h
  split at h
  · split at h
    · cases h
    · split at h <;> cases h
      exact (leVal_lt [_, _, _, _]).trans_eq (by norm_num)
  · cases h

/-- What a command may have written when only its status and its response are still to come: nothing, if it failed or
answers from what stands; else what its rule lists, within the capacities. -/
inductive CommandWrites (s : State) : Instr → State → Prop where
  | nothing (i : Instr) : CommandWrites s i s
  | table (T : Table) : CommandWrites s .build (s.setEncTable T)
  | clear : CommandWrites s .bpclr (s.setBp [])
  | append (v : BitVec 64) (n : Nat) (q : List Bool) : CommandWrites s (.append v n) (s.setBp q)
  | output (i : Instr) (bs : List Byte) :
      (i = .tobytes ∨ (∃ n, i = .serialize n) ∨ i = .encode ∨ i = .encfile) → Within s.params.eoutCap bs.length →
      CommandWrites s i (s.setEout bs)
  | load : CommandWrites s .brload (s.setReader s.input 0)
  | advance (n : Nat) : n ≤ s.dec.br.remaining →
      CommandWrites s (.read n) (s.setReader s.dec.br.buf (s.dec.br.cursor + n))
  | header (T : Table) (n pos : Nat) : CommandWrites s .deserialize (s.setHeader T n pos)
  | symbols (out : List Symbol) : out.length < 2 ^ 32 → Within s.params.doutCap out.length →
      CommandWrites s .decode (s.setDout out)
  | file (T : Table) (n pos : Nat) (out : List Symbol) : out.length < 2 ^ 32 → Within s.params.doutCap out.length →
      CommandWrites s .decfile ((s.setHeader T n pos).setDout out)

/-- `t` is the state after a command that made its writes and ended with some status and result. -/
def Ends (i : Instr) (s t : State) : Prop :=
  ∃ u st r, CommandWrites s i u ∧ t = u.complete i.port st r

section
variable {i : Instr} {s u t : State} {st : Status} {r : BitVec 64}

theorem CommandWrites.ends (hw : CommandWrites s i u) : Ends i s (u.complete i.port st r) := ⟨u, st, r, hw, rfl⟩

theorem ends_of_failed : Ends i s (s.complete i.port st r) := (CommandWrites.nothing i).ends

theorem serialize_ends {n : Nat} (h : execSerialize n s = .next t) : Ends (.serialize n) s t := by
  rcases execSerialize_cases h with ⟨_, _, rfl⟩ | ⟨b, _, hfit, rfl⟩
  · exact ends_of_failed
  · exact (CommandWrites.output _ b (.inr (.inl ⟨n, rfl⟩)) (fits_iff.mp hfit)).ends

theorem encode_ends (h : execEncode s = .next t) : Ends .encode s t := by
  rcases execEncode_cases h with ⟨_, ⟨_, _, rfl⟩ | ⟨q, _, hfit, rfl⟩⟩
  · exact ends_of_failed
  · exact (CommandWrites.output _ _ (.inr (.inr (.inl rfl))) (fits_iff.mp hfit)).ends

theorem encfile_ends (h : execEncfile s = .next t) : Ends .encfile s t := by
  rcases execEncfile_cases h with ⟨_, ⟨_, _, rfl⟩ | ⟨_, _, _, _, rfl⟩ | ⟨b, q, _, _, hfit, rfl⟩⟩
  · exact ends_of_failed
  · exact ends_of_failed
  · exact (CommandWrites.output _ _ (.inr (.inr (.inr rfl))) (fits_iff.mp hfit)).ends

theorem read_ends {n : Nat} (h : execRead n s = .next t) : Ends (.read n) s t := by
  rcases execRead_cases h with ⟨_, rfl⟩ | ⟨_, _, rfl⟩ | ⟨_, hn, rfl⟩
  · exact ends_of_failed
  · exact ends_of_failed
  · exact (CommandWrites.advance n hn).ends

theorem deserialize_ends (h : execDeserialize s = .next t) : Ends .deserialize s t := by
  rcases execDeserialize_cases h with ⟨_, ⟨_, _, rfl⟩ | ⟨T, n, pos, _, rfl⟩⟩
  · exact ends_of_failed
  · exact (CommandWrites.header T n pos).ends

theorem decode_ends (h : execDecode s = .next t) : Ends .decode s t := by
  rcases execDecode_cases h with ⟨_, _, ⟨_, _, rfl⟩ | ⟨out, k, hwalk, hfit, rfl⟩⟩
  · exact ends_of_failed
  · exact (CommandWrites.symbols out (decodeWalk_length hwalk ▸ s.dec.srclen.isLt) (fits_iff.mp hfit)).ends

theorem decfile_ends (h : execDecfile s = .next t) : Ends .decfile s t := by
  rcases execDecfile_cases h with
    ⟨_, ⟨_, _, rfl⟩ | ⟨T, n, pos, hparse, _, ⟨_, _, rfl⟩ | ⟨out, k, hwalk, hfit, rfl⟩⟩⟩
  · exact ends_of_failed
  · exact ends_of_failed
  · exact (CommandWrites.file T n pos out (decodeWalk_length hwalk ▸ parseHeader_sourceLength_lt hparse)
      (fits_iff.mp hfit)).ends

/-- Every command that answers a next state made the writes of its rule and ended. -/
theorem exec_ends (h : exec i s = .next t) : Ends i s t := by
  cases i with
  | build =>
    rcases execBuild_cases h with ⟨_, _, rfl⟩ | ⟨T, _, rfl⟩
    · exact ends_of_failed
    · exact (CommandWrites.table T).ends
  | bpclr => cases h; exact CommandWrites.clear.ends
  | append v n =>
    rcases execAppend_cases h with ⟨_, rfl⟩ | ⟨_, rfl⟩
    · exact ends_of_failed
    · exact (CommandWrites.append v n _).ends
  | tobytes =>
    obtain ⟨hfit, rfl⟩ := execTobytes_cases h
    exact (CommandWrites.output _ _ (.inl rfl) (fits_iff.mp hfit)).ends
  | brload => obtain ⟨_, rfl⟩ := execBrload_cases h; exact CommandWrites.load.ends
  | rembits => cases h; exact ends_of_failed
  | read n => exact read_ends h
  | serialize n => exact serialize_ends h
  | deserialize => exact deserialize_ends h
  | encode => exact encode_ends h
  | encfile => exact encfile_ends h
  | decode => exact decode_ends h
  | decfile => exact decfile_ends h

end

/-! ### The invariant, one lemma per write -/

theorem filledTo_replace (m : Memory) (bs : List Byte) : (m.replace bs).FilledTo bs.length := fun a => by
  simp [Memory.replace, cellAt_cellsFrom_zero]

theorem filledTo_unwritten (gen : Nat) : (Memory.unwritten gen).FilledTo 0 := fun a => by
  simp [Memory.unwritten, cellAt]

theorem within_zero (cap : Option Nat) : Within cap 0 := fun _ _ => Nat.zero_le _

theorem within_mono {cap : Option Nat} {m n : Nat} (h : m ≤ n) (hn : Within cap n) : Within cap m :=
  fun c hc => h.trans (hn c hc)

/-- A byte that is written after writing `bs` from `a` on is one of these or was written before. -/
theorem isSome_cellAt_writeAll {m : Memory} {a a' : Nat} {bs : List Byte}
    (h : (cellAt a' (m.writeAll a bs).cells).isSome = true) :
    a' < a + bs.length ∨ (cellAt a' m.cells).isSome = true := by
  induction bs generalizing m a with
  | nil => exact .inr h
  | cons b bs ih =>
    rw [List.length_cons]
    rcases ih h with hlt | hsome
    · exact .inl (by omega)
    · by_cases heq : a' = a
      · exact .inl (by omega)
      · exact .inr (by rwa [Memory.write, cellAt_putCell_other heq] at hsome)

/-- What is written within a capacity stays within it. -/
theorem written_within_writeAll {cap : Option Nat} {m : Memory} {a : Nat} {bs : List Byte}
    (hm : ∀ a', (cellAt a' m.cells).isSome = true → Within cap (a' + 1)) (hfit : Within cap (a + bs.length)) :
    ∀ a', (cellAt a' (m.writeAll a bs).cells).isSome = true → Within cap (a' + 1) := fun a' h =>
  (isSome_cellAt_writeAll h).elim (fun hlt => within_mono hlt hfit) (hm a')

namespace State.Inv

variable {s t : State}

/-- The invariant speaks of the parameters and the two units alone. -/
theorem withInbox (h : s.Inv) (acts : List HostAction) : State.Inv { s with inbox := acts } := { h with }

theorem complete (h : s.Inv) (p : Port) (st : Status) (r : BitVec 64) : (s.complete p st r).Inv := by
  have hcode : st.code.toNat ≤ 9 := Nat.le_of_lt_succ (code_lt_ten st)
  cases p with
  | enc => exact { h with enc_status := hcode }
  | dec => exact { h with dec_status := hcode }

theorem setEncTable (h : s.Inv) (T : Table) : (s.setEncTable T).Inv := { h with }

theorem setBp (h : s.Inv) (q : List Bool) : (s.setBp q).Inv := { h with }

theorem setEout (h : s.Inv) {bs : List Byte} (hfit : Within s.params.eoutCap bs.length) : (s.setEout bs).Inv :=
  { h with
    eout_wf := wf_replace _ _
    eout_filled := ⟨bs.length, filledTo_replace _ _, hfit, eoutLenOf_toNat⟩ }

theorem setReader (h : s.Inv) {buf : List Byte} {cursor : Nat} (hcursor : cursor ≤ 8 * buf.length)
    (hbuf : buf.length < 2 ^ 40) : (s.setReader buf cursor).Inv :=
  { h with cursor_le := hcursor, buf_lt := hbuf }

theorem setHeader (h : s.Inv) (T : Table) (n pos : Nat) : (s.setHeader T n pos).Inv := { h with }

theorem setDout (h : s.Inv) {out : List Symbol} (hlt : out.length < 2 ^ 32)
    (hfit : Within s.params.doutCap out.length) : (s.setDout out).Inv := by
  have hlen : (s.setDout out).dec.doutLen.toNat = out.length := by
    rw [setDout_dec_doutLen, BitVec.toNat_ofNat, Nat.mod_eq_of_lt hlt]
  exact { h with
    dout_wf := wf_replace _ _
    dout_filled := hlen.symm ▸ filledTo_replace _ _
    dout_capacity := hlen.symm ▸ hfit }

theorem setFreq (h : s.Inv) (c : Symbol) (w : Weight) : (s.setFreq c w).Inv :=
  { h with
    weight_lt := fun d => by
      rw [setFreq_enc_freq, setFreq_params]
      by_cases hd : d = c
      · rw [hd, Freq.get_put_same]
        exact Nat.mod_lt _ (Nat.two_pow_pos _)
      · rw [Freq.get_put_other hd]
        exact h.weight_lt d }

theorem setEntry (h : s.Inv) (p : Port) (c : Symbol) (e : Entry) : (s.setEntry p c e).Inv := by
  cases p with
  | enc | dec => exact { h with }

theorem writeSource (h : s.Inv) {a : Nat} {bs : List Byte} (hw : writeSource a bs s = .next t) : t.Inv := by
  unfold Machine.writeSource at hw
  split at hw <;> cases hw
  exact { h with
    src_wf := wf_writeAll h.src_wf a bs
    src_capacity := written_within_writeAll h.src_capacity (fits_iff.mp ‹_›) }

theorem writeInput (h : s.Inv) {a : Nat} {bs : List Byte} (hw : writeInput a bs s = .next t) : t.Inv := by
  unfold Machine.writeInput at hw
  split at hw <;> cases hw
  exact { h with
    din_wf := wf_writeAll h.din_wf a bs
    din_capacity := written_within_writeAll h.din_capacity (fits_iff.mp ‹_›) }

theorem resetUnits (s : State) : s.resetUnits.Inv where
  weight_lt c := by
    show (Vector.replicate 256 0)[c.toNat]'c.isLt < _
    rw [Vector.getElem_replicate]
    exact Nat.two_pow_pos _
  src_wf := rfl
  eout_wf := rfl
  din_wf := rfl
  dout_wf := rfl
  src_capacity a h := by cases h
  din_capacity a h := by cases h
  cursor_le := Nat.le_refl 0
  buf_lt := Nat.two_pow_pos 40
  eout_filled := ⟨0, filledTo_unwritten _, within_zero _, fun _ => rfl⟩
  dout_filled := filledTo_unwritten _
  dout_capacity := within_zero _
  enc_status := Nat.zero_le 9
  dec_status := Nat.zero_le 9

theorem commandWrites (h : s.Inv) {i : Instr} (hw : CommandWrites s i t) : t.Inv := by
  cases hw with
  | nothing => exact h
  | table T => exact h.setEncTable T
  | clear | append => exact h.setBp _
  | output _ bs _ hfit => exact h.setEout hfit
  | load => exact h.setReader (Nat.zero_le _) (slice_length _ _ _ _ ▸ s.dec.dinLen.isLt)
  | advance n hn =>
    have hcursor := h.cursor_le
    unfold Reader.remaining at hn
    exact h.setReader (by omega) h.buf_lt
  | header T n pos => exact h.setHeader T n pos
  | symbols out hlt hfit => exact h.setDout hlt hfit
  | file T n pos out hlt hfit => exact (h.setHeader T n pos).setDout hlt hfit

theorem exec (h : s.Inv) {i : Instr} (he : exec i s = .next t) : t.Inv := by
  obtain ⟨u, st, r, hw, rfl⟩ := exec_ends he
  exact (h.commandWrites hw).complete _ st r

theorem issue (h : s.Inv) {p : Port} {w : Cmd} (he : issue p w s = .next t) : t.Inv := by
  unfold Machine.issue at he
  split at he
  · exact h.exec he
  · cases he
    exact h.complete p _ _

theorem perform (h : s.Inv) {act : HostAction} (hp : perform act s = .next t) : t.Inv := by
  cases act with
  | command p w => exact h.issue hp
  | writeSrc a b => exact h.writeSource hp
  | writeDin | copyEoutToDin => exact h.writeInput hp
  | writeFreq c w => cases hp; exact h.setFreq c w
  | writeEntry p c len word => cases hp; exact h.setEntry p c _
  | writeSrcLen | writeDinLen | writeSrclen | writePayOff => cases hp; exact { h with }
  | reset => cases hp; exact resetUnits s

end State.Inv

/-! ### Steps -/

theorem step_idle {s : State} (h : s.inbox = []) : step s = .next s := by rw [step, h]

theorem step_perform {s : State} {act : HostAction} {rest : List HostAction} (h : s.inbox = act :: rest) :
    step s = perform act { s with inbox := rest } := by rw [step, h]

/-- Settles O18: every write of a command or of the host keeps the invariant, and so does the end of a command. -/
theorem stepKeepsTheInvariant : Obligations.StepKeepsTheInvariant := by
  unfold Obligations.StepKeepsTheInvariant
  intro s t hinv hstep
  cases hbox : s.inbox with
  | nil =>
    rw [step_idle hbox] at hstep
    cases hstep
    exact hinv
  | cons act rest =>
    rw [step_perform hbox] at hstep
    exact (hinv.withInbox rest).perform hstep

/-! ### The frame of a command (10_state.md R14, R17, R19, R23; 20_memory.md R40, R46) -/

/-- What the command `i` leaves unchanged, field by field, between `s` and `t`. -/
structure Framed (i : Instr) (s t : State) : Prop where
  inbox : t.inbox = s.inbox
  params : t.params = s.params
  freq : t.enc.freq = s.enc.freq
  src : t.enc.src = s.enc.src
  srcLen : t.enc.srcLen = s.enc.srcLen
  din : t.dec.din = s.dec.din
  dinLen : t.dec.dinLen = s.dec.dinLen
  encTable : i ≠ .build → t.enc.ct = s.enc.ct
  packer : i ≠ .bpclr → (∀ v n, i ≠ .append v n) → t.enc.bp = s.enc.bp
  output : i ≠ .tobytes → (∀ n, i ≠ .serialize n) → i ≠ .encode → i ≠ .encfile →
    t.enc.eoutLen = s.enc.eoutLen ∧ t.enc.eout = s.enc.eout
  reader : i ≠ .brload → (∀ n, i ≠ .read n) → t.dec.br = s.dec.br
  header : i ≠ .deserialize → i ≠ .decfile →
    t.dec.ct = s.dec.ct ∧ t.dec.srclen = s.dec.srclen ∧ t.dec.payOff = s.dec.payOff
  symbols : i ≠ .decode → i ≠ .decfile → t.dec.doutLen = s.dec.doutLen ∧ t.dec.dout = s.dec.dout

section
variable {i : Instr} {s t : State}

theorem CommandWrites.framed (hw : CommandWrites s i t) : Framed i s t := by
  cases hw with
  | output _ bs hi _ => rcases hi with rfl | ⟨n, rfl⟩ | rfl | rfl <;> constructor <;> simp
  | nothing | table | clear | append | load | advance | header | symbols | file => constructor <;> simp

/-- The end of a command writes LASTERR and the responses alone. -/
theorem Framed.complete (h : Framed i s t) (p : Port) (st : Status) (r : BitVec 64) :
    Framed i s (t.complete p st r) := by
  cases p with
  | enc | dec => exact { h with }

theorem exec_framed (h : exec i s = .next t) : Framed i s t := by
  obtain ⟨u, st, r, hw, rfl⟩ := exec_ends h
  exact hw.framed.complete _ st r

end

/-! ### A command and the other unit (10_state.md R11) -/

/-- The answer of a command with its next state changed by `f`. -/
def mapNext (f : State → State) : Result → Result
  | .next t => .next (f t)
  | .fault r => .fault r
  | .refused r => .refused r

/-- The same unit ENC in a part with another unit DEC and other host actions to come. -/
def State.besideDec (d : Dec) (acts : List HostAction) (s : State) : State := { s with dec := d, inbox := acts }

/-- The same unit DEC in a part with another unit ENC and other host actions to come. -/
def State.besideEnc (e : Enc) (acts : List HostAction) (s : State) : State := { s with enc := e, inbox := acts }

section
variable (s : State) (d : Dec) (e : Enc) (acts : List HostAction)
@[simp] theorem State.besideDec_enc : (s.besideDec d acts).enc = s.enc := rfl
@[simp] theorem State.besideDec_params : (s.besideDec d acts).params = s.params := rfl
@[simp] theorem State.besideDec_source : (s.besideDec d acts).source = s.source := rfl
@[simp] theorem State.besideEnc_dec : (s.besideEnc e acts).dec = s.dec := rfl
@[simp] theorem State.besideEnc_params : (s.besideEnc e acts).params = s.params := rfl
@[simp] theorem State.besideEnc_input : (s.besideEnc e acts).input = s.input := rfl
@[simp] theorem State.besideEnc_inputFrom : (s.besideEnc e acts).inputFrom = s.inputFrom := rfl
end

section
variable (s : State) (d : Dec) (acts : List HostAction)

theorem deliverEout_besideDec (bs : List Byte) :
    deliverEout bs (s.besideDec d acts) = mapNext (State.besideDec d acts) (deliverEout bs s) := by
  unfold deliverEout
  rw [State.besideDec_params]
  split <;> rfl

theorem withSource_besideDec {k k' : List Symbol → Result}
    (h : k' s.source = mapNext (State.besideDec d acts) (k s.source)) :
    withSource (s.besideDec d acts) k' = mapNext (State.besideDec d acts) (withSource s k) := by
  unfold withSource
  rw [State.besideDec_params, State.besideDec_enc, State.besideDec_source]
  split
  · exact h
  · rfl

theorem execBuild_besideDec :
    execBuild (s.besideDec d acts) = mapNext (State.besideDec d acts) (execBuild s) := by
  unfold execBuild
  rw [State.besideDec_enc]
  split <;> rfl

theorem execAppend_besideDec (v : BitVec 64) (n : Nat) :
    execAppend v n (s.besideDec d acts) = mapNext (State.besideDec d acts) (execAppend v n s) := by
  unfold execAppend
  split <;> rfl

theorem execSerialize_besideDec (n : Nat) :
    execSerialize n (s.besideDec d acts) = mapNext (State.besideDec d acts) (execSerialize n s) := by
  unfold execSerialize
  rw [State.besideDec_enc]
  split
  · rfl
  · exact deliverEout_besideDec s d acts _

theorem execEncode_besideDec :
    execEncode (s.besideDec d acts) = mapNext (State.besideDec d acts) (execEncode s) := by
  refine withSource_besideDec s d acts ?_
  rw [State.besideDec_enc]
  split
  · rfl
  · exact deliverEout_besideDec s d acts _

theorem execEncfile_besideDec :
    execEncfile (s.besideDec d acts) = mapNext (State.besideDec d acts) (execEncfile s) := by
  refine withSource_besideDec s d acts ?_
  rw [State.besideDec_enc]
  split
  · rfl
  · split
    · rfl
    · exact deliverEout_besideDec s d acts _

/-- A command of ENC gives the same answer beside any unit DEC, and leaves that unit as it is. -/
theorem exec_besideDec {i : Instr} (hi : i.port = .enc) :
    exec i (s.besideDec d acts) = mapNext (State.besideDec d acts) (exec i s) := by
  cases i with
  | build => exact execBuild_besideDec s d acts
  | bpclr => rfl
  | append v n => exact execAppend_besideDec s d acts v n
  | tobytes => exact deliverEout_besideDec s d acts _
  | serialize n => exact execSerialize_besideDec s d acts n
  | encode => exact execEncode_besideDec s d acts
  | encfile => exact execEncfile_besideDec s d acts
  | brload | read | rembits | deserialize | decode | decfile => cases hi

end

section
variable (s : State) (e : Enc) (acts : List HostAction)

theorem deliverDout_besideEnc (out : List Symbol) :
    deliverDout out (s.besideEnc e acts) = mapNext (State.besideEnc e acts) (deliverDout out s) := by
  unfold deliverDout
  rw [State.besideEnc_params]
  split <;> rfl

theorem withInput_besideEnc {off : Nat} {k k' : Result} (h : k' = mapNext (State.besideEnc e acts) k) :
    withInput off (s.besideEnc e acts) k' = mapNext (State.besideEnc e acts) (withInput off s k) := by
  unfold withInput
  rw [State.besideEnc_params, State.besideEnc_dec]
  split
  · exact h
  · rfl

theorem execRead_besideEnc (n : Nat) :
    execRead n (s.besideEnc e acts) = mapNext (State.besideEnc e acts) (execRead n s) := by
  unfold execRead
  rw [State.besideEnc_dec]
  split_ifs <;> rfl

theorem execDeserialize_besideEnc :
    execDeserialize (s.besideEnc e acts) = mapNext (State.besideEnc e acts) (execDeserialize s) := by
  refine withInput_besideEnc s e acts ?_
  rw [State.besideEnc_dec, State.besideEnc_input]
  split <;> rfl

theorem execDecode_besideEnc :
    execDecode (s.besideEnc e acts) = mapNext (State.besideEnc e acts) (execDecode s) := by
  refine withInput_besideEnc s e acts ?_
  rw [State.besideEnc_dec, State.besideEnc_inputFrom]
  split
  · rfl
  · split
    · rfl
    · exact deliverDout_besideEnc s e acts _

theorem execDecfile_besideEnc :
    execDecfile (s.besideEnc e acts) = mapNext (State.besideEnc e acts) (execDecfile s) := by
  refine withInput_besideEnc s e acts ?_
  rw [State.besideEnc_dec, State.besideEnc_input, State.besideEnc_inputFrom]
  split
  · rfl
  · split
    · rfl
    · split
      · rfl
      · exact deliverDout_besideEnc (s.setHeader _ _ _) e acts _

/-- A command of DEC gives the same answer beside any unit ENC, and leaves that unit as it is. -/
theorem exec_besideEnc {i : Instr} (hi : i.port = .dec) :
    exec i (s.besideEnc e acts) = mapNext (State.besideEnc e acts) (exec i s) := by
  cases i with
  | brload => exact withInput_besideEnc s e acts rfl
  | read n => exact execRead_besideEnc s e acts n
  | rembits => rfl
  | deserialize => exact execDeserialize_besideEnc s e acts
  | decode => exact execDecode_besideEnc s e acts
  | decfile => exact execDecfile_besideEnc s e acts
  | build | bpclr | append | tobytes | serialize | encode | encfile => cases hi

end

section
variable {i : Instr} {s s' t : State}

theorem exec_enc_agreeing (hi : i.port = .enc) (h : exec i s = .next t) (hparams : s'.params = s.params)
    (henc : s'.enc = s.enc) : exec i s' = .next { s' with enc := t.enc } := by
  have hs' : s.besideDec s'.dec s'.inbox = s' := by rw [State.besideDec, ← hparams, ← henc]
  have hexec := exec_besideDec s s'.dec s'.inbox hi
  rw [hs', h, mapNext, State.besideDec, (exec_framed h).params, ← hparams] at hexec
  exact hexec

theorem exec_dec_agreeing (hi : i.port = .dec) (h : exec i s = .next t) (hparams : s'.params = s.params)
    (hdec : s'.dec = s.dec) : exec i s' = .next { s' with dec := t.dec } := by
  have hs' : s.besideEnc s'.enc s'.inbox = s' := by rw [State.besideEnc, ← hparams, ← hdec]
  have hexec := exec_besideEnc s s'.enc s'.inbox hi
  rw [hs', h, mapNext, State.besideEnc, (exec_framed h).params, ← hparams] at hexec
  exact hexec

/-- A command of ENC leaves DEC as it is. -/
theorem exec_leaves_dec (hi : i.port = .enc) (h : exec i s = .next t) : t.dec = s.dec := by
  have hself := exec_enc_agreeing hi h rfl rfl
  rw [h] at hself
  have hleft := congrArg State.dec (Host.Outcome.next.inj hself)
  exact hleft

/-- A command of DEC leaves ENC as it is. -/
theorem exec_leaves_enc (hi : i.port = .dec) (h : exec i s = .next t) : t.enc = s.enc := by
  have hself := exec_dec_agreeing hi h rfl rfl
  rw [h] at hself
  have hleft := congrArg State.enc (Host.Outcome.next.inj hself)
  exact hleft

end

/-- Settles O23: a command commutes with the replacement of the other unit. -/
theorem commandsUseOnlyTheirUnit : Obligations.CommandsUseOnlyTheirUnit := by
  unfold Obligations.CommandsUseOnlyTheirUnit
  intro i s t h
  exact ⟨(exec_framed h).inbox, (exec_framed h).params,
    fun hi => ⟨exec_leaves_dec hi h, fun _ => exec_enc_agreeing hi h⟩,
    fun hi => ⟨exec_leaves_enc hi h, fun _ => exec_dec_agreeing hi h⟩⟩

/-- Settles O26: the writes of each rule and the end of a command leave the fields of `Framed` as they were. -/
theorem frameOfEveryCommand : Obligations.FrameOfEveryCommand := by
  unfold Obligations.FrameOfEveryCommand
  intro i s t h
  have hf := exec_framed h
  refine ⟨fun a => ?src, fun a => ?din, fun c => ?freq, hf.srcLen, hf.dinLen, hf.inbox, hf.params,
    fun hi c => ?encTable, hf.packer, fun h1 h2 h3 h4 => ?output, hf.reader, fun h1 h2 => ?header,
    fun h1 h2 => ?symbols, fun hi => ?decLasterr, fun hi => ?encLasterr⟩
  case src => rw [readByte, hf.src, readByte]
  case din => rw [readByte, hf.din, readByte]
  case freq => rw [readFreq, hf.freq, readFreq]
  case encTable => rw [readEntry, hf.encTable hi, readEntry]
  case output =>
    obtain ⟨hlen, hmem⟩ := hf.output h1 h2 h3 h4
    exact ⟨hlen, fun a => by rw [readByte, hmem, readByte]⟩
  case header =>
    obtain ⟨htable, hlen, hoff⟩ := hf.header h1 h2
    exact ⟨fun c => by rw [readEntry, htable, readEntry], hlen, hoff⟩
  case symbols =>
    obtain ⟨hlen, hmem⟩ := hf.symbols h1 h2
    exact ⟨hlen, fun a => by rw [readByte, hmem, readByte]⟩
  case decLasterr => rw [exec_leaves_dec hi h]
  case encLasterr => rw [exec_leaves_enc hi h]

/-! ### LASTERR (10_state.md R21) -/

/-- Settles O25: every path of a command of the unit reads other fields and ends by writing LASTERR, or is refused. -/
theorem noCommandReadsLasterr : Obligations.NoCommandReadsLasterr := by
  unfold Obligations.NoCommandReadsLasterr
  intro i s c
  cases i with
  | build | bpclr | append | tobytes | serialize | encode | encfile => exact ⟨fun _ => rfl, fun hi => by cases hi⟩
  | brload | read | rembits | deserialize | decode | decfile => exact ⟨fun hi => (by cases hi), fun _ => rfl⟩

/-! ### What SERIALIZE, ENCODE and ENCFILE read (10_state.md R12, 20_memory.md R40) -/

section
variable {T T' : Table}

theorem Table.Same.len (h : T'.Same T) (c : Symbol) : (T'.get c).len = (T.get c).len := (h c).1

theorem Table.Same.value (h : T'.Same T) (c : Symbol) : (T'.get c).value = (T.get c).value := (h c).2

/-- `Code(T, s)` is made of the value of the entry (10_state.md R24). -/
theorem Table.code_eq_value (T : Table) (c : Symbol) :
    T.code c = bitsMsb (T.get c).value (T.get c).len.toNat := (bitsMsb_mod _ _).symm

theorem Table.Same.code (h : T'.Same T) (c : Symbol) : T'.code c = T.code c := by
  rw [Table.code_eq_value, h.value, h.len, ← Table.code_eq_value]

theorem Table.Same.alphabet (h : T'.Same T) : T'.alphabet = T.alphabet := by
  rw [Table.alphabet_eq, Table.alphabet_eq]
  exact List.filter_congr fun c _ => by rw [h.len]

theorem Table.Same.entryBytes (h : T'.Same T) (c : Symbol) : entryBytes T' c = entryBytes T c := by
  rw [Machine.entryBytes, h.len, h.value, ← Machine.entryBytes]

theorem Table.Same.header (h : T'.Same T) (n : Nat) : header T' n = header T n := by
  have hbody : headerBody T' n = headerBody T n := by
    rw [headerBody, h.alphabet, funext h.entryBytes, ← headerBody]
  rw [Machine.header, h.alphabet, hbody, ← Machine.header]

theorem Table.Same.encodeBits (h : T'.Same T) (x : List Symbol) : encodeBits T' x = encodeBits T x := by
  induction x with
  | nil => rfl
  | cons c x ih => rw [Machine.encodeBits, Machine.encodeBits, h.len, h.code, ih]

end

/-! ### How long their outputs are (10_state.md R18) -/

theorem ceil8_len_le (len : CodeLen) : ceil8 len.toNat ≤ 32 := by
  have := len.isLt
  unfold ceil8
  omega

theorem entryBytes_length_le (T : Table) (c : Symbol) : (entryBytes T c).length ≤ 34 := by
  have := ceil8_len_le (T.get c).len
  simp only [entryBytes, List.length_cons, leBytes_length]
  omega

theorem header_length_le {T : Table} {n : Nat} {b : List Byte} (h : header T n = .ok b) : b.length ≤ 8711 := by
  have hentries : (T.alphabet.flatMap (entryBytes T)).length ≤ T.alphabet.length * 34 := by
    rw [List.length_flatMap]
    simpa using List.sum_le_card_nsmul (T.alphabet.map fun c => (entryBytes T c).length) 34
      (List.forall_mem_map.mpr fun c _ => entryBytes_length_le T c)
  have halphabet := T.alphabet_length_le
  unfold header at h
  split at h <;> cases h
  simp only [headerBody, List.length_append, List.length_cons, leBytes_length]
  omega

theorem encodeBits_length_le {T : Table} {x : List Symbol} {q : List Bool} (h : encodeBits T x = .ok q) :
    q.length ≤ 255 * x.length := by
  induction x generalizing q with
  | nil => cases h; exact Nat.le_refl _
  | cons c x ih =>
    unfold encodeBits at h
    split at h
    · cases h
    · split at h <;> cases h
      have hrest := ih ‹_›
      have hcode := (T.get c).len.isLt
      rw [List.length_append, Table.code_length, List.length_cons]
      omega

theorem payload_length_le {s : State} {q : List Bool} (h : encodeBits s.enc.ct s.source = .ok q) :
    (pack q).length < 2 ^ 37 := by
  have hbits := encodeBits_length_le h
  have hlen := s.enc.srcLen.isLt
  rw [State.source, slice_length] at hbits
  rw [pack_length, ceil8]
  omega

/-! ### The same status and the same output -/

/-- Two runs of a command of ENC end with the same status and, if it is success, with the same output. -/
def SameAnswer (t t' : State) : Prop :=
  t'.enc.lasterr = t.enc.lasterr ∧ (t.enc.lasterr = 0#8 → t'.output = t.output ∧ t'.enc.eoutLen = t.enc.eoutLen)

section
variable {s s' t : State}

theorem sameAnswer_of_fail {st cause : Status} (hst : st = cause) (hcause : cause ≠ .ok)
    (h : fail .enc st s = .next t) : ∃ t', fail .enc st s' = .next t' ∧ SameAnswer t t' := by
  cases h
  exact ⟨_, rfl, rfl, fun hok => absurd (hst ▸ code_eq_zero.mp hok) hcause⟩

/-- An output of fewer than 2^40 bytes is shown whole, and so does not depend on what EOUT held before (log 8). -/
theorem sameAnswer_of_deliverEout {bs : List Byte} (hparams : s'.params = s.params) (hlen : bs.length < 2 ^ 40)
    (h : deliverEout bs s = .next t) : ∃ t', deliverEout bs s' = .next t' ∧ SameAnswer t t' := by
  obtain ⟨hfit, rfl⟩ := deliverEout_next h
  refine ⟨(s'.setEout bs).complete .enc .ok 0#64, ?_, rfl, fun _ => ⟨?_, ?_⟩⟩
  · rw [deliverEout, hparams, if_pos hfit, succeed_eq]
  · exact (output_setEout hlen s').trans (output_setEout hlen s).symm
  · exact BitVec.eq_of_toNat_eq ((eoutLenOf_toNat hlen).trans (eoutLenOf_toNat hlen).symm)

/-- The sources of two states are the same if SRC_LEN and the bytes of SRC below it are. -/
theorem source_eq_of_agree (hlen : s'.enc.srcLen = s.enc.srcLen)
    (hsrc : ∀ a, a < s.enc.srcLen.toNat → readByte .src a s' = readByte .src a s) : s'.source = s.source := by
  rw [State.source, State.source, hlen]
  exact slice_congr fun a _ ha => hsrc a (by omega)

end

section
variable {s s' t : State}
variable (hparams : s'.params = s.params) (hct : s'.enc.ct.Same s.enc.ct)
include hparams hct

theorem execSerialize_sameAnswer {n : Nat} (h : execSerialize n s = .next t) :
    ∃ t', execSerialize n s' = .next t' ∧ SameAnswer t t' := by
  unfold execSerialize at h ⊢
  rw [hct.header]
  split at h
  · exact sameAnswer_of_fail (header_error ‹_›) (by decide) h
  · have := header_length_le ‹_›
    exact sameAnswer_of_deliverEout hparams (by omega) h

variable (hlen : s'.enc.srcLen = s.enc.srcLen) (hsource : s'.source = s.source)
include hlen hsource

theorem execEncode_sameAnswer (h : execEncode s = .next t) : ∃ t', execEncode s' = .next t' ∧ SameAnswer t t' := by
  obtain ⟨hfit, h⟩ := withSource_next h
  rw [execEncode, withSource_of_fits (by rwa [hparams, hlen]), hsource, hct.encodeBits]
  split at h
  · exact sameAnswer_of_fail (encodeBits_error ‹_›) (by decide) h
  · have := payload_length_le ‹_›
    exact sameAnswer_of_deliverEout hparams (by omega) h

theorem execEncfile_sameAnswer (h : execEncfile s = .next t) :
    ∃ t', execEncfile s' = .next t' ∧ SameAnswer t t' := by
  obtain ⟨hfit, h⟩ := withSource_next h
  rw [execEncfile, withSource_of_fits (by rwa [hparams, hlen]), hsource, hlen, hct.header, hct.encodeBits]
  split at h
  · exact sameAnswer_of_fail (header_error ‹_›) (by decide) h
  · split at h
    · exact sameAnswer_of_fail (encodeBits_error ‹_›) (by decide) h
    · have hb := header_length_le ‹_›
      have hq := payload_length_le ‹_›
      exact sameAnswer_of_deliverEout hparams (by rw [List.length_append]; omega) h

end

/-- Settles O48: header and payload are functions of the significant state, and too short to leave EOUT_LEN free. -/
theorem encodingReadsOnlySignificantState : Obligations.EncodingReadsOnlySignificantState := by
  unfold Obligations.EncodingReadsOnlySignificantState
  intro i s s' t hi hparams hct hlen hsrc h
  have hsource := source_eq_of_agree hlen hsrc
  rcases hi with rfl | rfl | ⟨n, rfl⟩
  · exact execEncode_sameAnswer hparams hct hlen hsource h
  · exact execEncfile_sameAnswer hparams hct hlen hsource h
  · exact execSerialize_sameAnswer hparams hct h

/-! ### Host writes (10_state.md R13 to R16, 60_exceptions.md R171) -/

/-- Settles O6: the step takes the command word, and its port decodes it. -/
theorem stepRunsTheDecodedCommand : Obligations.StepRunsTheDecodedCommand := by
  unfold Obligations.StepRunsTheDecodedCommand
  intro s p w i rest hbox hdecode
  rw [step_perform hbox, perform, issue, hdecode]

/-- Settles O10: each register has its own action, which writes the field of that register. -/
theorem hostRegisterWritesChangeOneRegister : Obligations.HostRegisterWritesChangeOneRegister := by
  unfold Obligations.HostRegisterWritesChangeOneRegister
  intro s rest
  exact ⟨fun _ => step_perform, fun _ => step_perform, fun _ => step_perform, fun _ => step_perform⟩

/-- Settles O11: a table after a write of one entry holds it there and is unchanged elsewhere. -/
theorem hostTableWritesChangeOneEntry : Obligations.HostTableWritesChangeOneEntry := by
  unfold Obligations.HostTableWritesChangeOneEntry
  intro s rest
  refine ⟨fun c w hbox => ?freq, fun c len word hbox => ?enc, fun c len word hbox => ?dec⟩
  case freq =>
    have hstored := s.enc.freq.get_put_same c (w % 2 ^ s.params.weightW)
    exact ⟨_, step_perform hbox, fun hw => hstored.trans (Nat.mod_eq_of_lt hw), hstored,
      fun _ hc => Freq.get_put_other hc _⟩
  case enc => exact ⟨_, step_perform hbox, Table.get_put_same _ _ _, fun _ hc => Table.get_put_other hc _⟩
  case dec => exact ⟨_, step_perform hbox, Table.get_put_same _ _ _, fun _ hc => Table.get_put_other hc _⟩

/-! ### What registers show (10_state.md R15 to R19) -/

theorem readReg_lt (r : Reg) (s : State) : readReg r s < 2 ^ r.width := by
  cases r with
  | encLasterr | encSrcLen | encEoutLen | decLasterr | decDinLen | decSrclen | decPayOff | decDoutLen =>
    exact BitVec.isLt _
  | encBpNbits | decBrCursor | decBrNbytes => exact Nat.mod_lt _ (Nat.two_pow_pos _)

/-- Settles O15: the invariant bounds the reader's bytes, and through them its cursor. -/
theorem registersShowTheirContent : Obligations.RegistersShowTheirContent := by
  unfold Obligations.RegistersShowTheirContent
  refine ⟨readReg_lt, fun s h => ⟨rfl, Nat.mod_eq_of_lt ?_, Nat.mod_eq_of_lt h.buf_lt⟩⟩
  have hcursor := h.cursor_le
  have hbuf := h.buf_lt
  omega

end Sys2Proof.Machine

/-! The statements of 20_memory.md: what a host write of a byte stores, which bytes of DIN a command reads, and the
invariant at reset. -/

namespace Sys2Proof.Machine

/-! ### Host writes of bytes (20_memory.md R40, 00_scope.md R6) -/

section
variable {s : State} {a : Nat} {bs : List Byte}

theorem writeSource_of_within (h : Within s.params.srcCap (a + bs.length)) :
    writeSource a bs s = .next { s with enc := { s.enc with src := s.enc.src.writeAll a bs } } :=
  if_pos (fits_iff.mpr h)

theorem writeSource_of_not_within (h : ¬ Within s.params.srcCap (a + bs.length)) :
    writeSource a bs s = .refused .bufferCapacity :=
  if_neg (mt fits_iff.mp h)

theorem writeInput_of_within (h : Within s.params.dinCap (a + bs.length)) :
    writeInput a bs s = .next { s with dec := { s.dec with din := s.dec.din.writeAll a bs } } :=
  if_pos (fits_iff.mpr h)

theorem writeInput_of_not_within (h : ¬ Within s.params.dinCap (a + bs.length)) :
    writeInput a bs s = .refused .bufferCapacity :=
  if_neg (mt fits_iff.mp h)

end

/-- Settles O12: a write of one byte is `writeAll` of one byte, which is read back there and nowhere else. -/
theorem hostByteWritesChangeOneByte : Obligations.HostByteWritesChangeOneByte := by
  unfold Obligations.HostByteWritesChangeOneByte
  intro s a b rest
  refine ⟨fun hbox => ?src, fun hbox => ?din⟩
  case src =>
    rw [step_perform hbox]
    exact ⟨fun hfit => ⟨s.enc.src.write a b, writeSource_of_within hfit, read_write_same _ _ _ _,
      fun _ ha => read_write_other ha b⟩, fun hfit => writeSource_of_not_within hfit⟩
  case din =>
    rw [step_perform hbox]
    exact ⟨fun hfit => ⟨s.dec.din.write a b, writeInput_of_within hfit, read_write_same _ _ _ _,
      fun _ ha => read_write_other ha b⟩, fun hfit => writeInput_of_not_within hfit⟩

/-! ### The bytes of DIN that a command reads (20_memory.md R40) -/

/-- The same machine with another content of DIN. -/
def State.withDin (m : Memory) (s : State) : State := { s with dec := { s.dec with din := m } }

/-- `m` holds the bytes of DIN below DIN_LEN, whatever it holds at or beyond it. -/
def State.InputHeldBy (m : Memory) (s : State) : Prop :=
  ∀ a, a < s.dec.dinLen.toNat → m.read .din a = readByte .din a s

section
variable (m : Memory) (s : State)
@[simp] theorem State.withDin_params : (s.withDin m).params = s.params := rfl
@[simp] theorem State.withDin_dec_dinLen : (s.withDin m).dec.dinLen = s.dec.dinLen := rfl
@[simp] theorem State.withDin_dec_srclen : (s.withDin m).dec.srclen = s.dec.srclen := rfl
@[simp] theorem State.withDin_dec_payOff : (s.withDin m).dec.payOff = s.dec.payOff := rfl
@[simp] theorem State.withDin_dec_br : (s.withDin m).dec.br = s.dec.br := rfl
@[simp] theorem State.withDin_dec_ct : (s.withDin m).dec.ct = s.dec.ct := rfl
@[simp] theorem State.withDin_dec_tableDraws : (s.withDin m).dec.tableDraws = s.dec.tableDraws := rfl
end

section
variable {m : Memory} {s : State}

theorem State.InputHeldBy.inputFrom (h : s.InputHeldBy m) (off : Nat) :
    (s.withDin m).inputFrom off = s.inputFrom off :=
  slice_congr fun a _ ha => h a (by rw [State.withDin_dec_dinLen] at ha; omega)

theorem State.InputHeldBy.input (h : s.InputHeldBy m) : (s.withDin m).input = s.input := h.inputFrom 0

theorem deliverDout_withDin (out : List Symbol) :
    deliverDout out (s.withDin m) = mapNext (State.withDin m) (deliverDout out s) := by
  unfold deliverDout
  rw [State.withDin_params]
  split <;> rfl

/-- Whether an input fits DIN depends on DIN_LEN and on no byte. -/
theorem withInput_withDin {off : Nat} {k k' : Result} (h : k' = mapNext (State.withDin m) k) :
    withInput off (s.withDin m) k' = mapNext (State.withDin m) (withInput off s k) := by
  unfold withInput
  rw [State.withDin_params, State.withDin_dec_dinLen]
  split
  · exact h
  · rfl

theorem execRead_withDin (n : Nat) : execRead n (s.withDin m) = mapNext (State.withDin m) (execRead n s) := by
  unfold execRead
  rw [State.withDin_dec_br]
  split_ifs <;> rfl

theorem execBrload_withDin (h : s.InputHeldBy m) :
    execBrload (s.withDin m) = mapNext (State.withDin m) (execBrload s) := by
  refine withInput_withDin ?_
  rw [h.input]
  rfl

theorem execDeserialize_withDin (h : s.InputHeldBy m) :
    execDeserialize (s.withDin m) = mapNext (State.withDin m) (execDeserialize s) := by
  refine withInput_withDin ?_
  rw [State.withDin_dec_tableDraws, h.input]
  split <;> rfl

theorem execDecode_withDin (h : s.InputHeldBy m) :
    execDecode (s.withDin m) = mapNext (State.withDin m) (execDecode s) := by
  refine withInput_withDin ?_
  rw [State.withDin_dec_ct, State.withDin_dec_srclen, State.withDin_dec_payOff, h.inputFrom]
  split
  · rfl
  · split
    · rfl
    · exact deliverDout_withDin _

theorem execDecfile_withDin (h : s.InputHeldBy m) :
    execDecfile (s.withDin m) = mapNext (State.withDin m) (execDecfile s) := by
  refine withInput_withDin ?_
  rw [State.withDin_dec_tableDraws, h.input]
  split
  · rfl
  · rw [h.inputFrom]
    split
    · rfl
    · split
      · rfl
      · exact deliverDout_withDin (s := s.setHeader _ _ _) _

/-- A command of DEC gives the same answer whatever bytes DIN holds at or beyond DIN_LEN, and leaves them as they are. -/
theorem exec_withDin {i : Instr} (hi : i.port = .dec) (h : s.InputHeldBy m) :
    exec i (s.withDin m) = mapNext (State.withDin m) (exec i s) := by
  cases i with
  | brload => exact execBrload_withDin h
  | read n => exact execRead_withDin n
  | rembits => rfl
  | deserialize => exact execDeserialize_withDin h
  | decode => exact execDecode_withDin h
  | decfile => exact execDecfile_withDin h
  | build | bpclr | append | tobytes | serialize | encode | encfile => cases hi

end

/-- Settles O56: exchanging DIN for one with the same input commutes with every command of DEC. -/
theorem inputBeyondItsLengthIsNotRead : Obligations.InputBeyondItsLengthIsNotRead := by
  unfold Obligations.InputBeyondItsLengthIsNotRead
  intro i s t m hi hm hexec
  exact (exec_withDin hi hm).trans (congrArg (mapNext (State.withDin m)) hexec)

/-! ### The invariant at reset (10_state.md section 8) -/

/-- A part at reset differs from the same part after the reset action in the buffers' `gen` alone, of which the invariant
says nothing. -/
theorem State.Inv.resetWith (P : Params) : (State.resetWith P).Inv :=
  { State.Inv.resetUnits (State.resetWith P) with }

/-- Settles O17: the defaults of R6 are one choice of the parameters. -/
theorem resetMeetsTheInvariant : Obligations.ResetMeetsTheInvariant :=
  ⟨State.Inv.resetWith Params.default, State.Inv.resetWith⟩

end Sys2Proof.Machine

/-! The statements of 30_encoding.md: command words and the opcode map, the response, and what the host's assembler lines
do. -/

namespace Sys2Proof.Machine

/-! ### The opcode map (30_encoding.md R75 to R77) -/

/-- What a port reads from a word that is a row of the opcode map. -/
theorem decode_of_row {w : Cmd} {i : Instr} (h : decodeRow w = some i) (p : Port) :
    decode p w = if i.port = p then .ok i else .error .otherUnit := by rw [decode, h]

theorem port_ne_other (p : Port) : p ≠ p.other := by cases p <;> decide

/-- A well-formed command stands in the row of its opcode, and its operands in the fields the row reads. -/
theorem decodeRow_encode {i : Instr} (h : i.wellFormed = true) : decodeRow (encode i) = some i := by
  obtain ⟨hop, ha, hv⟩ := Laws.CmdFields.fields i
  unfold decodeRow
  rw [hop, ha, hv]
  cases i with
  | append v n | read n =>
    have hn : n < 2 ^ 8 := of_decide_eq_true h
    simpa [Instr.opcode, Instr.fieldA, Instr.fieldV] using hn
  | serialize n =>
    have hn : n < 2 ^ 32 := of_decide_eq_true h
    simpa [Instr.opcode, Instr.fieldV] using hn
  | build | bpclr | tobytes | brload | rembits | deserialize | encode | encfile | decode | decfile => rfl

/-- Settles O1: the row of the word is the command, and exactly one port is the command's. -/
theorem decodeInvertsEncode : Obligations.DecodeInvertsEncode := by
  unfold Obligations.DecodeInvertsEncode
  intro i h
  have hrow := decode_of_row (decodeRow_encode h)
  exact ⟨(hrow _).trans (if_pos rfl), (hrow _).trans (if_neg (port_ne_other _))⟩

/-- Settles O2: a row is read under its own opcode, with operands as wide as their fields. -/
theorem decodedCommandsAreWellFormed : Obligations.DecodedCommandsAreWellFormed := by
  unfold Obligations.DecodedCommandsAreWellFormed
  intro p w i h
  obtain ⟨hrow, hport⟩ := decode_eq_ok h
  obtain ⟨hop, hwf⟩ := decodeRow_eq_some hrow
  exact ⟨hwf, hport, hop⟩

/-! ### The bits of a command word that its form uses (30_encoding.md R75, R77) -/

/-- A field of a word depends on its own bits alone. -/
theorem extractLsb'_congr {w w' : Cmd} {start len : Nat}
    (h : ∀ j, start ≤ j → j < start + len → w.getLsbD j = w'.getLsbD j) :
    w.extractLsb' start len = w'.extractLsb' start len :=
  BitVec.eq_of_getLsbD_eq fun k hk => by
    rw [BitVec.getLsbD_extractLsb', BitVec.getLsbD_extractLsb', h (start + k) (by omega) (by omega)]

/-- `v[31:0]` lies in bits 47:16 of the word. -/
theorem sourceLength_field (w : Cmd) : (Cmd.v w).extractLsb' 0 32 = w.extractLsb' 16 32 :=
  BitVec.eq_of_getLsbD_eq fun k hk => by simp [Cmd.v, hk, show k < 64 by omega]

/-- The row of a word is a function of its opcode and of the fields that the opcode's form uses. -/
theorem decodeRow_congr {w w' : Cmd} (hop : Cmd.op w = Cmd.op w')
    (ha : Cmd.op w = 0x11#8 ∨ Cmd.op w = 0x21#8 → Cmd.a w = Cmd.a w')
    (hv : Cmd.op w = 0x11#8 → Cmd.v w = Cmd.v w')
    (hn : Cmd.op w = 0x30#8 → (Cmd.v w).extractLsb' 0 32 = (Cmd.v w').extractLsb' 0 32) :
    decodeRow w = decodeRow w' := by
  have hop_eq : ∀ k : Nat, (Cmd.op w).toNat = k → Cmd.op w = BitVec.ofNat 8 k := fun k hk => by rw [← hk]; simp
  unfold decodeRow
  rw [← hop]
  split
  case h_3 happend => rw [ha (.inl (hop_eq _ happend)), hv (hop_eq _ happend)]
  case h_5 hserialize => rw [hn (hop_eq _ hserialize)]
  case h_9 hread => rw [ha (.inr (hop_eq _ hread))]
  all_goals rfl

/-- Settles O3: the used bits are the fields of `decodeRow_congr`. -/
theorem unusedCommandBitsAreIgnored : Obligations.UnusedCommandBitsAreIgnored := by
  unfold Obligations.UnusedCommandBitsAreIgnored
  intro p w w' hop ha hv hn
  have hrow : decodeRow w = decodeRow w' := by
    refine decodeRow_congr (extractLsb'_congr fun j _ => ?op) (fun h => extractLsb'_congr ?a)
      (fun h => extractLsb'_congr ?v) (fun h => ?n)
    case op => simpa using hop j
    case a => exact ha h
    case v => exact hv h
    case n =>
      rw [sourceLength_field, sourceLength_field]
      exact extractLsb'_congr (hn h)
  rw [decode, decode, hrow]

/-- Settles O4: each word is decoded by evaluation. -/
theorem specWordsDecode : Obligations.SpecWordsDecode := by
  unfold Obligations.SpecWordsDecode
  decide

/-! ### Illegal commands (30_encoding.md R78) -/

theorem opcode_mem_legalOpcodes (i : Instr) : i.opcode.toNat ∈ legalOpcodes i.port := by
  cases i <;> simp [Instr.opcode, Instr.port, legalOpcodes]

/-- Every legal opcode has a row of its port. -/
theorem decode_of_mem_legalOpcodes {p : Port} {w : Cmd} (h : (Cmd.op w).toNat ∈ legalOpcodes p) :
    ∃ i, decode p w = .ok i := by
  unfold decode decodeRow
  cases p with
  | enc =>
    simp only [legalOpcodes, List.mem_cons, List.not_mem_nil, or_false] at h
    rcases h with h | h | h | h | h | h | h <;> rw [h] <;> exact ⟨_, rfl⟩
  | dec =>
    simp only [legalOpcodes, List.mem_cons, List.not_mem_nil, or_false] at h
    rcases h with h | h | h | h | h | h <;> rw [h] <;> exact ⟨_, rfl⟩

/-- A port decodes exactly the words whose opcode is legal there. -/
theorem decodes_iff_legal {p : Port} {w : Cmd} :
    (∃ i, decode p w = .ok i) ↔ (Cmd.op w).toNat ∈ legalOpcodes p := by
  refine ⟨fun ⟨i, h⟩ => ?_, decode_of_mem_legalOpcodes⟩
  obtain ⟨hrow, rfl⟩ := decode_eq_ok h
  rw [← (decodeRow_eq_some hrow).1]
  exact opcode_mem_legalOpcodes i

theorem issue_of_illegal {p : Port} {w : Cmd} (h : (Cmd.op w).toNat ∉ legalOpcodes p) (s : State) :
    issue p w s = .next (s.complete p .illegalCommand 0#64) := by
  unfold issue
  split
  · exact absurd (decodes_iff_legal.mp ⟨_, ‹_›⟩) h
  · rfl

/-- Settles O8: a word that its port does not decode completes with code 9, which with result 0 is the response 9. -/
theorem illegalCommandRecordsOnlyItself : Obligations.IllegalCommandRecordsOnlyItself := by
  unfold Obligations.IllegalCommandRecordsOnlyItself
  refine ⟨rfl, rfl, fun s p w rest hbox => ⟨decodes_iff_legal, fun h => ?_⟩⟩
  rw [step_perform hbox, perform, issue_of_illegal h]
  cases p <;> rfl

/-- Settles O7: the table word stands first in the inbox, at the port that decodes it. -/
theorem tableWordsRunAsTheNextStep : Obligations.TableWordsRunAsTheNextStep := by
  unfold Obligations.TableWordsRunAsTheNextStep
  intro s nbits w i h
  have hdecode : decode (portOf (tableCmd nbits w)) (tableCmd nbits w) = .ok i := by
    unfold decodeTableWord at h
    split at h <;> cases h
    assumption
  exact stepRunsTheDecodedCommand (s.withFetchWord nbits w) _ _ i s.inbox rfl hdecode

/-! ### Responses (30_encoding.md R79, R80) -/

/-- Settles O5: the response is the result on top of the code. -/
theorem responseHoldsStatusAndResult : Obligations.ResponseHoldsStatusAndResult := by
  unfold Obligations.ResponseHoldsStatusAndResult
  exact ⟨fun _ _ => ⟨BitVec.extractLsb'_append_eq_right, BitVec.extractLsb'_append_eq_left⟩,
    rfl, rfl, rfl, rfl, rfl, rfl, rfl, rfl, rfl, rfl⟩

section
variable (p : Port) (s : State) (st : Status) (r : BitVec 64)

theorem lasterrOf_complete : lasterrOf p (s.complete p st r) = st.code := by cases p <;> rfl

theorem responses_complete : responses p (s.complete p st r) = responses p s ++ [r ++ st.code] := by
  cases p <;> rfl

theorem responses_complete_other : responses p.other (s.complete p st r) = responses p.other s := by
  cases p <;> rfl

end

/-- `t` is the state after the command `i` ended with the status `st` and the result `r`, which is 0 as 30_encoding.md R79
and 60_exceptions.md R160 say; no response had been delivered before that end. -/
def Answers (i : Instr) (s t : State) : Prop :=
  ∃ u st r, t = u.complete i.port st r ∧ (∀ p, responses p u = responses p s) ∧
    (st ≠ .ok → r = 0#64) ∧ ((∀ n, i ≠ .read n) → i ≠ .rembits → r = 0#64)

section
variable {i : Instr} {s t u : State} {st : Status} {r : BitVec 64}

theorem responses_eq_of_resps (henc : u.enc.resps = s.enc.resps) (hdec : u.dec.resps = s.dec.resps) (p : Port) :
    responses p u = responses p s := by
  cases p with
  | enc => exact henc
  | dec => exact hdec

theorem answers_zero (henc : u.enc.resps = s.enc.resps) (hdec : u.dec.resps = s.dec.resps) :
    Answers i s (u.complete i.port st 0#64) :=
  ⟨u, st, 0#64, rfl, responses_eq_of_resps henc hdec, fun _ => rfl, fun _ _ => rfl⟩

/-- READ and REMBITS alone answer with a result, and only when they succeed. -/
theorem answers_result (hi : (∃ n, i = .read n) ∨ i = .rembits) (henc : u.enc.resps = s.enc.resps)
    (hdec : u.dec.resps = s.dec.resps) : Answers i s (u.complete i.port .ok r) := by
  refine ⟨u, .ok, r, rfl, responses_eq_of_resps henc hdec, fun h => absurd rfl h, fun hread hrem => ?_⟩
  rcases hi with ⟨n, rfl⟩ | rfl
  · exact absurd rfl (hread n)
  · exact absurd rfl hrem

theorem exec_answers (h : exec i s = .next t) : Answers i s t := by
  cases i with
  | build => rcases execBuild_cases h with ⟨_, _, rfl⟩ | ⟨_, _, rfl⟩ <;> exact answers_zero rfl rfl
  | bpclr => cases h; exact answers_zero rfl rfl
  | append => rcases execAppend_cases h with ⟨_, rfl⟩ | ⟨_, rfl⟩ <;> exact answers_zero rfl rfl
  | tobytes => obtain ⟨_, rfl⟩ := execTobytes_cases h; exact answers_zero rfl rfl
  | brload => obtain ⟨_, rfl⟩ := execBrload_cases h; exact answers_zero rfl rfl
  | rembits => cases h; exact answers_result (.inr rfl) rfl rfl
  | read n =>
    rcases execRead_cases h with ⟨_, rfl⟩ | ⟨_, _, rfl⟩ | ⟨_, _, rfl⟩
    · exact answers_zero rfl rfl
    · exact answers_zero rfl rfl
    · exact answers_result (.inl ⟨n, rfl⟩) rfl rfl
  | serialize =>
    rcases execSerialize_cases h with ⟨_, _, rfl⟩ | ⟨_, _, _, rfl⟩ <;> exact answers_zero rfl rfl
  | deserialize =>
    rcases execDeserialize_cases h with ⟨_, ⟨_, _, rfl⟩ | ⟨_, _, _, _, rfl⟩⟩ <;> exact answers_zero rfl rfl
  | encode =>
    rcases execEncode_cases h with ⟨_, ⟨_, _, rfl⟩ | ⟨_, _, _, rfl⟩⟩ <;> exact answers_zero rfl rfl
  | encfile =>
    rcases execEncfile_cases h with ⟨_, ⟨_, _, rfl⟩ | ⟨_, _, _, _, rfl⟩ | ⟨_, _, _, _, _, rfl⟩⟩ <;>
      exact answers_zero rfl rfl
  | decode =>
    rcases execDecode_cases h with ⟨_, _, ⟨_, _, rfl⟩ | ⟨_, _, _, _, rfl⟩⟩ <;> exact answers_zero rfl rfl
  | decfile =>
    rcases execDecfile_cases h with ⟨_, ⟨_, _, rfl⟩ | ⟨_, _, _, _, _, ⟨_, _, rfl⟩ | ⟨_, _, _, _, rfl⟩⟩⟩ <;>
      exact answers_zero rfl rfl

end

/-- Settles O20: LASTERR and the response are written together, at the end of the command. -/
theorem everyCommandDeliversOneResponse : Obligations.EveryCommandDeliversOneResponse := by
  unfold Obligations.EveryCommandDeliversOneResponse
  intro i s t h
  obtain ⟨u, st, r, rfl, hresps, hfailed, hother⟩ := exec_answers h
  rw [lasterrOf_complete, responses_complete, responses_complete_other, hresps, hresps]
  exact ⟨r, rfl, rfl, Nat.le_of_lt_succ (code_lt_ten st), fun hcode => hfailed (mt code_eq_zero.mpr hcode), hother⟩

/-! ### Assembler lines (30_encoding.md R82, R83) -/

theorem output_length (s : State) : s.output.length = s.enc.eoutLen.toNat := slice_length _ _ _ _

theorem output_getElem {s : State} {i : Nat} (h : i < s.output.length) : s.output[i] = readByte .eout i s := by
  have hread := slice_getElem? .eout s.enc.eout 0 _ i (output_length s ▸ h)
  rw [Nat.zero_add] at hread
  exact (List.getElem?_eq_some_iff.mp hread).2

/-- Settles O13: the copy is a host write of the output at address 0. -/
theorem copyMovesTheOutputToTheInput : Obligations.CopyMovesTheOutputToTheInput := by
  unfold Obligations.CopyMovesTheOutputToTheInput
  intro s rest hbox
  have hlen : 0 + s.output.length = s.enc.eoutLen.toNat := (Nat.zero_add _).trans (output_length s)
  rw [step_perform hbox, ← hlen]
  refine ⟨fun hfit => ⟨s.dec.din.writeAll 0 s.output, writeInput_of_within hfit, fun i hi => ?copied, fun i hi => ?kept⟩,
    fun hfit => writeInput_of_not_within hfit⟩
  case copied =>
    rw [Nat.zero_add] at hi
    rw [← output_getElem hi, ← read_writeAll_inside hi, Nat.zero_add]
  case kept => exact read_writeAll_outside (.inr hi)

/-- One turn of a run: the next host action is performed. -/
theorem run_cons {act : HostAction} {acts : List HostAction} {k : Nat} {s t : State}
    (h : perform act { s with inbox := acts } = .next t) :
    Host.Core.run core (k + 1) { s with inbox := act :: acts } = Host.Core.run core k t := by
  have hstep : core.step { s with inbox := act :: acts } = .next t := h
  simp only [Host.Core.run, hstep]

/-- The same machine with another content of SRC. -/
def State.withSrc (m : Memory) (s : State) : State := { s with enc := { s.enc with src := m } }

/-- `HOST SRC = b0 b1 ...` writes its bytes from its index on. -/
theorem run_asmSource {a : Nat} {bs : List Byte} {acts : List HostAction} {k : Nat} {s : State}
    (hfit : Within s.params.srcCap (a + bs.length)) :
    Host.Core.run core (bs.length + k) { s with inbox := asmSource a bs ++ acts } =
      Host.Core.run core k { s.withSrc (s.enc.src.writeAll a bs) with inbox := acts } := by
  induction bs generalizing a s with
  | nil => rw [List.length_nil, Nat.zero_add]; rfl
  | cons b bs ih =>
    rw [List.length_cons] at hfit
    have hwrite := writeSource_of_within (s := { s with inbox := asmSource (a + 1) bs ++ acts }) (bs := [b])
      (within_mono (Nat.add_le_add_left (Nat.le_add_left 1 _) a) hfit)
    rw [List.length_cons, Nat.add_right_comm]
    refine (run_cons (act := .writeSrc a b) (s := s) hwrite).trans ?_
    exact ih (s := s.withSrc (s.enc.src.write a b)) (by rwa [Nat.add_right_comm, Nat.add_assoc])

/-- `HOST DIN = b0 b1 ...` writes its bytes from its index on. -/
theorem run_asmInput {a : Nat} {bs : List Byte} {acts : List HostAction} {k : Nat} {s : State}
    (hfit : Within s.params.dinCap (a + bs.length)) :
    Host.Core.run core (bs.length + k) { s with inbox := asmInput a bs ++ acts } =
      Host.Core.run core k { s.withDin (s.dec.din.writeAll a bs) with inbox := acts } := by
  induction bs generalizing a s with
  | nil => rw [List.length_nil, Nat.zero_add]; rfl
  | cons b bs ih =>
    rw [List.length_cons] at hfit
    have hwrite := writeInput_of_within (s := { s with inbox := asmInput (a + 1) bs ++ acts }) (bs := [b])
      (within_mono (Nat.add_le_add_left (Nat.le_add_left 1 _) a) hfit)
    rw [List.length_cons, Nat.add_right_comm]
    refine (run_cons (act := .writeDin a b) (s := s) hwrite).trans ?_
    exact ih (s := s.withDin (s.dec.din.write a b)) (by rwa [Nat.add_right_comm, Nat.add_assoc])

theorem asmSource_length (a : Nat) (bs : List Byte) : (asmSource a bs).length = bs.length := by
  induction bs generalizing a with
  | nil => rfl
  | cons b bs ih => simp [asmSource, ih]

theorem asmInput_length (a : Nat) (bs : List Byte) : (asmInput a bs).length = bs.length := by
  induction bs generalizing a with
  | nil => rfl
  | cons b bs ih => simp [asmInput, ih]

/-- SETSRC writes SRC and SRC_LEN. -/
theorem runHost_asmSetsrc {bs : List Byte} {s : State} (hfit : Within s.params.srcCap bs.length) :
    runHost (asmSetsrc bs) s =
      .next { (s.withSrc (s.enc.src.writeAll 0 bs)).setSrcLen (BitVec.ofNat 32 bs.length) with inbox := [] } := by
  rw [runHost, asmSetsrc, List.length_append, asmSource_length, run_asmSource (by rwa [Nat.zero_add])]
  exact run_cons (k := 0) rfl

/-- SETDIN writes DIN and DIN_LEN. -/
theorem runHost_asmSetdin {bs : List Byte} {s : State} (hfit : Within s.params.dinCap bs.length) :
    runHost (asmSetdin bs) s =
      .next { (s.withDin (s.dec.din.writeAll 0 bs)).setDinLen (BitVec.ofNat 40 bs.length) with inbox := [] } := by
  rw [runHost, asmSetdin, List.length_append, asmInput_length, run_asmInput (by rwa [Nat.zero_add])]
  exact run_cons (k := 0) rfl

/-- Settles O14: the length register holds the length whole, and the buffer reads back as what was written. -/
theorem hostMacrosSetTheBuffers : Obligations.HostMacrosSetTheBuffers := by
  unfold Obligations.HostMacrosSetTheBuffers
  refine fun s bs => ⟨fun hlt hfit => ⟨_, runHost_asmSetsrc hfit, ?_⟩, fun hlt hfit => ⟨_, runHost_asmSetdin hfit, ?_⟩⟩
  · have hlen : (BitVec.ofNat 32 bs.length).toNat = bs.length := (BitVec.toNat_ofNat _ _).trans (Nat.mod_eq_of_lt hlt)
    refine ⟨?_, hlen, rfl, rfl⟩
    exact (congrArg ((s.enc.src.writeAll 0 bs).slice .src 0) hlen).trans (slice_writeAll _ _ _ _)
  · have hlen : (BitVec.ofNat 40 bs.length).toNat = bs.length := (BitVec.toNat_ofNat _ _).trans (Nat.mod_eq_of_lt hlt)
    refine ⟨?_, hlen, rfl, rfl⟩
    exact (congrArg ((s.dec.din.writeAll 0 bs).slice .din 0) hlen).trans (slice_writeAll _ _ _ _)

end Sys2Proof.Machine

/-! The statements of 40_code_table_builder.md: BUILD ends with the tree of the merge rule, whose bit paths are a valid
code for the symbols with a weight (R90, R91). -/

namespace Sys2Proof.Machine

/-! ### The merge rule (40_code_table_builder.md R90) -/

theorem Pending.Less.asymm {x y : Pending} (h : x.Less y) : ¬ y.Less x := by
  unfold Pending.Less at *
  omega

/-- Whatever the order in which a set of nodes is listed, its least node is the same. -/
theorem least_unique {x y : Pending} {xs ys : List Pending} (hperm : (x :: xs).Perm (y :: ys))
    (hx : ∀ z ∈ xs, x.Less z) (hy : ∀ z ∈ ys, y.Less z) : x = y := by
  by_contra hne
  have hyxs : y ∈ xs := (List.mem_cons.mp (hperm.symm.subset List.mem_cons_self)).resolve_left (Ne.symm hne)
  have hxys : x ∈ ys := (List.mem_cons.mp (hperm.subset List.mem_cons_self)).resolve_left hne
  exact (hx y hyxs).asymm (hy x hxys)

section
variable {k : Nat} {P P' : List Pending} {t t' : HTree}

/-- The merge rule speaks of a set of nodes: their order in the list does not matter. -/
theorem MergesTo.perm (h : MergesTo k P t) (hperm : P'.Perm P) : MergesTo k P' t := by
  cases h with
  | done => rw [List.perm_singleton.mp hperm]; exact .done k _
  | merge _ _ x y rest _ hP hx hy hrest => exact .merge k P' x y rest t (hperm.trans hP) hx hy hrest

/-- The merge rule ends with one tree at most: the two nodes that it merges are determined at every turn. -/
theorem MergesTo.unique (h : MergesTo k P t) (h' : MergesTo k P t') : t = t' := by
  induction h generalizing t' with
  | done k x =>
    cases h' with
    | done => rfl
    | merge _ _ _ _ _ _ hP => exact absurd hP.length_eq (by simp)
  | merge k P x y rest t hP hx hy _ ih =>
    cases h' with
    | done => exact absurd hP.length_eq (by simp)
    | merge _ _ x' y' rest' _ hP' hx' hy' hrest' =>
      have hall := hP.symm.trans hP'
      obtain rfl := least_unique hall hx hx'
      have hothers := hall.cons_inv
      obtain rfl := least_unique hothers hy hy'
      exact ih (hrest'.perm (hothers.cons_inv.cons _))

end

theorem initialNodes_eq (F : Freq) : initialNodes F = F.alphabet.map (pendingOf F) := rfl

/-! ### The leaves of a tree and their paths -/

/-- The symbols at the leaves of a tree, from left to right. -/
def leafSymbols (t : HTree) : List Symbol := (leafPaths t).map Prod.fst

@[simp] theorem leafSymbols_leaf (c : Symbol) : leafSymbols (.leaf c) = [c] := rfl

@[simp] theorem leafSymbols_node (l r : HTree) : leafSymbols (.node l r) = leafSymbols l ++ leafSymbols r := by
  simp [leafSymbols, leafPaths, Function.comp_def]

theorem mem_leafPaths_node {l r : HTree} {sp : Symbol × List Bool} :
    sp ∈ leafPaths (.node l r) ↔
      (∃ q, (sp.1, q) ∈ leafPaths l ∧ sp.2 = false :: q) ∨ ∃ q, (sp.1, q) ∈ leafPaths r ∧ sp.2 = true :: q := by
  obtain ⟨c, p⟩ := sp
  simp only [leafPaths, List.mem_append, List.mem_map, Prod.exists, Prod.mk.injEq]
  constructor
  · rintro (⟨_, q, hq, rfl, rfl⟩ | ⟨_, q, hq, rfl, rfl⟩)
    · exact .inl ⟨q, hq, rfl⟩
    · exact .inr ⟨q, hq, rfl⟩
  · rintro (⟨q, hq, rfl⟩ | ⟨q, hq, rfl⟩)
    · exact .inl ⟨c, q, hq, rfl, rfl⟩
    · exact .inr ⟨c, q, hq, rfl, rfl⟩

theorem leafPaths_length_node (l r : HTree) :
    (leafPaths (.node l r)).length = (leafPaths l).length + (leafPaths r).length := by
  simp [leafPaths]

theorem leafPaths_length_pos (t : HTree) : 0 < (leafPaths t).length := by
  induction t with
  | leaf c => exact Nat.one_pos
  | node l r ihl _ => rw [leafPaths_length_node]; omega

/-- A path is shorter than the number of leaves: every turn to one side leaves a leaf on the other. -/
theorem path_length_lt {t : HTree} {sp : Symbol × List Bool} (h : sp ∈ leafPaths t) :
    sp.2.length < (leafPaths t).length := by
  induction t generalizing sp with
  | leaf c => rw [List.mem_singleton.mp h]; exact Nat.one_pos
  | node l r ihl ihr =>
    have hl := leafPaths_length_pos l
    have hr := leafPaths_length_pos r
    rw [leafPaths_length_node]
    rcases mem_leafPaths_node.mp h with ⟨q, hq, hp⟩ | ⟨q, hq, hp⟩
    · have hlt : q.length < (leafPaths l).length := ihl hq
      rw [hp, List.length_cons]
      omega
    · have hlt : q.length < (leafPaths r).length := ihr hq
      rw [hp, List.length_cons]
      omega

/-- Where a tree has two leaves or more, its root is not a leaf. -/
theorem path_length_pos {t : HTree} {sp : Symbol × List Bool} (htwo : 2 ≤ (leafPaths t).length)
    (h : sp ∈ leafPaths t) : 0 < sp.2.length := by
  cases t with
  | leaf c => exact absurd htwo (by simp [leafPaths])
  | node l r =>
    rcases mem_leafPaths_node.mp h with ⟨q, _, hp⟩ | ⟨q, _, hp⟩ <;>
    · rw [hp]
      exact Nat.succ_pos _

/-- No path goes on from a leaf (R91 (b)). -/
theorem eq_of_path_prefix {t : HTree} {a b : Symbol × List Bool} (ha : a ∈ leafPaths t) (hb : b ∈ leafPaths t)
    (h : a.2 <+: b.2) : a = b := by
  induction t generalizing a b with
  | leaf c => rw [List.mem_singleton.mp ha, List.mem_singleton.mp hb]
  | node l r ihl ihr =>
    obtain ⟨c, p⟩ := a
    obtain ⟨d, p'⟩ := b
    rcases mem_leafPaths_node.mp ha with ⟨q, hq, rfl⟩ | ⟨q, hq, rfl⟩ <;>
      rcases mem_leafPaths_node.mp hb with ⟨q', hq', rfl⟩ | ⟨q', hq', rfl⟩ <;>
      obtain ⟨hbit, hprefix⟩ := List.cons_prefix_cons.mp h
    · cases ihl hq hq' hprefix; rfl
    · cases hbit
    · cases hbit
    · cases ihr hq hq' hprefix; rfl

/-- The merge rule moves no leaf from or to its nodes. -/
theorem MergesTo.leafSymbols_perm {k : Nat} {P : List Pending} {t : HTree} (h : MergesTo k P t) :
    (leafSymbols t).Perm (P.flatMap fun x => leafSymbols x.tree) := by
  induction h with
  | done k x => simp
  | merge k P x y rest t hP _ _ _ ih =>
    refine ih.trans (.trans (.of_eq ?_) (hP.flatMap_right _).symm)
    simp

theorem MergesTo.leafSymbols_perm_alphabet {F : Freq} {t : HTree} (h : MergesTo 0 (initialNodes F) t) :
    (leafSymbols t).Perm F.alphabet := by
  refine h.leafSymbols_perm.trans (.of_eq ?_)
  simp [initialNodes_eq, List.flatMap_map, pendingOf]

/-! ### The merge loop of BUILD follows the merge rule (R90) -/

/-- The pending nodes after `k` merges can be told apart by `seq`, and a node made now comes after all of them. -/
def DistinctSeqs (k : Nat) (L : List Pending) : Prop := (L.map Pending.seq).Nodup ∧ ∀ x ∈ L, x.seq < 256 + k

theorem distinctSeqs_initialNodes (F : Freq) : DistinctSeqs 0 (initialNodes F) := by
  rw [initialNodes_eq]
  constructor
  · rw [List.map_map]
    exact F.alphabet_nodup.map fun c d h => BitVec.eq_of_toNat_eq h
  · rintro x hx
    obtain ⟨c, -, rfl⟩ := List.mem_map.mp hx
    exact c.isLt

theorem DistinctSeqs.merge {k : Nat} {x y : Pending} {rest : List Pending} (h : DistinctSeqs k (x :: y :: rest)) :
    DistinctSeqs (k + 1) (mergePair k x y :: rest) := by
  obtain ⟨hnodup, hlt⟩ := h
  simp only [List.forall_mem_cons] at hlt
  obtain ⟨-, -, hrest⟩ := hlt
  constructor
  · refine List.nodup_cons.mpr ⟨fun hmem => ?_, hnodup.of_cons.of_cons⟩
    obtain ⟨z, hz, hseq⟩ := List.mem_map.mp hmem
    exact (hrest z hz).ne hseq
  · exact List.forall_mem_cons.mpr ⟨Nat.lt_succ_self _, fun z hz => (hrest z hz).trans (Nat.lt_succ_self _)⟩

/-- A node that nothing comes before is less than every node of another `seq`. -/
theorem less_of_not_before {x : Pending} {L : List Pending} (hseq : ((x :: L).map Pending.seq).Nodup)
    (hleast : ∀ z ∈ L, z.before x = false) : ∀ z ∈ L, x.Less z := by
  intro z hz
  have hne : x.seq ≠ z.seq := fun h => (List.nodup_cons.mp hseq).1 (List.mem_map.mpr ⟨z, hz, h.symm⟩)
  have hnot := hleast z hz
  rw [Bool.eq_false_iff, ne_eq, before_iff] at hnot
  unfold Pending.Less
  omega

/-- The loop, run once less often than there are nodes, ends as the merge rule does. -/
theorem mergesTo_mergeTurns {n k : Nat} {p : Pending} {ps : List Pending} (hlen : ps.length = n)
    (hseqs : DistinctSeqs k (p :: ps)) : MergesTo k (p :: ps) (mergeTurns n k p ps).1.tree := by
  induction n generalizing k p ps with
  | zero =>
    rw [List.length_eq_zero_iff.mp hlen]
    exact .done k p
  | succ n ih =>
    obtain ⟨q, ps, rfl⟩ := List.exists_cons_of_length_eq_add_one hlen
    obtain ⟨x, y, rest, hmerge, hperm, hx, hy⟩ := mergeOnce_cases k p q ps
    have hdistinct : DistinctSeqs k (x :: y :: rest) :=
      ⟨(hperm.map Pending.seq).nodup_iff.mpr hseqs.1, fun z hz => hseqs.2 z (hperm.subset hz)⟩
    have hrest : rest.length = n := by
      have := hperm.length_eq
      simp only [List.length_cons] at this hlen
      omega
    rw [mergeTurns, hmerge]
    exact .merge k _ x y rest _ hperm.symm (less_of_not_before hdistinct.1 hx)
      (less_of_not_before hdistinct.1.of_cons hy) (ih hrest hdistinct.merge)

theorem mergesTo_huffmanTree {F : Freq} {c : Symbol} {cs : List Symbol} (h : F.alphabet = c :: cs) :
    MergesTo 0 (initialNodes F) (huffmanTree F c cs) := by
  have hinit : initialNodes F = pendingOf F c :: cs.map (pendingOf F) := by rw [initialNodes_eq, h, List.map_cons]
  rw [hinit]
  exact mergesTo_mergeTurns (List.length_map _) (hinit ▸ distinctSeqs_initialNodes F)

/-! ### Tables made from bit paths (R90, R91) -/

/-- The entry of a bit path. -/
def codeEntry (q : List Bool) : Entry := { len := BitVec.ofNat 8 q.length, word := BitVec.ofNat 255 (valMsb q) }

theorem codeEntry_len_toNat {q : List Bool} (h : q.length ≤ 255) : (codeEntry q).len.toNat = q.length :=
  (BitVec.toNat_ofNat _ _).trans (Nat.mod_eq_of_lt (by omega))

theorem codeEntry_word_toNat {q : List Bool} (h : q.length ≤ 255) : (codeEntry q).word.toNat = valMsb q :=
  (BitVec.toNat_ofNat _ _).trans
    (Nat.mod_eq_of_lt ((valMsb_lt q).trans_le (Nat.pow_le_pow_right Nat.two_pos h)))

theorem get_foldl_putPath_of_notMem {c : Symbol} {paths : List (Symbol × List Bool)} (h : c ∉ paths.map Prod.fst)
    (T : Table) : (paths.foldl putPath T).get c = T.get c := by
  induction paths generalizing T with
  | nil => rfl
  | cons sp paths ih =>
    obtain ⟨hne, hnot⟩ := not_or.mp (mt List.mem_cons.mpr h)
    exact (ih hnot _).trans (Table.get_put_other hne _)

theorem get_foldl_putPath_of_mem {sp : Symbol × List Bool} {paths : List (Symbol × List Bool)}
    (hnodup : (paths.map Prod.fst).Nodup) (h : sp ∈ paths) (T : Table) :
    (paths.foldl putPath T).get sp.1 = codeEntry sp.2 := by
  induction paths generalizing T with
  | nil => cases h
  | cons sp' paths ih =>
    obtain ⟨hnot, hnodup⟩ := List.nodup_cons.mp hnodup
    rcases List.mem_cons.mp h with rfl | h
    · exact (get_foldl_putPath_of_notMem hnot _).trans (Table.get_put_same _ _ _)
    · exact ih hnodup h _

/-- The paths are a code for the symbols with a weight: one path each, which an entry can hold, and none begins
with another. -/
structure PathsCode (F : Freq) (paths : List (Symbol × List Bool)) : Prop where
  symbols : (paths.map Prod.fst).Perm F.alphabet
  length_pos : ∀ sp ∈ paths, 0 < sp.2.length
  length_le : ∀ sp ∈ paths, sp.2.length ≤ 255
  eq_of_prefix : ∀ a ∈ paths, ∀ b ∈ paths, a.2 <+: b.2 → a = b

/-- The table that BUILD makes of the paths. -/
def pathsTable (draw : Nat) (paths : List (Symbol × List Bool)) : Table :=
  paths.foldl putPath (Table.absent .enc draw)

namespace PathsCode

variable {F : Freq} {paths : List (Symbol × List Bool)} {draw : Nat} {sp : Symbol × List Bool}

theorem get_eq (h : PathsCode F paths) (hsp : sp ∈ paths) : (pathsTable draw paths).get sp.1 = codeEntry sp.2 :=
  get_foldl_putPath_of_mem (h.symbols.nodup_iff.mpr F.alphabet_nodup) hsp _

theorem len_toNat (h : PathsCode F paths) (hsp : sp ∈ paths) :
    ((pathsTable draw paths).get sp.1).len.toNat = sp.2.length := by
  rw [h.get_eq hsp, codeEntry_len_toNat (h.length_le sp hsp)]

theorem word_toNat (h : PathsCode F paths) (hsp : sp ∈ paths) :
    ((pathsTable draw paths).get sp.1).word.toNat = valMsb sp.2 := by
  rw [h.get_eq hsp, codeEntry_word_toNat (h.length_le sp hsp)]

theorem code_eq (h : PathsCode F paths) (hsp : sp ∈ paths) : (pathsTable draw paths).code sp.1 = sp.2 := by
  rw [Table.code, h.len_toNat hsp, h.word_toNat hsp, bitsMsb_valMsb]

theorem len_ne_zero (h : PathsCode F paths) (hsp : sp ∈ paths) : ((pathsTable draw paths).get sp.1).len ≠ 0#8 := by
  intro hzero
  have hlen := h.len_toNat (draw := draw) hsp
  rw [hzero] at hlen
  exact (h.length_pos sp hsp).ne hlen

theorem mem_of_len_ne_zero (h : PathsCode F paths) {c : Symbol} (hc : ((pathsTable draw paths).get c).len ≠ 0#8) :
    (c, (pathsTable draw paths).code c) ∈ paths := by
  by_cases hmem : c ∈ paths.map Prod.fst
  · obtain ⟨sp, hsp, rfl⟩ := List.mem_map.mp hmem
    rwa [h.code_eq hsp]
  · rw [pathsTable, get_foldl_putPath_of_notMem hmem, Table.absent_get] at hc
    exact absurd rfl hc

/-- R91 (a): the table has exactly the symbols with a weight. -/
theorem len_ne_zero_iff (h : PathsCode F paths) (c : Symbol) :
    ((pathsTable draw paths).get c).len ≠ 0#8 ↔ F.get c ≠ 0 := by
  rw [← Freq.mem_alphabet, ← h.symbols.mem_iff]
  constructor
  · exact fun hc => List.mem_map_of_mem (h.mem_of_len_ne_zero hc)
  · intro hmem
    obtain ⟨sp, hsp, rfl⟩ := List.mem_map.mp hmem
    exact h.len_ne_zero hsp

/-- R91 (b): codewords are paths, and no path goes on from a leaf. -/
theorem prefixFree (h : PathsCode F paths) : (pathsTable draw paths).PrefixFree := by
  intro c d hne hc hd hprefix
  have heq := h.eq_of_prefix _ (h.mem_of_len_ne_zero hc) _ (h.mem_of_len_ne_zero hd) hprefix
  exact hne (congrArg Prod.fst heq)

/-- R91 (d): a word is the value of its path. -/
theorem word_lt (h : PathsCode F paths) {c : Symbol} (hc : ((pathsTable draw paths).get c).len ≠ 0#8) :
    ((pathsTable draw paths).get c).word.toNat < 2 ^ ((pathsTable draw paths).get c).len.toNat := by
  have hsp := h.mem_of_len_ne_zero hc
  rw [h.word_toNat hsp, h.len_toNat hsp]
  exact valMsb_lt _

end PathsCode

/-! ### The table of BUILD -/

/-- The path of the single symbol (R90 corner (a)). -/
theorem pathsCode_single {F : Freq} {c : Symbol} (h : F.alphabet = [c]) : PathsCode F [(c, [false])] where
  symbols := .of_eq h.symm
  length_pos := by simp
  length_le := by simp
  eq_of_prefix a ha b hb _ := by rw [List.mem_singleton.mp ha, List.mem_singleton.mp hb]

theorem pathsCode_of_mergesTo {F : Freq} {t : HTree} (htwo : 2 ≤ F.alphabet.length)
    (h : MergesTo 0 (initialNodes F) t) : PathsCode F (leafPaths t) := by
  have hsymbols : (leafSymbols t).Perm F.alphabet := h.leafSymbols_perm_alphabet
  have hlen : (leafPaths t).length = F.alphabet.length := List.length_map (f := Prod.fst) ▸ hsymbols.length_eq
  have hmax := F.alphabet_length_le
  exact {
    symbols := hsymbols
    length_pos := fun sp hsp => path_length_pos (hlen ▸ htwo) hsp
    length_le := fun sp hsp => by have := path_length_lt hsp; omega
    eq_of_prefix := fun a ha b hb => eq_of_path_prefix ha hb }

theorem buildTable_of_no_symbol {F : Freq} (h : F.alphabet = []) (T₀ : Table) :
    buildTable T₀ F = .error .emptyAlphabet := by
  unfold buildTable
  rw [h]

theorem buildTable_of_one_symbol {F : Freq} {c : Symbol} (h : F.alphabet = [c]) (draw : Nat) :
    buildTable (Table.absent .enc draw) F = .ok (pathsTable draw [(c, [false])]) := by
  unfold buildTable
  rw [h]
  rfl

/-- With two symbols or more BUILD writes the paths of the tree that the merge rule ends with; none is too long. -/
theorem buildTable_of_mergesTo {F : Freq} {t : HTree} (htwo : 2 ≤ F.alphabet.length)
    (h : MergesTo 0 (initialNodes F) t) (draw : Nat) :
    buildTable (Table.absent .enc draw) F = .ok (pathsTable draw (leafPaths t)) := by
  have hcode := pathsCode_of_mergesTo htwo h
  unfold buildTable
  split
  · rename_i halphabet; simp [halphabet] at htwo
  · rename_i halphabet; simp [halphabet] at htwo
  · rename_i c d rest halphabet
    rw [(mergesTo_huffmanTree halphabet).unique h]
    refine if_neg fun hany => ?_
    obtain ⟨sp, hsp, hlong⟩ := List.any_eq_true.mp hany
    exact absurd (hcode.length_le sp hsp) (Nat.not_le.mpr (of_decide_eq_true hlong))

/-- With a weight BUILD writes the paths of a code, and does not fail. -/
theorem exists_pathsCode {F : Freq} (h : F.alphabet ≠ []) :
    ∃ paths, PathsCode F paths ∧
      ∀ draw, buildTable (Table.absent .enc draw) F = .ok (pathsTable draw paths) := by
  match halphabet : F.alphabet with
  | [] => exact absurd halphabet h
  | [c] => exact ⟨_, pathsCode_single halphabet, buildTable_of_one_symbol halphabet⟩
  | c :: d :: rest =>
    have htwo : 2 ≤ F.alphabet.length := by rw [halphabet]; exact Nat.le_add_left 2 _
    have htree := mergesTo_huffmanTree halphabet
    exact ⟨_, pathsCode_of_mergesTo htwo htree, buildTable_of_mergesTo htwo htree⟩

section
variable {s : State}

theorem exec_build_of_error {st : Status}
    (h : buildTable (Table.absent .enc s.enc.tableDraws) s.enc.freq = .error st) :
    exec .build s = .next (s.complete .enc st 0#64) := by
  rw [exec, execBuild, h]
  rfl

theorem exec_build_of_ok {T : Table} (h : buildTable (Table.absent .enc s.enc.tableDraws) s.enc.freq = .ok T) :
    exec .build s = .next ((s.setEncTable T).complete .enc .ok 0#64) := by
  rw [exec, execBuild, h]
  rfl

end

/-- Settles O27: the paths that BUILD writes are a code for the symbols with a weight. -/
theorem buildMakesAValidTable : Obligations.BuildMakesAValidTable := by
  unfold Obligations.BuildMakesAValidTable
  intro s c₀ hc₀
  obtain ⟨paths, hcode, hbuild⟩ := exists_pathsCode (List.ne_nil_of_mem (Freq.mem_alphabet.mpr hc₀))
  exact ⟨_, exec_build_of_ok (hbuild _), hcode.len_ne_zero_iff, hcode.prefixFree, fun _ => hcode.word_lt⟩

/-- Settles O29: no symbol has a weight. -/
theorem buildNeedsAWeight : Obligations.BuildNeedsAWeight := by
  unfold Obligations.BuildNeedsAWeight
  intro s hzero
  have hnone : s.enc.freq.alphabet = [] :=
    List.eq_nil_iff_forall_not_mem.mpr fun c hc => Freq.mem_alphabet.mp hc (hzero c)
  exact exec_build_of_error (buildTable_of_no_symbol hnone _)

/-- The alphabet is determined, up to its order, by the symbols that have a weight. -/
theorem Freq.alphabet_perm {F : Freq} {cs : List Symbol} (hnodup : cs.Nodup) (h : ∀ c, F.get c ≠ 0 ↔ c ∈ cs) :
    F.alphabet.Perm cs :=
  (List.perm_ext_iff_of_nodup F.alphabet_nodup hnodup).mpr fun c => Freq.mem_alphabet.trans (h c)

/-- Settles O30: the single symbol has the path `0`. -/
theorem buildOfOneSymbol : Obligations.BuildOfOneSymbol := by
  unfold Obligations.BuildOfOneSymbol
  intro s t c₀ hc₀ hother hexec
  have hsingle : s.enc.freq.alphabet = [c₀] := by
    refine List.perm_singleton.mp (Freq.alphabet_perm (List.nodup_singleton c₀) fun c => ?_)
    rw [List.mem_singleton]
    exact ⟨fun hc => not_imp_comm.mp (hother c) hc, fun hc => hc ▸ hc₀⟩
  rw [exec_build_of_ok (buildTable_of_one_symbol hsingle _)] at hexec
  cases hexec
  exact (pathsCode_single hsingle).get_eq (List.mem_singleton_self _)

/-- Settles O58: the merge loop ends with the only tree of the merge rule, and BUILD writes the paths of its leaves. -/
theorem buildFollowsTheMergeRule : Obligations.BuildFollowsTheMergeRule := by
  unfold Obligations.BuildFollowsTheMergeRule
  intro s htwo
  obtain ⟨c, cs, halphabet⟩ := List.exists_cons_of_length_pos (Nat.zero_lt_of_lt htwo)
  refine ⟨⟨_, mergesTo_huffmanTree halphabet⟩, fun tree htree => ?_⟩
  have hcode := pathsCode_of_mergesTo htwo htree
  exact ⟨_, exec_build_of_ok (buildTable_of_mergesTo htwo htree _), rfl,
    fun sp hsp => ⟨hcode.len_ne_zero hsp, hcode.code_eq hsp⟩, fun c => hcode.mem_of_len_ne_zero⟩

/-! ### Two symbols (R90 corner (b)) -/

/-- BUILD gives the lesser of the only two pending nodes `0` and the other `1`. -/
theorem build_of_two_nodes {s t : State} {c d : Symbol} (hperm : s.enc.freq.alphabet.Perm [c, d])
    (hless : (pendingOf s.enc.freq c).Less (pendingOf s.enc.freq d)) (hexec : exec .build s = .next t) :
    t.enc.ct.code c = [false] ∧ t.enc.ct.code d = [true] := by
  have htree : MergesTo 0 (initialNodes s.enc.freq) (.node (.leaf c) (.leaf d)) :=
    .merge 0 _ (pendingOf s.enc.freq c) (pendingOf s.enc.freq d) [] _ (hperm.map _) (by simpa using hless) (by simp)
      (.done 1 _)
  obtain ⟨t', hexec', -, hcodes, -⟩ :=
    (buildFollowsTheMergeRule s (Nat.le_of_eq hperm.length_eq.symm)).2 _ htree
  cases hexec.symm.trans hexec'
  exact ⟨(hcodes (c, [false]) (by simp [leafPaths])).2, (hcodes (d, [true]) (by simp [leafPaths])).2⟩

/-- Settles O31: the order of the two pending nodes is that of their weights, then of their symbols. -/
theorem buildOfTwoSymbols : Obligations.BuildOfTwoSymbols := by
  unfold Obligations.BuildOfTwoSymbols
  intro s t c d hlt hc hd hother hexec
  have hne : c ≠ d := fun h => hlt.ne (congrArg BitVec.toNat h)
  have hperm : s.enc.freq.alphabet.Perm [c, d] := by
    refine Freq.alphabet_perm (by simpa using hne) fun e => ?_
    rw [List.mem_pair]
    constructor
    · intro he
      by_contra hnot
      obtain ⟨hec, hed⟩ := not_or.mp hnot
      exact he (hother e hec hed)
    · rintro (rfl | rfl)
      · exact hc
      · exact hd
  constructor
  · intro hle
    refine build_of_two_nodes hperm ?_ hexec
    rcases Nat.lt_or_eq_of_le hle with hw | hw
    · exact .inl hw
    · exact .inr ⟨hw, hlt⟩
  · intro hw
    exact (build_of_two_nodes (hperm.trans (.swap _ _ _)) (.inl hw) hexec).symm

/-! ### Equal weights (R90 corner (c)) -/

/-- Neighbours merged two by two, `k` merges having been made: one round of the loop on nodes of equal weight. -/
def mergePairs (k : Nat) : List Pending → List Pending
  | x :: y :: rest => mergePair k x y :: mergePairs (k + 1) rest
  | [] => []
  | [_] => []

theorem mergePairs_length {k m : Nat} {L : List Pending} (h : L.length = 2 * m) : (mergePairs k L).length = m := by
  induction m generalizing k L with
  | zero => rw [List.length_eq_zero_iff.mp h]; rfl
  | succ m ih =>
    match L with
    | x :: y :: rest =>
      rw [mergePairs, List.length_cons, ih (by simpa [Nat.mul_succ] using h)]

/-- Where the nodes of a round go: the node number `i` becomes a child of the node number `i / 2`, the right
child where `i` is odd. -/
theorem mergePairs_getElem? {k m : Nat} {L : List Pending} (hlen : L.length = 2 * m) {i : Nat} {x : Pending}
    (hi : L[i]? = some x) :
    ∃ z, (mergePairs k L)[i / 2]? = some z ∧
      ∀ sp ∈ leafPaths x.tree, (sp.1, i.testBit 0 :: sp.2) ∈ leafPaths z.tree := by
  induction m generalizing k L i with
  | zero => rw [List.length_eq_zero_iff.mp hlen] at hi; cases hi
  | succ m ih =>
    match L, i with
    | a :: b :: rest, 0 =>
      cases hi
      exact ⟨mergePair k x b, rfl, fun sp hsp => mem_leafPaths_node.mpr (.inl ⟨sp.2, hsp, rfl⟩)⟩
    | a :: b :: rest, 1 =>
      cases hi
      exact ⟨mergePair k a x, rfl, fun sp hsp => mem_leafPaths_node.mpr (.inr ⟨sp.2, hsp, rfl⟩)⟩
    | a :: b :: rest, i + 2 =>
      have hbit : (i + 2).testBit 0 = i.testBit 0 := by simp [Nat.testBit_zero]
      rw [hbit, Nat.add_div_right i Nat.two_pos]
      exact ih (by simpa [Nat.mul_succ] using hlen) hi

/-- Amid a round on nodes of equal weight: the nodes that are still to be merged all come before those made in the round,
both in the order of `seq`, and the next node will come last. -/
structure AmidRound (k W : Nat) (old new : List Pending) : Prop where
  old_weight : ∀ z ∈ old, z.weight = W
  new_weight : ∀ z ∈ new, z.weight = 2 * W
  ranked : (old ++ new).Pairwise Pending.Less
  seq_lt : ∀ z ∈ old ++ new, z.seq < 256 + k

namespace AmidRound

variable {k W m : Nat} {x y : Pending} {old new rest : List Pending}

/-- One merge of the round takes its first two nodes and puts their parent last. -/
theorem merge (h : AmidRound k W (x :: y :: rest) new) : AmidRound (k + 1) W rest (new ++ [mergePair k x y]) := by
  obtain ⟨hold, hnew, hranked, hseq⟩ := h
  simp only [List.cons_append, List.forall_mem_cons, List.pairwise_cons] at hold hranked hseq
  obtain ⟨hx, hy, hrest⟩ := hold
  obtain ⟨-, -, hranked⟩ := hranked
  obtain ⟨-, -, hseq⟩ := hseq
  have hparent : (mergePair k x y).weight = 2 * W := by
    rw [mergePair, hx, hy]
    exact (Nat.two_mul W).symm
  have hweight : ∀ z ∈ rest ++ new, z.weight ≤ 2 * W := fun z hz => by
    rcases List.mem_append.mp hz with hz | hz
    · rw [hrest z hz]; omega
    · rw [hnew z hz]
  have hlast : ∀ z ∈ rest ++ new, z.Less (mergePair k x y) := fun z hz => by
    rcases Nat.lt_or_eq_of_le (hweight z hz) with hw | hw
    · exact .inl (hparent ▸ hw)
    · exact .inr ⟨hw.trans hparent.symm, hseq z hz⟩
  constructor
  · exact hrest
  · exact List.forall_mem_append.mpr ⟨hnew, List.forall_mem_singleton.mpr hparent⟩
  · rw [← List.append_assoc]
    exact List.pairwise_append.mpr
      ⟨hranked, List.pairwise_singleton _ _, fun z hz _ hz' => List.mem_singleton.mp hz' ▸ hlast z hz⟩
  · rw [← List.append_assoc]
    exact List.forall_mem_append.mpr
      ⟨fun z hz => (hseq z hz).trans (Nat.lt_succ_self _), List.forall_mem_singleton.mpr (Nat.lt_succ_self _)⟩

/-- At its end the parents are the nodes of the next round. -/
theorem next (h : AmidRound k W [] new) : AmidRound k (2 * W) new [] where
  old_weight := h.new_weight
  new_weight _ hz := nomatch hz
  ranked := (List.append_nil new).symm ▸ h.ranked
  seq_lt := (List.append_nil new).symm ▸ h.seq_lt

/-- The rest of a round merges neighbours two by two. -/
theorem finish (h : AmidRound k W old new) (hlen : old.length = 2 * m) :
    AmidRound (k + m) (2 * W) (new ++ mergePairs k old) [] ∧
      ∀ t, MergesTo (k + m) (new ++ mergePairs k old) t → MergesTo k (old ++ new) t := by
  induction m generalizing k old new with
  | zero =>
    obtain rfl := List.length_eq_zero_iff.mp hlen
    rw [mergePairs, List.append_nil]
    exact ⟨h.next, fun _ => id⟩
  | succ m ih =>
    match old with
    | x :: y :: rest =>
      obtain ⟨hround, hmerges⟩ := ih h.merge (by simpa [Nat.mul_succ] using hlen)
      rw [List.append_assoc, Nat.add_right_comm k 1 m] at hround hmerges
      refine ⟨hround, fun t ht => ?_⟩
      have hranked := h.ranked
      simp only [List.cons_append, List.pairwise_cons] at hranked
      obtain ⟨hx, hy, -⟩ := hranked
      refine .merge k _ x y (rest ++ new) t (.refl _) hx hy ((hmerges t ht).perm ?_)
      rw [← List.append_assoc]
      exact (List.perm_append_singleton _ _).symm

end AmidRound

/-- From `2^n` nodes of equal weight the merge rule makes a tree in which the node number `i` hangs at the `n` bits of
`i`. -/
theorem exists_mergesTo_of_equal_weights {n k W : Nat} {L : List Pending} (h : AmidRound k W L [])
    (hlen : L.length = 2 ^ n) :
    ∃ t, MergesTo k L t ∧
      ∀ i x, L[i]? = some x → ∀ sp ∈ leafPaths x.tree, (sp.1, bitsMsb i n ++ sp.2) ∈ leafPaths t := by
  induction n generalizing k W L with
  | zero =>
    obtain ⟨x, rfl⟩ := List.length_eq_one_iff.mp hlen
    refine ⟨x.tree, .done k x, fun i y hi sp hsp => ?_⟩
    rw [List.mem_singleton.mp (List.mem_of_getElem? hi)] at hsp
    exact hsp
  | succ n ih =>
    rw [Nat.pow_succ'] at hlen
    obtain ⟨hround, hmerges⟩ := h.finish hlen
    obtain ⟨t, ht, hpaths⟩ := ih hround (mergePairs_length hlen)
    refine ⟨t, L.append_nil ▸ hmerges t ht, fun i x hi sp hsp => ?_⟩
    obtain ⟨z, hz, hchild⟩ := mergePairs_getElem? (k := k) hlen hi
    have hpath := hpaths (i / 2) z hz _ (hchild sp hsp)
    rw [bitsMsb_split i n 1, List.append_assoc]
    exact hpath

theorem alphabet_ascending (F : Freq) : F.alphabet.Pairwise fun c d => c.toNat < d.toNat := by
  have hall : allSymbols.Pairwise fun c d => c.toNat < d.toNat := by
    rw [← List.pairwise_map, allSymbols_toNat]
    exact List.pairwise_lt_range
  rw [F.alphabet_eq]
  exact hall.filter _

/-- Symbols of equal weight enter their first round in ascending order. -/
theorem amidRound_initialNodes {F : Freq} {w : Nat} (h : ∀ c ∈ F.alphabet, F.get c = w) :
    AmidRound 0 w (initialNodes F) [] where
  old_weight := List.forall_mem_map.mpr h
  new_weight _ hz := nomatch hz
  ranked := by
    rw [List.append_nil, initialNodes_eq, List.pairwise_map]
    exact (alphabet_ascending F).imp_of_mem fun hc hd hlt => .inr ⟨(h _ hc).trans (h _ hd).symm, hlt⟩
  seq_lt := (List.append_nil _).symm ▸ (distinctSeqs_initialNodes F).2

/-- Settles O59: the path of the `i`-th symbol is made of the `n` bits of `i`. -/
theorem buildOfEqualWeights : Obligations.BuildOfEqualWeights := by
  unfold Obligations.BuildOfEqualWeights
  intro s w n _ hn hlen hequal
  have htwo : 2 ≤ s.enc.freq.alphabet.length := hlen ▸ Nat.pow_le_pow_right Nat.two_pos hn
  obtain ⟨tree, htree, hpaths⟩ := exists_mergesTo_of_equal_weights (n := n) (amidRound_initialNodes hequal)
    ((List.length_map _).trans hlen)
  have hcode := pathsCode_of_mergesTo htwo htree
  refine ⟨_, exec_build_of_ok (buildTable_of_mergesTo htwo htree _), rfl, fun i c hi => ?_⟩
  have hpath : (c, bitsMsb i n) ∈ leafPaths tree := by
    have hnode : (initialNodes s.enc.freq)[i]? = some (pendingOf s.enc.freq c) := by
      rw [initialNodes_eq, List.getElem?_map, hi, Option.map_some]
    simpa using hpaths i _ hnode (c, []) (List.mem_singleton_self _)
  have hilt : i < 2 ^ n := hlen ▸ (List.getElem?_eq_some_iff.mp hi).1
  constructor
  · exact (hcode.len_toNat hpath).trans (bitsMsb_length i n)
  · exact (hcode.word_toNat hpath).trans ((valMsb_bitsMsb i n).trans (Nat.mod_eq_of_lt hilt))

end Sys2Proof.Machine

/-! The statements of 41_bitpacker.md: BPCLR empties the packer, APPEND adds to it, and TOBYTES delivers it as whole
bytes (R100 to R102). -/

namespace Sys2Proof.Machine

/-- Settles O34: the packer is the one element that BPCLR writes before it completes. -/
theorem bpclrEmptiesThePacker : Obligations.BpclrEmptiesThePacker := by
  unfold Obligations.BpclrEmptiesThePacker
  intro s
  exact ⟨_, execBpclr_eq s, rfl, rfl⟩

/-! ### APPEND (R101) -/

theorem bitLengthOk_iff {n : Nat} : bitLengthOk n = true ↔ 1 ≤ n ∧ n ≤ 64 := by
  rw [bitLengthOk, Bool.and_eq_true, decide_eq_true_eq, decide_eq_true_eq]

theorem bitsMsb_toNat {w : Nat} (v : BitVec w) (n : Nat) :
    bitsMsb v.toNat n = (List.range n).map fun j => v.getLsbD (n - 1 - j) := bitsMsb_eq_map v.toNat n

section
variable {n : Nat} (v : BitVec 64) (s : State)

theorem exec_append_of_bitLengthOk (h : bitLengthOk n = true) :
    exec (.append v n) s = .next ((s.setBp (s.enc.bp ++ bitsMsb v.toNat n)).complete .enc .ok 0#64) := if_pos h

theorem exec_append_of_not_bitLengthOk (h : ¬ bitLengthOk n = true) :
    exec (.append v n) s = .next (encFailed 8#8 s) := if_neg h

end

/-- Settles O35: the range test decides between the appended bits and the failure that R165 leaves without effect. -/
theorem appendAddsTheLowBits : Obligations.AppendAddsTheLowBits := by
  unfold Obligations.AppendAddsTheLowBits
  intro s v n
  constructor
  · intro hlo hhi
    refine ⟨_, exec_append_of_bitLengthOk v s (bitLengthOk_iff.mpr ⟨hlo, hhi⟩), ?length, ?state⟩
    case length =>
      show (s.enc.bp ++ bitsMsb v.toNat n).length % 2 ^ 40 = _
      rw [List.length_append, bitsMsb_length]
    case state =>
      rw [← bitsMsb_toNat]
      rfl
  · intro hrange
    have hbad : ¬ bitLengthOk n = true := by rw [bitLengthOk_iff]; omega
    exact exec_append_of_not_bitLengthOk v s hbad

/-! ### TOBYTES (R102) -/

/-- Reading a sequence with zeros beyond its end does not see zero bits appended to it. -/
theorem getD_append_zeros (q : List Bool) (n k : Nat) : (q ++ zeros n).getD k false = q.getD k false := by
  rcases Nat.lt_or_ge k q.length with hk | hk
  · exact List.getD_append q _ false k hk
  · rw [List.getD_append_right q _ false k hk, List.getD_eq_default q false hk, List.getD_eq_getElem?_getD, zeros,
      List.getElem?_getD_replicate_default_eq]

/-- Bit `7 - j` of byte `i` of `pack(q)` is bit `8 i + j` of `q`, or zero beyond its end. -/
theorem pack_getLsbD {q : List Bool} {i j : Nat} (hi : i < (pack q).length) (hj : j < 8) :
    (pack q)[i].getLsbD (7 - j) = q.getD (8 * i + j) false := by
  have hbit := bitsOfBytes_getElem? (pack q) (8 * i + j) (by omega)
  have hdiv : (8 * i + j) / 8 = i := by omega
  have hmod : (8 * i + j) % 8 = j := by omega
  rw [bitsOfBytes_pack, hdiv, hmod, List.getD_eq_getElem _ _ hi] at hbit
  rw [← getD_append_zeros q (padLen q.length), List.getD_eq_getElem?_getD, hbit, Option.getD_some]

theorem ceil8_lt_of_lt {n k : Nat} (h : n < 8 * k - 7) : ceil8 n < k := by unfold ceil8; omega

theorem sameButOutput_delivered (bs : List Byte) (s : State) :
    SameButOutput s ((s.setEout bs).complete .enc .ok 0#64) := ⟨rfl, rfl, rfl, rfl⟩

section
variable {bs : List Byte} {s : State}

theorem deliverEout_of_within (h : Within s.params.eoutCap bs.length) :
    deliverEout bs s = .next ((s.setEout bs).complete .enc .ok 0#64) := if_pos (fits_iff.mpr h)

theorem deliverEout_of_not_within (h : ¬ Within s.params.eoutCap bs.length) :
    deliverEout bs s = .refused .bufferCapacity := if_neg (mt fits_iff.mp h)

theorem readByte_delivered {i : Nat} (h : i < bs.length) :
    readByte .eout i ((s.setEout bs).complete .enc .ok 0#64) = bs[i] := read_replace h

end

/-- Settles O36: TOBYTES delivers `pack` of the packer's bits, which are then followed by zero bits. -/
theorem tobytesPadsWithZeroBits : Obligations.TobytesPadsWithZeroBits := by
  unfold Obligations.TobytesPadsWithZeroBits
  intro s
  have hlen : (s.enc.bp.length + 7) / 8 = (pack s.enc.bp).length := (pack_length s.enc.bp).symm
  rw [hlen]
  refine ⟨fun hfit => ⟨_, deliverEout_of_within hfit, sameButOutput_delivered _ s, rfl, fun i j hi hj => ?bits,
    fun hshort => ?whole⟩, deliverEout_of_not_within⟩
  case bits => rw [readByte_delivered hi, pack_getLsbD hi hj]
  case whole =>
    have hlt : (pack s.enc.bp).length < 2 ^ 40 := by
      rw [pack_length]
      exact ceil8_lt_of_lt (k := 2 ^ 40) hshort
    refine ⟨eoutLenOf_toNat hlt, padLen s.enc.bp.length, padLen_lt _, ?_⟩
    calc bitsOfBytes (s.setEout (pack s.enc.bp)).output
        = bitsOfBytes (pack s.enc.bp) := congrArg bitsOfBytes (output_setEout hlt s)
      _ = s.enc.bp ++ List.replicate (padLen s.enc.bp.length) false := bitsOfBytes_pack s.enc.bp

end Sys2Proof.Machine

/-! The statements of 42_bitreader.md: BRLOAD loads the reader, READ takes its next bits, and REMBITS counts those left
(R110 to R112). -/

namespace Sys2Proof.Machine

/-! ### READ (R111) -/

/-- Bit `j` of `val_msb(q)` is bit number `|q| - 1 - j` of `q` (00_scope.md section 5). -/
theorem valMsb_testBit {q : List Bool} {j : Nat} (h : j < q.length) :
    some ((valMsb q).testBit j) = q[q.length - 1 - j]? := by
  have hbit := bitsMsb_getElem? (valMsb q) q.length (q.length - 1 - j) (by omega)
  rw [bitsMsb_valMsb, show q.length - 1 - (q.length - 1 - j) = j by omega] at hbit
  exact hbit.symm

/-- A bit sequence of at most `w` bits as a `w`-bit word: its last bit is bit 0, and the bits above it are zero. -/
theorem ofNat_valMsb_getLsbD {w : Nat} {q : List Bool} (hw : q.length ≤ w) (j : Nat) :
    (BitVec.ofNat w (valMsb q)).getLsbD j = (decide (j < q.length) && (valMsb q).testBit j) := by
  rw [BitVec.getLsbD_ofNat]
  rcases Nat.lt_or_ge j q.length with hj | hj
  · rw [decide_eq_true hj, decide_eq_true (hj.trans_le hw)]
  · rw [Nat.testBit_eq_false_of_lt ((valMsb_lt q).trans_le (Nat.pow_le_pow_right Nat.two_pos hj)), Bool.and_false,
      Bool.and_false]

section
variable {r : Reader} {n : Nat}

/-- The test of READ fails exactly where the bits end before the `n` asked for, the cursor wherever it is. -/
theorem Reader.remaining_lt_iff (hn : 1 ≤ n) : r.remaining < n ↔ 8 * r.buf.length < r.cursor + n := by
  unfold Reader.remaining
  omega

theorem Reader.next_length (h : r.cursor + n ≤ 8 * r.buf.length) : (r.next n).length = n := by
  rw [Reader.next, List.length_take, List.length_drop, bitsOfBytes_length]
  omega

theorem Reader.next_getElem? {i : Nat} (hi : i < n) (h : r.cursor + n ≤ 8 * r.buf.length) :
    (r.next n)[i]? = some (bitAt r.buf (r.cursor + i)) := by
  rw [Reader.next, List.getElem?_take_of_lt hi, List.getElem?_drop]
  exact bitsOfBytes_getElem? r.buf (r.cursor + i) (by omega)

/-- The result of READ, bit by bit: the first bit read is the most significant one (R42, R111). -/
theorem Reader.next_value_getLsbD (hn : n ≤ 64) (h : r.cursor + n ≤ 8 * r.buf.length) (j : Nat) :
    (BitVec.ofNat 64 (valMsb (r.next n))).getLsbD j = (decide (j < n) && bitAt r.buf (r.cursor + (n - 1 - j))) := by
  have hlen := Reader.next_length h
  rw [ofNat_valMsb_getLsbD (hlen.trans_le hn), hlen]
  by_cases hj : j < n
  · have hbit := valMsb_testBit (q := r.next n) (hlen.symm ▸ hj)
    rw [hlen, Reader.next_getElem? (by omega) h] at hbit
    rw [Option.some.inj hbit]
  · rw [decide_eq_false hj, Bool.false_and, Bool.false_and]

end

section
variable {n : Nat} {s : State}

theorem exec_read_of_not_bitLengthOk (h : ¬ bitLengthOk n = true) : exec (.read n) s = .next (decFailed 8#8 s) :=
  if_pos (by rw [Bool.eq_false_iff.mpr h]; decide)

theorem exec_read_of_bitLengthOk (h : bitLengthOk n = true) :
    exec (.read n) s = if s.dec.br.remaining < n then .next (decFailed 6#8 s)
      else .next ((s.setReader s.dec.br.buf (s.dec.br.cursor + n)).complete .dec .ok
        (BitVec.ofNat 64 (valMsb (s.dec.br.next n)))) :=
  if_neg (by rw [h]; decide)

end

/-- Settles O38: the range test, then the test of the bits left, decide between the two failures that R165 leaves without
effect and the bits from the cursor on. -/
theorem readReturnsTheNextBits : Obligations.ReadReturnsTheNextBits := by
  unfold Obligations.ReadReturnsTheNextBits
  intro s n
  refine ⟨fun hrange => ?badRange, fun hlo hhi hshort => ?outOfBits, fun hlo hhi henough => ?read⟩
  case badRange =>
    have hbad : ¬ bitLengthOk n = true := by rw [bitLengthOk_iff]; omega
    exact exec_read_of_not_bitLengthOk hbad
  case outOfBits =>
    rw [exec_read_of_bitLengthOk (bitLengthOk_iff.mpr ⟨hlo, hhi⟩), if_pos ((Reader.remaining_lt_iff hlo).mpr hshort)]
  case read =>
    refine ⟨_, ?_, fun j _ => Reader.next_value_getLsbD hhi henough j⟩
    have hleft : ¬ s.dec.br.remaining < n := by rw [Reader.remaining_lt_iff hlo]; omega
    rw [exec_read_of_bitLengthOk (bitLengthOk_iff.mpr ⟨hlo, hhi⟩), if_neg hleft]
    rfl

/-! ### BRLOAD (R110) -/

theorem input_length (s : State) : s.input.length = s.dec.dinLen.toNat := slice_length _ _ _ _

theorem input_getElem? {s : State} {i : Nat} (hi : i < s.dec.dinLen.toNat) : s.input[i]? = some (readByte .din i s) := by
  rw [State.input, slice_getElem? _ _ _ _ _ hi, Nat.zero_add]
  rfl

theorem exec_brload_of_inputFits {s : State} (h : s.InputFits 0) :
    exec .brload s = .next ((s.setReader s.input 0).complete .dec .ok 0#64) := withInput_of_inputFits h _

/-- Settles O37: the reader takes `DIN[0 .. DIN_LEN)`, whose length has the 40 bits that BR_NBYTES shows. -/
theorem brloadCopiesTheInput : Obligations.BrloadCopiesTheInput := by
  unfold Obligations.BrloadCopiesTheInput
  intro s
  refine ⟨fun hfit => ⟨s.input, _, exec_brload_of_inputFits hfit, rfl, input_length s, fun i hi => input_getElem? hi,
    ?nbytes, rfl⟩, fun hfit => withInput_of_not_inputFits hfit _⟩
  case nbytes =>
    show s.input.length % 2 ^ 40 = s.dec.dinLen.toNat
    rw [input_length, Nat.mod_eq_of_lt s.dec.dinLen.isLt]

/-! ### REMBITS (R112) -/

/-- Settles O39: the bits left are fewer than `2^43`, so the 64-bit result is their number. -/
theorem rembitsCountsTheBitsLeft : Obligations.RembitsCountsTheBitsLeft := by
  unfold Obligations.RembitsCountsTheBitsLeft
  intro s hcursor hbuf
  have hsum : s.dec.br.remaining + s.dec.br.cursor = 8 * s.dec.br.buf.length := Nat.sub_add_cancel hcursor
  have hlt : s.dec.br.remaining < 2 ^ 64 := by omega
  refine ⟨_, execRembits_eq s, ?_⟩
  rw [BitVec.toNat_ofNat, Nat.mod_eq_of_lt hlt, hsum]

end Sys2Proof.Machine

/-! The statements of 43_header_codec.md: SERIALIZE delivers the header of the table, and DESERIALIZE reads every entry of
a header (R120, R121). -/

namespace Sys2Proof.Machine

/-! ### The layout of a header (30_encoding.md R60 to R62) -/

theorem flatMap_bytes_length (es : List HeaderEntry) :
    (es.flatMap HeaderEntry.bytes).length = (es.map fun e => 2 + e.word.length).sum := by
  rw [List.length_flatMap]
  exact congrArg List.sum (List.map_congr_left fun e _ => Nat.add_comm e.word.length 2)

theorem headerLayout_length_eq (total n : Nat) (es : List HeaderEntry) :
    (headerLayout total n es).length = layoutLength es := by
  simp only [headerLayout, layoutLength, List.length_append, List.length_cons, leBytes_length, flatMap_bytes_length]
  omega

section
variable (T : Table)

theorem tableEntries_eq_nil_iff : tableEntries T = [] ↔ T.alphabet = [] := List.map_eq_nil_iff

theorem Table.alphabet_eq_nil_iff : T.alphabet = [] ↔ ∀ c, (T.get c).len = 0#8 := by
  simp only [List.eq_nil_iff_forall_not_mem, Table.mem_alphabet, not_not]

/-- The entries of a table take the bytes that R120 writes for the symbols. -/
theorem flatMap_bytes_tableEntries :
    (tableEntries T).flatMap HeaderEntry.bytes = T.alphabet.flatMap (entryBytes T) := by
  rw [tableEntries, List.flatMap_map]
  rfl

theorem headerLayout_tableEntries (total n : Nat) :
    headerLayout total n (tableEntries T) = leBytes total 2 ++ headerBody T n := by
  rw [headerLayout, flatMap_bytes_tableEntries, headerBody, tableEntries, List.length_map]

end

section
variable {T : Table} (n : Nat)

theorem header_of_no_entry (h : T.alphabet = []) : header T n = .error .emptyAlphabet := if_pos (by rw [h]; rfl)

/-- `Header(T, n)` (R120) is the layout of the table's entries, with its own length as `header_total_bytes`. -/
theorem header_of_entry (h : tableEntries T ≠ []) :
    header T n = .ok (headerLayout (layoutLength (tableEntries T)) n (tableEntries T)) := by
  have hlen : 2 + (headerBody T n).length = layoutLength (tableEntries T) := by
    rw [← headerLayout_length_eq 0 n, headerLayout_tableEntries, List.length_append, leBytes_length]
  rw [headerLayout_tableEntries, ← hlen]
  exact if_neg fun hempty => h ((tableEntries_eq_nil_iff T).mpr (List.isEmpty_iff.mp hempty))

/-- The shortest header has one entry with a codeword of one byte (R62). -/
theorem layoutLength_tableEntries_ge (h : tableEntries T ≠ []) : 10 ≤ layoutLength (tableEntries T) := by
  obtain ⟨e, he⟩ := List.exists_mem_of_ne_nil _ h
  have hsum : 2 + e.word.length ≤ ((tableEntries T).map fun e => 2 + e.word.length).sum :=
    List.le_sum_of_mem (List.mem_map_of_mem he)
  obtain ⟨c, hc, rfl⟩ := List.mem_map.mp he
  have hlen : (T.get c).len.toNat ≠ 0 := fun h0 => Table.mem_alphabet.mp hc (BitVec.eq_of_toNat_eq h0)
  rw [leBytes_length] at hsum
  unfold layoutLength
  omega

theorem layoutLength_tableEntries_le (h : tableEntries T ≠ []) : layoutLength (tableEntries T) ≤ 8711 :=
  headerLayout_length_eq _ 0 (tableEntries T) ▸ header_length_le (header_of_entry 0 h)

end

/-! ### SERIALIZE (R120) -/

section
variable {n : Nat} {s : State}

theorem exec_serialize_of_error {st : Status} (h : header s.enc.ct n = .error st) :
    exec (.serialize n) s = .next (s.complete .enc st 0#64) := by
  rw [exec, execSerialize, h]
  rfl

theorem exec_serialize_of_ok {b : List Byte} (h : header s.enc.ct n = .ok b) :
    exec (.serialize n) s = deliverEout b s := by
  rw [exec, execSerialize, h]

end

/-- Settles O41: SERIALIZE delivers the layout of the table's entries, which is too short to leave EOUT_LEN free. -/
theorem serializeWritesTheHeader : Obligations.SerializeWritesTheHeader := by
  unfold Obligations.SerializeWritesTheHeader
  intro s n _
  refine ⟨fun hempty => ?empty, fun hentry =>
    ⟨layoutLength_tableEntries_ge hentry, layoutLength_tableEntries_le hentry, ?delivered⟩⟩
  case empty =>
    exact exec_serialize_of_error (header_of_no_entry n ((Table.alphabet_eq_nil_iff s.enc.ct).mpr hempty))
  case delivered =>
    have hlen := headerLayout_length_eq (layoutLength (tableEntries s.enc.ct)) n (tableEntries s.enc.ct)
    have hle := layoutLength_tableEntries_le hentry
    rw [exec_serialize_of_ok (header_of_entry n hentry)]
    refine ⟨fun hfit => ⟨_, deliverEout_of_within (hlen.symm ▸ hfit), sameButOutput_delivered _ s, rfl, ?_, ?_⟩,
      fun hfit => deliverEout_of_not_within (hlen.symm ▸ hfit)⟩
    · exact output_setEout (by omega) s
    · exact (eoutLenOf_toNat (by omega)).trans hlen

/-! ### What reading the entries makes of a table (R121) -/

/-- The table entry that a header entry stands for: the word masked to its length (R121). -/
def HeaderEntry.entry (e : HeaderEntry) : Entry :=
  { len := e.len, word := BitVec.ofNat 255 (leVal e.word % 2 ^ e.len.toNat) }

theorem HeaderEntry.entry_word_toNat (e : HeaderEntry) : e.entry.word.toNat = leVal e.word % 2 ^ e.len.toNat := by
  have hlt : leVal e.word % 2 ^ e.len.toNat < 2 ^ e.len.toNat := Nat.mod_lt _ (Nat.two_pow_pos _)
  have hle : 2 ^ e.len.toNat ≤ 2 ^ 255 := Nat.pow_le_pow_right Nat.two_pos (Nat.le_of_lt_succ e.len.isLt)
  exact (BitVec.toNat_ofNat _ _).trans (Nat.mod_eq_of_lt (hlt.trans_le hle))

/-- A table with the entries of a header written into it in their order. -/
def putEntries (T : Table) (es : List HeaderEntry) : Table := es.foldl (fun T e => T.put e.symbol e.entry) T

theorem lastEntry_concat (es : List HeaderEntry) (e : HeaderEntry) (c : Symbol) :
    lastEntry (es ++ [e]) c = if e.symbol = c then some e else lastEntry es c := by
  rw [lastEntry, List.reverse_concat, List.find?_cons, ← lastEntry]
  by_cases h : e.symbol = c <;> simp [h]

/-- The last entry of a symbol wins; a symbol without one keeps what the table had (R121 corner (g)). -/
theorem get_putEntries (T : Table) (es : List HeaderEntry) (c : Symbol) :
    (putEntries T es).get c = ((lastEntry es c).map HeaderEntry.entry).getD (T.get c) := by
  induction es using List.reverseRecOn with
  | nil => rfl
  | append_singleton es e ih =>
    rw [lastEntry_concat, putEntries, List.foldl_concat, ← putEntries]
    by_cases h : e.symbol = c
    · subst h
      rw [if_pos rfl, Table.get_put_same, Option.map_some, Option.getD_some]
    · rw [if_neg h, Table.get_put_other (Ne.symm h), ih]

/-! ### Reading a header (R121) -/

theorem parseEntries_flatMap_bytes {es : List HeaderEntry} (h : ∀ e ∈ es, e.fitting) (T : Table) (pos : Nat)
    (tail : List Byte) :
    parseEntries es.length T pos (es.flatMap HeaderEntry.bytes ++ tail) =
      .ok (putEntries T es, pos + (es.map fun e => 2 + e.word.length).sum) := by
  induction es generalizing T pos with
  | nil => rfl
  | cons e es ih =>
    obtain ⟨he, hes⟩ := List.forall_mem_cons.mp h
    have hword : ceil8 e.len.toNat = e.word.length := he.symm
    rw [List.flatMap_cons, HeaderEntry.bytes, List.length_cons, List.append_assoc, List.cons_append, List.cons_append,
      parseEntries, hword, takeBytes_append]
    refine (ih hes _ _).trans ?_
    rw [List.map_cons, List.sum_cons, Nat.add_assoc pos, Nat.add_assoc pos]
    rfl

theorem leVal_leBytes_of_lt {v k : Nat} (h : v < 256 ^ k) : leVal (leBytes v k) = v :=
  (leVal_leBytes v k).trans (Nat.mod_eq_of_lt h)

/-- The field `alphabet_size_minus_1` gives back the number of entries (R60). -/
theorem alphabetSize_field_toNat_succ {k : Nat} (hlo : 1 ≤ k) (hhi : k ≤ 256) :
    (BitVec.ofNat 8 (k - 1)).toNat + 1 = k := by
  rw [BitVec.toNat_ofNat]
  omega

/-- ParseHeader of a layout reads all of its fields, and holds `header_total_bytes` against the bytes consumed. -/
theorem parseHeader_headerLayout {es : List HeaderEntry} {total n : Nat} (hlo : 1 ≤ es.length) (hhi : es.length ≤ 256)
    (hfit : ∀ e ∈ es, e.fitting) (htotal : total < 2 ^ 16) (hn : n < 2 ^ 32) (T : Table) (tail : List Byte) :
    parseHeader T (headerLayout total n es ++ tail) =
      if total = layoutLength es then .ok (putEntries T es, n, layoutLength es) else .error .headerSizeMismatch := by
  have htotalField := leVal_leBytes_of_lt (k := 2) (v := total) (by omega)
  have hnField := leVal_leBytes_of_lt (k := 4) (v := n) (by omega)
  have hconsumed : 7 + (es.map fun e => 2 + e.word.length).sum = layoutLength es := rfl
  simp only [leBytes] at htotalField hnField
  simp only [headerLayout, leBytes, List.cons_append, List.nil_append, parseHeader,
    alphabetSize_field_toNat_succ hlo hhi, parseEntries_flatMap_bytes hfit, htotalField, hnField, hconsumed]

/-! ### DESERIALIZE (R121) -/

section
variable {s : State} (hfit : s.InputFits 0)
include hfit

theorem exec_deserialize_of_error {st : Status}
    (h : parseHeader (Table.absent .dec s.dec.tableDraws) s.input = .error st) :
    exec .deserialize s = .next (s.complete .dec st 0#64) := by
  rw [exec, execDeserialize, withInput_of_inputFits hfit, h]
  rfl

theorem exec_deserialize_of_ok {T : Table} {n pos : Nat}
    (h : parseHeader (Table.absent .dec s.dec.tableDraws) s.input = .ok (T, n, pos)) :
    exec .deserialize s = .next ((s.setHeader T n pos).complete .dec .ok 0#64) := by
  rw [exec, execDeserialize, withInput_of_inputFits hfit, h]
  rfl

end

/-- Settles O43: the parse consumes the whole layout and writes its entries in order into the all-absent table. -/
theorem deserializeReadsEveryEntry : Obligations.DeserializeReadsEveryEntry := by
  unfold Obligations.DeserializeReadsEveryEntry
  intro u es total n tail hlo hhi hes htotal hn hinput hfit
  have hparse := parseHeader_headerLayout hlo hhi hes htotal hn (Table.absent .dec u.dec.tableDraws) tail
  rw [← hinput] at hparse
  constructor
  · intro heq
    rw [if_pos heq, ← heq] at hparse
    refine ⟨putEntries _ es, exec_deserialize_of_ok hfit hparse, fun c => ?entries⟩
    case entries =>
      rw [get_putEntries]
      refine ⟨fun hnone => ?_, fun e hsome => ?_⟩
      · rw [hnone, Option.map_none, Option.getD_none, Table.absent_get]
      · rw [hsome, Option.map_some, Option.getD_some]
        exact ⟨rfl, e.entry_word_toNat⟩
  · intro hne
    rw [if_neg hne] at hparse
    exact exec_deserialize_of_error hfit hparse

end Sys2Proof.Machine

/-! The statements of 44_encoder.md: a codeword is appended in pieces, ENCODE delivers the payload, and ENCFILE the header
and then the payload (R130 to R132). -/

namespace Sys2Proof.Machine

/-! ### The inner loop of EncodeBits (R130) -/

/-- Each turn takes the highest bits that are left, and at least one of them; a loop with a turn for each bit ends with
all of them appended. The bits above `rem` are never looked at. -/
theorem appendChunks_eq {fuel rem : Nat} (h : rem ≤ fuel) (w : Nat) (q : List Bool) :
    appendChunks fuel w rem q = q ++ bitsMsb w rem := by
  induction fuel generalizing rem q with
  | zero => rw [Nat.le_zero.mp h, bitsMsb_zero, List.append_nil]; rfl
  | succ fuel ih =>
    rw [appendChunks]
    split
    next hzero => rw [hzero, bitsMsb_zero, List.append_nil]
    next hpos =>
      have hpiece : min 64 rem + (rem - min 64 rem) = rem := by omega
      have hsplit := bitsMsb_split w (min 64 rem) (rem - min 64 rem)
      rw [hpiece] at hsplit
      rw [ih (by omega), List.append_assoc, ← hsplit]

/-- Settles O47: the pieces are the codeword's bits, most significant first, of which only the low `len` count. -/
theorem chunkedAppendAddsTheCodeword : Obligations.ChunkedAppendAddsTheCodeword := by
  unfold Obligations.ChunkedAppendAddsTheCodeword
  intro w len q
  rw [appendChunks_eq (Nat.le_refl len), bitsMsb_mod, bitsMsb_eq_map]

/-! ### EncodeBits (R130, 30_encoding.md R63) -/

section
variable {T : Table} {x : List Symbol}

theorem Table.covers_cons {c : Symbol} : T.Covers (c :: x) ↔ (T.get c).len ≠ 0#8 ∧ T.Covers x := List.forall_mem_cons

theorem encodeBits_of_covers (h : T.Covers x) : encodeBits T x = .ok (payloadBits T x) := by
  induction x with
  | nil => rfl
  | cons c x ih =>
    obtain ⟨hc, hx⟩ := Table.covers_cons.mp h
    rw [encodeBits, if_neg hc, ih hx]
    rfl

theorem encodeBits_of_not_covers (h : ¬ T.Covers x) : encodeBits T x = .error .unknownSymbol := by
  induction x with
  | nil => exact absurd (List.forall_mem_nil _) h
  | cons c x ih =>
    rw [encodeBits]
    split
    next => rfl
    next hc => rw [ih fun hx => h (Table.covers_cons.mpr ⟨hc, hx⟩)]

theorem pack_payloadBits_length (T : Table) (x : List Symbol) : (pack (payloadBits T x)).length = payloadLength T x := by
  rw [pack_length, payloadBits, List.length_flatMap, funext T.code_length]
  rfl

/-- A source that SRC_LEN counts has a payload that EOUT_LEN can count (10_state.md R18). -/
theorem payloadLength_source_lt {s : State} (h : s.enc.ct.Covers s.source) :
    payloadLength s.enc.ct s.source < 2 ^ 37 :=
  pack_payloadBits_length s.enc.ct s.source ▸ payload_length_le (encodeBits_of_covers h)

end

/-! ### What the host finds after an output of fewer than 2^40 bytes (10_state.md R15, R18) -/

section
variable {bs : List Byte} (h : bs.length < 2 ^ 40) (s : State)
include h

theorem output_delivered : ((s.setEout bs).complete .enc .ok 0#64).output = bs := output_setEout h s

theorem eoutLen_delivered : ((s.setEout bs).complete .enc .ok 0#64).enc.eoutLen.toNat = bs.length := eoutLenOf_toNat h

end

/-! ### ENCODE (R131) -/

section
variable {s : State} (hfit : s.SourceFits)
include hfit

theorem exec_encode_of_not_covers (h : ¬ s.enc.ct.Covers s.source) : exec .encode s = .next (encFailed 3#8 s) := by
  rw [exec, execEncode, withSource_of_sourceFits hfit, encodeBits_of_not_covers h]
  rfl

theorem exec_encode_of_covers (h : s.enc.ct.Covers s.source) :
    exec .encode s = deliverEout (pack (payloadBits s.enc.ct s.source)) s := by
  rw [exec, execEncode, withSource_of_sourceFits hfit, encodeBits_of_covers h]

end

/-- Settles O45: ENCODE delivers `pack` of the codewords' bits, which are then followed by zero bits. -/
theorem encodeWritesThePayload : Obligations.EncodeWritesThePayload := by
  unfold Obligations.EncodeWritesThePayload
  refine fun s => ⟨fun hsource => ⟨exec_encode_of_not_covers hsource, fun hcovers => ?delivered⟩,
    exec_of_not_inputWithin (i := .encode)⟩
  case delivered =>
    have hlen := pack_payloadBits_length s.enc.ct s.source
    have hlt := payloadLength_source_lt hcovers
    have hshort : (pack (payloadBits s.enc.ct s.source)).length < 2 ^ 40 := by omega
    rw [exec_encode_of_covers hsource hcovers, ← hlen]
    refine ⟨fun hout => ⟨_, deliverEout_of_within hout, sameButOutput_delivered _ s, rfl, eoutLen_delivered hshort s,
      padLen (payloadBits s.enc.ct s.source).length, padLen_lt _, ?bits⟩, deliverEout_of_not_within⟩
    case bits =>
      rw [output_delivered hshort]
      exact bitsOfBytes_pack _

/-! ### ENCFILE (R132) -/

theorem tableEntries_ne_nil {T : Table} {c : Symbol} (h : (T.get c).len ≠ 0#8) : tableEntries T ≠ [] := fun hnil =>
  h ((Table.alphabet_eq_nil_iff T).mp ((tableEntries_eq_nil_iff T).mp hnil) c)

section
variable {s : State} (hfit : s.SourceFits)
include hfit

theorem exec_encfile_of_header_error {st : Status} (h : header s.enc.ct s.enc.srcLen.toNat = .error st) :
    exec .encfile s = .next (s.complete .enc st 0#64) := by
  rw [exec, execEncfile, withSource_of_sourceFits hfit, h]
  rfl

variable {b : List Byte} (hheader : header s.enc.ct s.enc.srcLen.toNat = .ok b)
include hheader

theorem exec_encfile_of_not_covers (h : ¬ s.enc.ct.Covers s.source) : exec .encfile s = .next (encFailed 3#8 s) := by
  rw [exec, execEncfile, withSource_of_sourceFits hfit, hheader, encodeBits_of_not_covers h]
  rfl

theorem exec_encfile_of_covers (h : s.enc.ct.Covers s.source) :
    exec .encfile s = deliverEout (b ++ pack (payloadBits s.enc.ct s.source)) s := by
  rw [exec, execEncfile, withSource_of_sourceFits hfit, hheader, encodeBits_of_covers h]

/-- Where the file fits EOUT, so do the header and the payload that it consists of. -/
theorem encfile_eq_serialize_append_encode (h : s.enc.ct.Covers s.source)
    (hout : Within s.params.eoutCap (b.length + payloadLength s.enc.ct s.source)) :
    ∃ u v t, exec (.serialize s.enc.srcLen.toNat) s = .next u ∧ exec .encode s = .next v ∧
      exec .encfile s = .next t ∧ SameButOutput s t ∧ t.enc.lasterr = 0#8 ∧
      t.output = u.output ++ v.output ∧ t.enc.eoutLen.toNat = u.enc.eoutLen.toNat + v.enc.eoutLen.toNat := by
  have hheaderLen := header_length_le hheader
  have hpayloadLt := payloadLength_source_lt h
  rw [← pack_payloadBits_length] at hout hpayloadLt
  rw [exec_serialize_of_ok hheader, exec_encode_of_covers hfit h, exec_encfile_of_covers hfit hheader h]
  generalize pack (payloadBits s.enc.ct s.source) = p at hout hpayloadLt ⊢
  have hfileLen := List.length_append (as := b) (bs := p)
  have hbShort : b.length < 2 ^ 40 := by omega
  have hpShort : p.length < 2 ^ 40 := by omega
  have hfileShort : (b ++ p).length < 2 ^ 40 := by omega
  refine ⟨_, _, _, deliverEout_of_within (within_mono (Nat.le_add_right _ _) hout),
    deliverEout_of_within (within_mono (Nat.le_add_left _ _) hout), deliverEout_of_within (hfileLen ▸ hout),
    sameButOutput_delivered _ s, rfl, ?_, ?_⟩
  · rw [output_delivered hbShort, output_delivered hpShort, output_delivered hfileShort]
  · rw [eoutLen_delivered hbShort, eoutLen_delivered hpShort, eoutLen_delivered hfileShort, hfileLen]

end

/-- Settles O46: ENCFILE forms the header that SERIALIZE forms, then the payload that ENCODE forms, and delivers the two
together. -/
theorem encfileIsHeaderThenPayload : Obligations.EncfileIsHeaderThenPayload := by
  unfold Obligations.EncfileIsHeaderThenPayload
  refine fun s => ⟨fun hsource => ⟨fun hempty => ?empty, fun c₀ hc₀ hnot => ?unknown, fun c₀ hc₀ hcovers => ?file⟩,
    exec_of_not_inputWithin (i := .encfile)⟩
  case empty =>
    exact exec_encfile_of_header_error hsource (header_of_no_entry _ ((Table.alphabet_eq_nil_iff s.enc.ct).mpr hempty))
  case unknown =>
    exact exec_encfile_of_not_covers hsource (header_of_entry _ (tableEntries_ne_nil hc₀)) hnot
  case file =>
    have hheader := header_of_entry s.enc.srcLen.toNat (tableEntries_ne_nil hc₀)
    rw [← headerLayout_length_eq (layoutLength (tableEntries s.enc.ct)) s.enc.srcLen.toNat]
    refine ⟨encfile_eq_serialize_append_encode hsource hheader hcovers, fun hout => ?_⟩
    rw [exec_encfile_of_covers hsource hheader hcovers]
    refine deliverEout_of_not_within ?_
    rwa [List.length_append, pack_payloadBits_length]

end Sys2Proof.Machine

/-! The statements of 45_decoder.md: the trie of an unambiguous table accepts the codewords of its symbols and nothing
else, the walk through it inverts the encoding, and DECFILE is DESERIALIZE and DECODE in one (R140 to R145); and for what
causes a step is refused. -/

namespace Sys2Proof.Machine

/-! ### Nodes and arenas (45_decoder.md R140, R141) -/

/-- The symbol that a node emits, if it is a leaf (R142: ACCEPT). -/
def Node.accepts (n : Node) : Option Symbol := if n.leaf then some n.sym else none

theorem Node.accepts_eq_some {n : Node} {c : Symbol} : n.accepts = some c ↔ n.leaf = true ∧ n.sym = c := by
  unfold Node.accepts
  split <;> simp [*]

/-- The node of a symbol's codeword is marked as its leaf (R141). -/
def Node.mark (n : Node) (c : Symbol) : Node := { n with leaf := true, sym := c }

@[simp] theorem Node.child_mark (n : Node) (c : Symbol) (b : Bool) : (n.mark c).child b = n.child b := rfl

@[simp] theorem Node.accepts_mark (n : Node) (c : Symbol) : (n.mark c).accepts = some c := rfl

@[simp] theorem Node.new_child (b : Bool) : Node.new.child b = none := by cases b <;> rfl

@[simp] theorem Node.child_setChild (n : Node) (b b' : Bool) (j : Nat) :
    (n.setChild b j).child b' = if b' = b then some j else n.child b' := by cases b <;> cases b' <;> rfl

@[simp] theorem Node.accepts_setChild (n : Node) (b : Bool) (j : Nat) : (n.setChild b j).accepts = n.accepts := by
  cases b <;> rfl

section
variable {A : Arena} {i : Nat}

theorem Arena.node_of_length_le (h : A.length ≤ i) : A.node i = Node.new := List.getD_eq_default _ _ h

theorem Arena.node_set (hi : i < A.length) (n : Node) (j : Nat) :
    Arena.node (List.set A i n) j = if j = i then n else A.node j := by
  unfold Arena.node
  rw [List.getD_eq_getElem?_getD, List.getElem?_set, List.getD_eq_getElem?_getD]
  by_cases h : j = i
  · subst h; simp [hi]
  · rw [if_neg (Ne.symm h), if_neg h]

/-- The arena with a node marked as the leaf of a symbol. -/
def Arena.mark (A : Arena) (i : Nat) (c : Symbol) : Arena := List.set A i ((A.node i).mark c)

theorem Arena.node_mark (hi : i < A.length) (c : Symbol) (j : Nat) :
    (A.mark i c).node j = if j = i then (A.node i).mark c else A.node j := Arena.node_set hi _ j

theorem Arena.length_mark (A : Arena) (i : Nat) (c : Symbol) : (A.mark i c).length = A.length := List.length_set

/-- Beyond its end an arena reads as new nodes, so a new node there is not seen. -/
theorem Arena.node_concat_new (A : Arena) (j : Nat) : Arena.node (A ++ [Node.new]) j = A.node j := by
  rcases Nat.lt_or_ge j A.length with h | h
  · exact List.getD_append _ _ _ _ h
  · rw [Arena.node_of_length_le h, Arena.node, List.getD_append_right _ _ _ _ h]
    cases j - A.length <;> rfl

theorem Arena.node_singleton_new (j : Nat) : Arena.node [Node.new] j = Node.new := Arena.node_concat_new [] j

theorem Arena.node_grow (hi : i < A.length) (b : Bool) (j : Nat) :
    (A.grow i b).node j = if j = i then (A.node i).setChild b A.length else A.node j := by
  rw [Arena.grow, Arena.node_concat_new, Arena.node_set hi]

theorem Arena.node_grow_new (hi : i < A.length) (b : Bool) : (A.grow i b).node A.length = Node.new := by
  rw [Arena.node_grow hi, if_neg (Nat.ne_of_gt hi), Arena.node_of_length_le (Nat.le_refl _)]

theorem Arena.length_grow (A : Arena) (i : Nat) (b : Bool) : (A.grow i b).length = A.length + 1 := by
  simp [Arena.grow]

end

/-! ### Bit paths (R141) -/

/-- The node that a bit path leads to from the root. -/
def Arena.nodeAt (A : Arena) (p : List Bool) : Option Nat := p.foldlM (fun i b => (A.node i).child b) 0

/-- The symbol that the node at a bit path emits, if there is one and it is a leaf. -/
def Arena.acceptsAt (A : Arena) (p : List Bool) : Option Symbol := (A.nodeAt p).bind fun i => (A.node i).accepts

@[simp] theorem Arena.nodeAt_nil (A : Arena) : A.nodeAt [] = some 0 := rfl

theorem Arena.nodeAt_concat (A : Arena) (p : List Bool) (b : Bool) :
    A.nodeAt (p ++ [b]) = (A.nodeAt p).bind fun i => (A.node i).child b := by
  simp [Arena.nodeAt, List.foldlM_append]

section
variable {A : Arena} {p : List Bool} {i : Nat} {b : Bool}

theorem Arena.nodeAt_concat_of_nodeAt (h : A.nodeAt p = some i) : A.nodeAt (p ++ [b]) = (A.node i).child b := by
  rw [Arena.nodeAt_concat, h, Option.bind_some]

/-- Paths depend on the children of the nodes alone. -/
theorem Arena.nodeAt_mark (hi : i < A.length) (c : Symbol) : (A.mark i c).nodeAt = A.nodeAt := by
  refine funext fun q => congrArg (fun f => List.foldlM f 0 q) (funext fun j => funext fun b => ?_)
  rw [Arena.node_mark hi]
  split
  next hj => rw [Node.child_mark, hj]
  next => rfl

theorem Arena.nodeAt_append_of_none (h : A.nodeAt p = none) (q : List Bool) : A.nodeAt (p ++ q) = none := by
  rw [Arena.nodeAt, List.foldlM_append, ← Arena.nodeAt, h]
  rfl

theorem Arena.exists_nodeAt_of_acceptsAt {q : List Bool} {c : Symbol} (h : A.acceptsAt (p ++ q) = some c) :
    ∃ j, A.nodeAt p = some j := by
  cases hp : A.nodeAt p with
  | some j => exact ⟨j, rfl⟩
  | none => rw [Arena.acceptsAt, Arena.nodeAt_append_of_none hp] at h; cases h

theorem Arena.acceptsAt_of_nodeAt (h : A.nodeAt p = some i) : A.acceptsAt p = (A.node i).accepts := by
  rw [Arena.acceptsAt, h, Option.bind_some]

end

/-- The nodes that bit paths lead to are nodes of the arena, each by one path. -/
structure Arena.IsTree (A : Arena) : Prop where
  lt_length : ∀ {p i}, A.nodeAt p = some i → i < A.length
  path_unique : ∀ {p q i}, A.nodeAt p = some i → A.nodeAt q = some i → p = q

namespace Arena.IsTree
variable {A : Arena} {p : List Bool} {cur : Nat} {b : Bool}

theorem singleton : Arena.IsTree [Node.new] := by
  have hat : ∀ {p i}, Arena.nodeAt [Node.new] p = some i → p = [] ∧ i = 0 := fun {p i} h => by
    induction p using List.reverseRecOn generalizing i with
    | nil => exact ⟨rfl, (Option.some.inj h).symm⟩
    | append_singleton p b ih =>
      obtain ⟨j, -, hj⟩ := Option.bind_eq_some_iff.mp ((Arena.nodeAt_concat _ p b).symm.trans h)
      rw [Arena.node_singleton_new, Node.new_child] at hj
      cases hj
  exact ⟨fun h => (hat h).2 ▸ Nat.one_pos, fun h h' => (hat h).1.trans (hat h').1.symm⟩

/-- A child that a node lacked adds one path, that of the new node. -/
theorem nodeAt_grow (h : A.IsTree) (hp : A.nodeAt p = some cur) (hnone : (A.node cur).child b = none) (q : List Bool) :
    (A.grow cur b).nodeAt q = if q = p ++ [b] then some A.length else A.nodeAt q := by
  have hlt := h.lt_length hp
  induction q using List.reverseRecOn with
  | nil => rw [if_neg (by simp)]; rfl
  | append_singleton q b' ih =>
    rw [Arena.nodeAt_concat, ih]
    split
    next hq =>
      subst hq
      have hold : A.nodeAt (p ++ [b]) = none := (Arena.nodeAt_concat_of_nodeAt hp).trans hnone
      rw [Option.bind_some, Arena.node_grow_new hlt, Node.new_child, if_neg (by simp), Arena.nodeAt_concat, hold]
      rfl
    next =>
      cases hq : A.nodeAt q with
      | none =>
        have hne : q ≠ p := fun he => by rw [he, hp] at hq; cases hq
        rw [if_neg (by simp [hne]), Arena.nodeAt_concat, hq]
        rfl
      | some i =>
        rw [Arena.nodeAt_concat_of_nodeAt hq, Option.bind_some, Arena.node_grow hlt]
        by_cases hi : i = cur
        · subst hi
          rw [if_pos rfl, Node.child_setChild, h.path_unique hq hp]
          simp
        · have hne : q ≠ p := fun he => hi (Option.some.inj (hq.symm.trans (he ▸ hp)))
          rw [if_neg hi, if_neg (by simp [hne])]

theorem grow (h : A.IsTree) (hp : A.nodeAt p = some cur) (hnone : (A.node cur).child b = none) :
    (A.grow cur b).IsTree := by
  have hat := h.nodeAt_grow hp hnone
  constructor
  · intro q i hq
    rw [hat] at hq
    rw [Arena.length_grow]
    split at hq
    · cases hq; exact Nat.lt_succ_self _
    · exact Nat.lt_succ_of_lt (h.lt_length hq)
  · intro q r i hq hr
    rw [hat] at hq hr
    split at hq <;> split at hr
    next hq' hr' => rw [hq', hr']
    next => cases hq; exact absurd (h.lt_length hr) (Nat.lt_irrefl _)
    next => cases hr; exact absurd (h.lt_length hq) (Nat.lt_irrefl _)
    next => exact h.path_unique hq hr

theorem acceptsAt_grow (h : A.IsTree) (hp : A.nodeAt p = some cur) (hnone : (A.node cur).child b = none)
    (q : List Bool) : (A.grow cur b).acceptsAt q = A.acceptsAt q := by
  have hlt := h.lt_length hp
  have hat := h.nodeAt_grow hp hnone q
  split at hat
  next hq =>
    have hold : A.nodeAt q = none := hq ▸ (Arena.nodeAt_concat_of_nodeAt hp).trans hnone
    rw [Arena.acceptsAt_of_nodeAt hat, Arena.node_grow_new hlt, Arena.acceptsAt, hold]
    rfl
  next =>
    rw [Arena.acceptsAt, Arena.acceptsAt, hat]
    refine Option.bind_congr fun i _ => ?_
    rw [Arena.node_grow hlt]
    split
    next hi => rw [Node.accepts_setChild, hi]
    next => rfl

/-- Following a bit path makes the nodes that are missing, none of them a leaf, and ends at the node of the path. -/
theorem descend (h : A.IsTree) (hp : A.nodeAt p = some cur) (q : List Bool) :
    (trieDescend A cur q).1.IsTree ∧ (trieDescend A cur q).1.nodeAt (p ++ q) = some (trieDescend A cur q).2 ∧
      ∀ r, (trieDescend A cur q).1.acceptsAt r = A.acceptsAt r := by
  induction q generalizing A cur p with
  | nil => exact ⟨h, (List.append_nil p).symm ▸ hp, fun _ => rfl⟩
  | cons b q ih =>
    rw [trieDescend, List.append_cons]
    split
    next j hchild => exact ih h ((Arena.nodeAt_concat_of_nodeAt hp).trans hchild)
    next hnone =>
      obtain ⟨htree, hat, haccepts⟩ := ih (h.grow hp hnone) ((h.nodeAt_grow hp hnone _).trans (if_pos rfl))
      exact ⟨htree, hat, fun r => (haccepts r).trans (h.acceptsAt_grow hp hnone r)⟩

/-- One more leaf keeps every path and changes only what its own path accepts. -/
theorem mark (h : A.IsTree) (hp : A.nodeAt p = some cur) (c : Symbol) :
    (A.mark cur c).IsTree ∧ ∀ q, (A.mark cur c).acceptsAt q = if q = p then some c else A.acceptsAt q := by
  have hlt := h.lt_length hp
  have hat := Arena.nodeAt_mark hlt c
  constructor
  · exact ⟨fun hq => Arena.length_mark A cur c ▸ h.lt_length (hat ▸ hq),
      fun hq hr => h.path_unique (hat ▸ hq) (hat ▸ hr)⟩
  · intro q
    rw [Arena.acceptsAt, hat, Arena.acceptsAt]
    split
    next hq => rw [hq, hp, Option.bind_some, Arena.node_mark hlt, if_pos rfl, Node.accepts_mark]
    next hq =>
      refine Option.bind_congr fun i hi => ?_
      have hne : i ≠ cur := fun he => hq (h.path_unique hi (he ▸ hp))
      rw [Arena.node_mark hlt, if_neg hne]

end Arena.IsTree

/-! ### The trie of a table (R141) -/

/-- Inserting a codeword changes what its path accepts, and nothing else. -/
theorem Arena.IsTree.insert {A : Arena} (h : A.IsTree) (T : Table) (c : Symbol) :
    (trieInsert T A c).IsTree ∧
      ∀ p, (trieInsert T A c).acceptsAt p = if p = T.code c then some c else A.acceptsAt p := by
  obtain ⟨htree, hat, haccepts⟩ := h.descend A.nodeAt_nil (T.code c)
  obtain ⟨hmarked, hmark⟩ := htree.mark hat c
  exact ⟨hmarked, fun p => (hmark p).trans (by rw [haccepts, List.nil_append])⟩

/-- Inserting symbols with different codewords makes a trie that accepts exactly their codewords, each for its symbol. -/
theorem acceptsAt_foldl_trieInsert {T : Table} {L : List Symbol}
    (h : ∀ c ∈ L, ∀ d ∈ L, T.code c = T.code d → c = d) :
    (L.foldl (trieInsert T) [Node.new]).IsTree ∧
      ∀ p c, (L.foldl (trieInsert T) [Node.new]).acceptsAt p = some c ↔ c ∈ L ∧ T.code c = p := by
  induction L using List.reverseRecOn with
  | nil =>
    refine ⟨Arena.IsTree.singleton, fun p c => ⟨fun hc => ?_, fun hc => absurd hc.1 List.not_mem_nil⟩⟩
    obtain ⟨i, -, hi⟩ := Option.bind_eq_some_iff.mp hc
    rw [List.foldl_nil, Arena.node_singleton_new] at hi
    cases hi
  | append_singleton L s ih =>
    obtain ⟨htree, haccepts⟩ := ih fun c hc d hd =>
      h c (List.mem_append_left _ hc) d (List.mem_append_left _ hd)
    have hs : s ∈ L ++ [s] := List.mem_append_right _ (List.mem_singleton_self s)
    obtain ⟨htree', haccepts'⟩ := htree.insert T s
    rw [List.foldl_concat]
    refine ⟨htree', fun p c => ?_⟩
    rw [haccepts']
    split
    next hp =>
      exact ⟨fun hc => Option.some.inj hc ▸ ⟨hs, hp.symm⟩,
        fun ⟨hc, hcode⟩ => congrArg some (h s hs c hc (hp.symm.trans hcode.symm))⟩
    next hp =>
      rw [haccepts, List.mem_append, List.mem_singleton]
      exact ⟨fun ⟨hc, hcode⟩ => ⟨.inl hc, hcode⟩,
        fun ⟨hc, hcode⟩ => ⟨hc.resolve_right fun he => hp (he ▸ hcode.symm), hcode⟩⟩

/-! ### One bit of the walk (R142, R143) -/

theorem walkFrom_zero (A : Arena) (cur k : Nat) (q : List Bool) : walkFrom A 0 cur k q = some ([], k) := by
  cases q <;> rfl

section
variable {A : Arena} {n cur k j : Nat} {b : Bool} {q : List Bool} (hchild : (A.node cur).child b = some j)
include hchild

theorem walkFrom_accept (hleaf : (A.node j).leaf = true) :
    walkFrom A (n + 1) cur k (b :: q) =
      (walkFrom A n 0 (k + 1) q).map fun r => ((A.node j).sym :: r.1, r.2) := by
  simp only [walkFrom, hchild, hleaf, if_true]
  cases walkFrom A n 0 (k + 1) q <;> rfl

theorem walkFrom_internal (hleaf : ¬ (A.node j).leaf = true) :
    walkFrom A (n + 1) cur k (b :: q) = walkFrom A (n + 1) j (k + 1) q := by
  simp only [walkFrom, hchild, if_neg hleaf]

end

section
variable {T : Table} (hT : T.PrefixFree)
include hT

/-- The leaves of the trie are in one-to-one correspondence with the alphabet, the codeword being the path (R141). -/
theorem trieBuild_acceptsAt {p : List Bool} {c : Symbol} :
    (trieBuild T).acceptsAt p = some c ↔ (T.get c).len ≠ 0#8 ∧ T.code c = p := by
  rw [← Table.mem_alphabet]
  refine (acceptsAt_foldl_trieInsert fun c hc d hd h => ?_).2 p c
  by_contra hne
  exact hT c d hne (Table.mem_alphabet.mp hc) (Table.mem_alphabet.mp hd) (h ▸ List.prefix_refl _)

/-! ### The walk (R142, R143) -/

/-- What a walk emits is covered by the table, and its codewords are the bits walked: those of the path to the node where
it starts, then those read. -/
theorem payload_of_walkFrom {n cur k : Nat} {p q : List Bool} {r : List Symbol × Nat}
    (hp : (trieBuild T).nodeAt p = some cur) (h : walkFrom (trieBuild T) n cur k q = some r) :
    T.Covers r.1 ∧ payloadBits T r.1 <+: p ++ q := by
  generalize hA : trieBuild T = A at hp h
  fun_induction walkFrom A n cur k q generalizing p r with
  | case1 => cases h; exact ⟨List.forall_mem_nil _, List.nil_prefix⟩
  | case2 | case3 | case4 => cases h
  | case5 n cur k b q j hchild hleaf out k' hwalk ih =>
    cases h
    obtain ⟨hcovers, hprefix⟩ := ih A.nodeAt_nil hwalk
    have haccepts : (trieBuild T).acceptsAt (p ++ [b]) = some (A.node j).sym := by
      rw [hA, Arena.acceptsAt_of_nodeAt ((Arena.nodeAt_concat_of_nodeAt hp).trans hchild), Node.accepts, if_pos hleaf]
    obtain ⟨hlen, hcode⟩ := (trieBuild_acceptsAt hT).mp haccepts
    refine ⟨Table.covers_cons.mpr ⟨hlen, hcovers⟩, ?_⟩
    rw [payloadBits, List.flatMap_cons, hcode, List.append_cons p b q, List.prefix_append_right_inj]
    exact hprefix
  | case6 n cur k b q j hchild hleaf ih =>
    rw [List.append_cons p b q]
    exact ih ((Arena.nodeAt_concat_of_nodeAt hp).trans hchild) h

/-- Within the codeword of a symbol the walk goes on to its leaf, since no codeword ends before. -/
theorem walkFrom_code {c : Symbol} (hc : (T.get c).len ≠ 0#8) {p r : List Bool} {cur : Nat}
    (hp : (trieBuild T).nodeAt p = some cur) (hcode : T.code c = p ++ r) (hr : r ≠ []) (n k : Nat) (q : List Bool) :
    walkFrom (trieBuild T) (n + 1) cur k (r ++ q) =
      (walkFrom (trieBuild T) n 0 (k + r.length) q).map fun o => (c :: o.1, o.2) := by
  induction r generalizing p cur k with
  | nil => exact absurd rfl hr
  | cons b r ih =>
    have haccepts := (trieBuild_acceptsAt hT).mpr ⟨hc, hcode⟩
    rw [List.append_cons] at hcode haccepts
    obtain ⟨j, hj⟩ := Arena.exists_nodeAt_of_acceptsAt haccepts
    have hchild := (Arena.nodeAt_concat_of_nodeAt hp).symm.trans hj
    by_cases hlast : r = []
    · subst hlast
      rw [List.append_nil, Arena.acceptsAt_of_nodeAt hj] at haccepts
      obtain ⟨hleaf, hsym⟩ := Node.accepts_eq_some.mp haccepts
      rw [List.singleton_append, walkFrom_accept hchild hleaf, hsym]
      rfl
    · have hinternal : ¬ ((trieBuild T).node j).leaf = true := fun hleaf => by
        obtain ⟨hd, hdcode⟩ := (trieBuild_acceptsAt hT).mp
          ((Arena.acceptsAt_of_nodeAt hj).trans (Node.accepts_eq_some.mpr ⟨hleaf, rfl⟩))
        by_cases hdc : ((trieBuild T).node j).sym = c
        · rw [hdc, hcode] at hdcode
          exact hlast (List.append_right_eq_self.mp hdcode)
        · exact hT _ c hdc hd hc ⟨r, by rw [hdcode, hcode]⟩
      rw [List.cons_append, walkFrom_internal hchild hinternal, ih hj hcode hlast, List.length_cons,
        Nat.add_right_comm, Nat.add_assoc]

/-- The walk gives back the symbols whose codewords begin the bits, and consumes these codewords (R147). -/
theorem walkFrom_payloadBits {x : List Symbol} (hx : T.Covers x) (k : Nat) (q : List Bool) :
    walkFrom (trieBuild T) x.length 0 k (payloadBits T x ++ q) = some (x, k + (payloadBits T x).length) := by
  induction x generalizing k with
  | nil => exact walkFrom_zero _ _ _ _
  | cons c x ih =>
    obtain ⟨hc, hx⟩ := Table.covers_cons.mp hx
    have hcode : T.code c ≠ [] := fun h => hc (BitVec.eq_of_toNat_eq (by rw [← Table.code_length, h]; rfl))
    rw [payloadBits, List.flatMap_cons, ← payloadBits, List.append_assoc, List.length_cons,
      walkFrom_code hT hc (Arena.nodeAt_nil _) (List.nil_append _).symm hcode, ih hx, List.length_append, Nat.add_assoc]
    rfl

theorem decodeWalk_of_payload {x : List Symbol} {P : List Byte} (hx : T.Covers x)
    (h : payloadBits T x <+: bitsOfBytes P) : decodeWalk T x.length P = .ok (x, (payloadBits T x).length) := by
  obtain ⟨q, hq⟩ := h
  rw [decodeWalk, ← hq, walkFrom_payloadBits hT hx, Nat.zero_add]

theorem payload_of_decodeWalk {n k : Nat} {P : List Byte} {out : List Symbol} (h : decodeWalk T n P = .ok (out, k)) :
    T.Covers out ∧ payloadBits T out <+: bitsOfBytes P := by
  unfold decodeWalk at h
  split at h <;> cases h
  exact payload_of_walkFrom hT (Arena.nodeAt_nil _) ‹_›

/-- Bits that begin with no encoding of `n` symbols are no payload of that length (R143). -/
theorem decodeWalk_of_no_payload {n : Nat} {P : List Byte}
    (h : ¬ ∃ x : List Symbol, x.length = n ∧ T.Covers x ∧ payloadBits T x <+: bitsOfBytes P) :
    decodeWalk T n P = .error .malformedPayload := by
  cases hwalk : decodeWalk T n P with
  | error st => rw [decodeWalk_error hwalk]
  | ok r => exact absurd ⟨r.1, decodeWalk_length hwalk, payload_of_decodeWalk hT hwalk⟩ h

end

/-! ### DECODE (R144) -/

theorem sameButSymbols_delivered (out : List Symbol) (s : State) :
    SameButSymbols s ((s.setDout out).complete .dec .ok 0#64) := ⟨rfl, rfl, rfl, rfl⟩

section
variable {out : List Symbol} {s : State}

theorem deliverDout_of_within (h : Within s.params.doutCap out.length) :
    deliverDout out s = .next ((s.setDout out).complete .dec .ok 0#64) := if_pos (fits_iff.mpr h)

theorem deliverDout_of_not_within (h : ¬ Within s.params.doutCap out.length) :
    deliverDout out s = .refused .bufferCapacity := if_neg (mt fits_iff.mp h)

end

section
variable {s : State} (hfit : s.InputFits s.dec.payOff.toNat)
include hfit

theorem exec_decode_of_not_prefixFree (h : ¬ s.dec.ct.PrefixFree) : exec .decode s = .refused .notPrefixFree := by
  rw [exec, execDecode, withInput_of_inputFits hfit, Bool.eq_false_iff.mpr (mt Table.prefixFree_iff.mp h)]
  rfl

variable (hT : s.dec.ct.PrefixFree)
include hT

theorem exec_decode_of_error {st : Status}
    (h : decodeWalk s.dec.ct s.dec.srclen.toNat (s.inputFrom s.dec.payOff.toNat) = .error st) :
    exec .decode s = .next (s.complete .dec st 0#64) := by
  rw [exec, execDecode, withInput_of_inputFits hfit, Table.prefixFree_iff.mpr hT, h]
  rfl

theorem exec_decode_of_ok {out : List Symbol} {k : Nat}
    (h : decodeWalk s.dec.ct s.dec.srclen.toNat (s.inputFrom s.dec.payOff.toNat) = .ok (out, k)) :
    exec .decode s = deliverDout out s := by
  rw [exec, execDecode, withInput_of_inputFits hfit, Table.prefixFree_iff.mpr hT, h]
  rfl

end

/-- Settles O50: the walk finds the encoding that begins the payload, or there is none. -/
theorem decodeRecoversExactlyEncodedSymbols : Obligations.DecodeRecoversExactlyEncodedSymbols := by
  unfold Obligations.DecodeRecoversExactlyEncodedSymbols
  refine fun s => ⟨fun hfit hT => ⟨fun x hlen hcovers hpayload => ?encoded, fun hnone => ?malformed⟩,
    exec_of_not_inputWithin (i := .decode)⟩
  case encoded =>
    have hwalk := decodeWalk_of_payload hT hcovers hpayload
    rw [hlen] at hwalk
    rw [exec_decode_of_ok hfit hT hwalk]
    have hlt : x.length < 2 ^ 32 := hlen ▸ s.dec.srclen.isLt
    refine ⟨fun hout => ⟨_, deliverDout_of_within (hlen.symm ▸ hout), sameButSymbols_delivered x s, rfl,
      symbols_setDout hlt s, ?_⟩, fun hout => deliverDout_of_not_within (hlen.symm ▸ hout)⟩
    show BitVec.ofNat 32 x.length = s.dec.srclen
    rw [hlen, BitVec.ofNat_toNat, BitVec.setWidth_eq]
  case malformed => exact exec_decode_of_error hfit hT (decodeWalk_of_no_payload hT hnone)

/-! ### DECFILE (R145) -/

theorem toNat_ofNat_of_lt {w n : Nat} (h : n < 2 ^ w) : (BitVec.ofNat w n).toNat = n :=
  (BitVec.toNat_ofNat n w).trans (Nat.mod_eq_of_lt h)

theorem drop_slice (name : BufferName) (m : Memory) (a n k : Nat) :
    (m.slice name a n).drop k = m.slice name (a + k) (n - k) := by
  refine List.ext_getElem? fun i => ?_
  rw [List.getElem?_drop]
  rcases Nat.lt_or_ge (k + i) n with h | h
  · rw [slice_getElem? _ _ _ _ _ h, slice_getElem? _ _ _ _ _ (by omega), Nat.add_assoc]
  · rw [List.getElem?_eq_none (by simpa using h), List.getElem?_eq_none (by rw [slice_length]; omega)]

/-- The bytes from an offset on are the input without those before it (R144). -/
theorem inputFrom_eq_drop (s : State) (off : Nat) : s.inputFrom off = s.input.drop off := by
  rw [State.input, drop_slice, Nat.zero_add, State.inputFrom]

theorem State.InputFits.mono {s : State} {off off' : Nat} (h : s.InputFits off) (hle : off ≤ off') : s.InputFits off' :=
  fun hlt => h (Nat.lt_of_le_of_lt hle hlt)

/-- The offset of the payload is a header's `header_total_bytes`, which has two bytes (30_encoding.md R60). -/
theorem parseHeader_offset_lt {T₀ T : Table} {bytes : List Byte} {n pos : Nat}
    (h : parseHeader T₀ bytes = .ok (T, n, pos)) : pos < 2 ^ 16 := by
  unfold parseHeader at h
  split at h
  next t0 t1 _ _ _ _ _ _ =>
    split at h
    · cases h
    · have hlt : leVal [t0, t1] < 2 ^ 16 := by simpa using leVal_lt [t0, t1]
      split at h <;> cases h
      exact lt_of_eq_of_lt (Eq.symm ‹_›) hlt
  next => cases h

section
variable {s : State} (hfit : s.InputFits 0)
include hfit

theorem exec_decfile_of_header_error {st : Status}
    (h : parseHeader (Table.absent .dec s.dec.tableDraws) s.input = .error st) :
    exec .decfile s = .next (s.complete .dec st 0#64) := by
  rw [exec, execDecfile, withInput_of_inputFits hfit, h]
  rfl

variable {T : Table} {n pos : Nat} (hparse : parseHeader (Table.absent .dec s.dec.tableDraws) s.input = .ok (T, n, pos))
include hparse

theorem exec_decfile_of_not_prefixFree (h : ¬ T.PrefixFree) : exec .decfile s = .refused .notPrefixFree := by
  rw [exec, execDecfile, withInput_of_inputFits hfit, hparse]
  exact if_pos (by rw [Bool.eq_false_iff.mpr (mt Table.prefixFree_iff.mp h)]; rfl)

variable (hT : T.PrefixFree)
include hT

theorem exec_decfile_of_payload_error {st : Status} (h : decodeWalk T n (s.inputFrom pos) = .error st) :
    exec .decfile s = .next (s.complete .dec st 0#64) := by
  rw [exec, execDecfile, withInput_of_inputFits hfit, hparse]
  dsimp only
  rw [Table.prefixFree_iff.mpr hT, h]
  rfl

theorem exec_decfile_of_ok {out : List Symbol} {k : Nat} (h : decodeWalk T n (s.inputFrom pos) = .ok (out, k)) :
    exec .decfile s = deliverDout out (s.setHeader T n pos) := by
  rw [exec, execDecfile, withInput_of_inputFits hfit, hparse]
  dsimp only
  rw [Table.prefixFree_iff.mpr hT, h]
  rfl

end

/-! ### DESERIALIZE, then DECODE (R145) -/

/-- The state that DESERIALIZE leaves when it accepts a header. -/
def State.afterHeader (T : Table) (n pos : Nat) (s : State) : State := (s.setHeader T n pos).complete .dec .ok 0#64

/-- What DESERIALIZE did if it answered a next state: a header failure is also that of DECFILE. -/
theorem deserialize_cases {s a : State} (h : exec .deserialize s = .next a) :
    s.InputFits 0 ∧
    ((a.dec.lasterr ≠ 0#8 ∧ exec .decfile s = .next a) ∨
    ∃ T n pos, parseHeader (Table.absent .dec s.dec.tableDraws) s.input = .ok (T, n, pos) ∧
      a = s.afterHeader T n pos) := by
  obtain ⟨hfit, hcases⟩ := execDeserialize_cases h
  have hfits : s.InputFits 0 := fun hlt => fits_iff.mp (hfit hlt)
  refine ⟨hfits, ?_⟩
  obtain ⟨st, hparse, rfl⟩ | haccepted := hcases
  · refine .inl ⟨fun hok => ?_, exec_decfile_of_header_error hfits hparse⟩
    have hst : st = .ok := code_eq_zero.mp hok
    rcases parseHeader_error hparse with h | h <;> rw [hst] at h <;> cases h
  · exact .inr haccepted

section
variable {s : State} {T : Table} {n pos : Nat} (hfit : s.InputFits 0)
  (hparse : parseHeader (Table.absent .dec s.dec.tableDraws) s.input = .ok (T, n, pos))
include hparse

/-- The registers hold the fields of the header whole, so DECODE walks over what DECFILE walks over. -/
theorem decodeWalk_afterHeader :
    decodeWalk (s.afterHeader T n pos).dec.ct (s.afterHeader T n pos).dec.srclen.toNat
      ((s.afterHeader T n pos).inputFrom (s.afterHeader T n pos).dec.payOff.toNat) =
    decodeWalk T n (s.inputFrom pos) := by
  have hpos : pos < 2 ^ 40 := (parseHeader_offset_lt hparse).trans (by decide)
  show decodeWalk T (BitVec.ofNat 32 n).toNat (s.inputFrom (BitVec.ofNat 40 pos).toNat) = _
  rw [toNat_ofNat_of_lt (parseHeader_sourceLength_lt hparse), toNat_ofNat_of_lt hpos]

include hfit

/-- DECODE after an accepted header and DECFILE are refused for the same cause, fail with the same code, or deliver the
same symbols. -/
theorem decode_afterHeader_cases :
    (∃ r, exec .decode (s.afterHeader T n pos) = .refused r ∧ exec .decfile s = .refused r) ∨
    (∃ st, st ≠ .ok ∧ exec .decode (s.afterHeader T n pos) = .next ((s.afterHeader T n pos).complete .dec st 0#64) ∧
      exec .decfile s = .next (s.complete .dec st 0#64)) ∨
    (∃ out, exec .decode (s.afterHeader T n pos) =
        .next (((s.afterHeader T n pos).setDout out).complete .dec .ok 0#64) ∧
      exec .decfile s = .next (((s.setHeader T n pos).setDout out).complete .dec .ok 0#64)) := by
  have hwalk := decodeWalk_afterHeader hparse
  have hfit' : (s.afterHeader T n pos).InputFits (s.afterHeader T n pos).dec.payOff.toNat :=
    State.InputFits.mono (off := 0) hfit (Nat.zero_le _)
  by_cases hT : T.PrefixFree
  · cases hresult : decodeWalk T n (s.inputFrom pos) with
    | error st =>
      exact .inr (.inl ⟨st, by rw [decodeWalk_error hresult]; decide,
        exec_decode_of_error hfit' hT (hwalk.trans hresult), exec_decfile_of_payload_error hfit hparse hT hresult⟩)
    | ok result =>
      obtain ⟨out, k⟩ := result
      rw [exec_decode_of_ok hfit' hT (hwalk.trans hresult), exec_decfile_of_ok hfit hparse hT hresult]
      by_cases hout : Within s.params.doutCap out.length
      · exact .inr (.inr ⟨out, deliverDout_of_within hout, deliverDout_of_within hout⟩)
      · exact .inl ⟨_, deliverDout_of_not_within hout, deliverDout_of_not_within hout⟩
  · exact .inl ⟨_, exec_decode_of_not_prefixFree hfit' hT, exec_decfile_of_not_prefixFree hfit hparse hT⟩

end

/-- Settles O51: both commands test the table before they walk. -/
theorem ambiguousTablesAreRefused : Obligations.AmbiguousTablesAreRefused := by
  unfold Obligations.AmbiguousTablesAreRefused
  refine ⟨fun s => exec_decode_of_not_prefixFree, fun s a hdeserialize hok hT => ?_⟩
  obtain ⟨hfit, ⟨hfailed, -⟩ | ⟨T, n, pos, hparse, rfl⟩⟩ := deserialize_cases hdeserialize
  · exact absurd hok hfailed
  · exact exec_decfile_of_not_prefixFree hfit hparse hT

/-- Settles O52: DECFILE fails where DESERIALIZE fails, and after an accepted header it ends as DECODE does. -/
theorem decfileIsDeserializeThenDecode : Obligations.DecfileIsDeserializeThenDecode := by
  unfold Obligations.DecfileIsDeserializeThenDecode
  intro s a hdeserialize
  obtain ⟨hfit, ⟨hfailed, hdecfile⟩ | ⟨T, n, pos, hparse, rfl⟩⟩ := deserialize_cases hdeserialize
  · exact ⟨fun _ => hdecfile, fun hok => absurd hok hfailed⟩
  · refine ⟨fun hne => absurd rfl hne, fun _ => ?_⟩
    rcases decode_afterHeader_cases hfit hparse with
      ⟨r, hdecode, hdecfile⟩ | ⟨st, hst, hdecode, hdecfile⟩ | ⟨out, hdecode, hdecfile⟩ <;> rw [hdecode, hdecfile]
    case inl => exact ⟨fun _ h => h, fun _ h => (nomatch h)⟩
    case inr.inl =>
      refine ⟨fun _ h => (nomatch h), fun b h => ?_⟩
      cases h
      exact ⟨fun hok => absurd (code_eq_zero.mp hok) hst, fun _ => rfl⟩
    case inr.inr =>
      refine ⟨fun _ h => (nomatch h), fun b h => ?_⟩
      cases h
      exact ⟨fun _ => rfl, fun hne => absurd rfl hne⟩

/-! ### The table of a header that SERIALIZE writes (R121, R122) -/

/-- The entry of a symbol in the header of a table (R120). -/
def tableEntry (T : Table) (c : Symbol) : HeaderEntry :=
  { symbol := c, len := (T.get c).len, word := leBytes (T.get c).value (ceil8 (T.get c).len.toNat) }

theorem tableEntries_eq_map (T : Table) : tableEntries T = T.alphabet.map (tableEntry T) := rfl

/-- The bytes of a codeword hold its value whole. -/
theorem tableEntry_value (T : Table) (c : Symbol) : (tableEntry T c).entry.value = (T.get c).value := by
  have hlt : (T.get c).value < 2 ^ (T.get c).len.toNat := Nat.mod_lt _ (Nat.two_pow_pos _)
  have hbytes : (T.get c).value < 256 ^ ceil8 (T.get c).len.toNat := by
    refine hlt.trans_le ?_
    rw [show 256 = 2 ^ 8 from rfl, ← Nat.pow_mul]
    exact Nat.pow_le_pow_right Nat.two_pos (ceil8_le _)
  show (tableEntry T c).entry.word.toNat % 2 ^ (T.get c).len.toNat = (T.get c).value
  rw [HeaderEntry.entry_word_toNat]
  show leVal (leBytes _ _) % 2 ^ (T.get c).len.toNat % 2 ^ (T.get c).len.toNat = (T.get c).value
  rw [leVal_leBytes_of_lt hbytes, Nat.mod_mod, Nat.mod_eq_of_lt hlt]

/-- A symbol of the alphabet has one entry in the header, another symbol none. -/
theorem lastEntry_tableEntries (T : Table) (c : Symbol) :
    lastEntry (tableEntries T) c = if (T.get c).len ≠ 0#8 then some (tableEntry T c) else none := by
  rw [lastEntry, tableEntries_eq_map]
  split
  next hc =>
    have hmem : tableEntry T c ∈ (T.alphabet.map (tableEntry T)).reverse :=
      List.mem_reverse.mpr (List.mem_map_of_mem (Table.mem_alphabet.mpr hc))
    obtain ⟨e, he⟩ := Option.isSome_iff_exists.mp
      ((List.find?_isSome (p := fun e => decide (e.symbol = c))).mpr ⟨_, hmem, decide_eq_true rfl⟩)
    obtain ⟨d, -, rfl⟩ := List.mem_map.mp (List.mem_reverse.mp (List.mem_of_find?_eq_some he))
    have hsymbol := List.find?_some he
    have hd : d = c := of_decide_eq_true hsymbol
    rw [he, hd]
  next hc =>
    refine List.find?_eq_none.mpr fun e he hsymbol => ?_
    obtain ⟨d, hd, rfl⟩ := List.mem_map.mp (List.mem_reverse.mp he)
    have hdc : d = c := of_decide_eq_true hsymbol
    exact hc (hdc ▸ Table.mem_alphabet.mp hd)

/-- Reading the entries of a table into the all-absent table gives the table back (R122). -/
theorem putEntries_tableEntries_same (T : Table) (p : Port) (draw : Nat) :
    (putEntries (Table.absent p draw) (tableEntries T)).Same T := by
  intro c
  rw [get_putEntries, lastEntry_tableEntries]
  split
  next hc => exact ⟨rfl, tableEntry_value T c⟩
  next hc =>
    have hlen : (T.get c).len = 0#8 := not_not.mp hc
    rw [Option.map_none, Option.getD_none, Table.absent_get, Entry.value, Entry.value, hlen]
    exact ⟨rfl, (Nat.mod_one _).trans (Nat.mod_one _).symm⟩

theorem fitting_tableEntries (T : Table) : ∀ e ∈ tableEntries T, e.fitting := fun e he => by
  obtain ⟨c, -, rfl⟩ := List.mem_map.mp he
  exact leBytes_length _ _

theorem parseHeader_tableEntries {T : Table} {n : Nat} (hentries : tableEntries T ≠ []) (hn : n < 2 ^ 32) (T₀ : Table)
    (tail : List Byte) :
    parseHeader T₀ (headerLayout (layoutLength (tableEntries T)) n (tableEntries T) ++ tail) =
      .ok (putEntries T₀ (tableEntries T), n, layoutLength (tableEntries T)) := by
  have hle := layoutLength_tableEntries_le hentries
  have hcount : (tableEntries T).length ≤ 256 := by
    rw [tableEntries_eq_map, List.length_map]
    exact T.alphabet_length_le
  rw [parseHeader_headerLayout (List.length_pos_iff.mpr hentries) hcount (fitting_tableEntries T) (by omega) hn,
    if_pos rfl]

/-! ### Tables that are the same (10_state.md R24) -/

section
variable {T T' : Table}

theorem Table.Same.prefixFree (h : T'.Same T) (hT : T.PrefixFree) : T'.PrefixFree := fun c d hne hc hd => by
  rw [h.code, h.code]
  rw [h.len] at hc hd
  exact hT c d hne hc hd

theorem Table.Same.covers (h : T'.Same T) {x : List Symbol} (hx : T.Covers x) : T'.Covers x := fun c hc => by
  rw [h.len]
  exact hx c hc

theorem Table.Same.payloadBits (h : T'.Same T) (x : List Symbol) : payloadBits T' x = payloadBits T x := by
  rw [Machine.payloadBits, Machine.payloadBits, funext h.code]

end

/-- Settles O53: the header gives back the table up to the bits that count, and the walk the symbols. -/
theorem decfileRecoversTheFile : Obligations.DecfileRecoversTheFile := by
  unfold Obligations.DecfileRecoversTheFile
  intro u T x P hT hentries hcovers hlen hpayload hinput hfit hout
  have hparse := parseHeader_tableEntries hentries hlen (Table.absent .dec u.dec.tableDraws) P
  rw [← hinput] at hparse
  have hsame := putEntries_tableEntries_same T .dec u.dec.tableDraws
  generalize putEntries (Table.absent .dec u.dec.tableDraws) (tableEntries T) = T' at hparse hsame
  have hrest : u.inputFrom (layoutLength (tableEntries T)) = P := by
    rw [inputFrom_eq_drop, hinput, List.drop_left' (headerLayout_length_eq _ _ _)]
  have hwalk := decodeWalk_of_payload (hsame.prefixFree hT) (hsame.covers hcovers) (hsame.payloadBits x ▸ hpayload)
  rw [← hrest] at hwalk
  have hle := layoutLength_tableEntries_le hentries
  have hoff : layoutLength (tableEntries T) < 2 ^ 40 := by omega
  exact ⟨_, (exec_decfile_of_ok hfit hparse (hsame.prefixFree hT) hwalk).trans (deliverDout_of_within hout), rfl, rfl,
    rfl, rfl, symbols_setDout hlen _, toNat_ofNat_of_lt hlen, hsame, toNat_ofNat_of_lt hlen, toNat_ofNat_of_lt hoff,
    rfl, rfl, rfl⟩

/-! ### Refusals (R144, 00_scope.md R6, 60_exceptions.md R160) -/

/-- A table without `PrefixFree`, which DECODE has or which DECFILE finds in an accepted header (R144, R145). -/
def AmbiguousTable (i : Instr) (s : State) : Prop :=
  i = .decode ∧ ¬ s.dec.ct.PrefixFree ∨
    i = .decfile ∧ ∃ a, exec .deserialize s = .next a ∧ a.dec.lasterr = 0#8 ∧ ¬ a.dec.ct.PrefixFree

/-- A success with unbounded output buffers whose output exceeds the buffer that the part has (R6, U9). -/
def OutputExceeds (i : Instr) (s : State) : Prop :=
  ∃ t, exec i s.unbounded = .next t ∧ lasterrOf i.port t = 0#8 ∧ ¬ OutputWithin i s.params t

section
variable {s : State} {i : Instr} {r : Refusal}

/-- Every command but DECODE and DECFILE answers a next state where its input fits and its output is unbounded. -/
theorem exists_next_unbounded (h : InputWithin i s) (hdecode : i ≠ .decode) (hdecfile : i ≠ .decfile) :
    ∃ t, exec i s.unbounded = .next t := by
  cases i with
  | build => rw [exec, execBuild]; split <;> exact ⟨_, rfl⟩
  | bpclr | rembits | tobytes => exact ⟨_, rfl⟩
  | append v n => rw [exec, execAppend]; split <;> exact ⟨_, rfl⟩
  | brload => exact ⟨_, withInput_unbounded h _⟩
  | read n => rw [exec, execRead]; split_ifs <;> exact ⟨_, rfl⟩
  | serialize n => rw [exec, execSerialize]; split <;> exact ⟨_, rfl⟩
  | deserialize => rw [exec, execDeserialize, withInput_unbounded h]; split <;> exact ⟨_, rfl⟩
  | encode => rw [exec, execEncode, withSource_unbounded h]; split <;> exact ⟨_, rfl⟩
  | encfile =>
    rw [exec, execEncfile, withSource_unbounded h]
    split
    · exact ⟨_, rfl⟩
    · split <;> exact ⟨_, rfl⟩
  | decode => exact absurd rfl hdecode
  | decfile => exact absurd rfl hdecfile

theorem decode_refused_unbounded (h : s.InputFits s.dec.payOff.toNat) (hr : exec .decode s.unbounded = .refused r) :
    r = .notPrefixFree ∧ ¬ s.dec.ct.PrefixFree := by
  by_cases hT : s.dec.ct.PrefixFree
  · exfalso
    cases hwalk : decodeWalk s.dec.ct s.dec.srclen.toNat (s.inputFrom s.dec.payOff.toNat) with
    | error st => cases (exec_decode_of_error (s := s.unbounded) h hT hwalk).symm.trans hr
    | ok o => cases (exec_decode_of_ok (s := s.unbounded) h hT hwalk).symm.trans hr
  · cases (exec_decode_of_not_prefixFree (s := s.unbounded) h hT).symm.trans hr
    exact ⟨rfl, hT⟩

theorem decfile_refused_unbounded (h : s.InputFits 0) (hr : exec .decfile s.unbounded = .refused r) :
    r = .notPrefixFree ∧ ∃ a, exec .deserialize s = .next a ∧ a.dec.lasterr = 0#8 ∧ ¬ a.dec.ct.PrefixFree := by
  cases hparse : parseHeader (Table.absent .dec s.dec.tableDraws) s.input with
  | error st => cases (exec_decfile_of_header_error (s := s.unbounded) h hparse).symm.trans hr
  | ok o =>
    obtain ⟨T, n, pos⟩ := o
    by_cases hT : T.PrefixFree
    · exfalso
      cases hwalk : decodeWalk T n (s.inputFrom pos) with
      | error st => cases (exec_decfile_of_payload_error (s := s.unbounded) h hparse hT hwalk).symm.trans hr
      | ok o => cases (exec_decfile_of_ok (s := s.unbounded) h hparse hT hwalk).symm.trans hr
    · cases (exec_decfile_of_not_prefixFree (s := s.unbounded) h hparse hT).symm.trans hr
      exact ⟨rfl, _, exec_deserialize_of_ok h hparse, rfl, hT⟩

/-- With unbounded output buffers and an input that fits, an ambiguous table is the only cause of a refusal. -/
theorem exec_refused_unbounded (h : InputWithin i s) (hr : exec i s.unbounded = .refused r) :
    r = .notPrefixFree ∧ AmbiguousTable i s := by
  by_cases hdecode : i = .decode
  · subst hdecode
    exact (decode_refused_unbounded h hr).imp_right fun hT => .inl ⟨rfl, hT⟩
  by_cases hdecfile : i = .decfile
  · subst hdecfile
    exact (decfile_refused_unbounded h hr).imp_right fun ha => .inr ⟨rfl, ha⟩
  · obtain ⟨t, ht⟩ := exists_next_unbounded h hdecode hdecfile
    cases hr.symm.trans ht

/-- Why a command is refused. -/
theorem exec_refused_cases (h : exec i s = .refused r) :
    (r = .notPrefixFree ∧ AmbiguousTable i s) ∨ (r = .bufferCapacity ∧ (¬ InputWithin i s ∨ OutputExceeds i s)) := by
  by_cases hin : InputWithin i s
  · obtain ⟨hnext, hrefused⟩ := exec_outputCapped hin
    cases hunbounded : exec i s.unbounded with
    | fault f => cases f
    | refused q =>
      cases h.symm.trans (hrefused q hunbounded)
      exact .inl (exec_refused_unbounded hin hunbounded)
    | next t =>
      obtain ⟨hexceeds, hwithin⟩ := hnext t hunbounded
      by_cases hdelivered : lasterrOf i.port t ≠ 0#8 ∨ OutputWithin i s.params t
      · cases h.symm.trans (hwithin hdelivered)
      · obtain ⟨hok, hout⟩ := not_or.mp hdelivered
        cases h.symm.trans (hexceeds (not_not.mp hok) hout)
        exact .inr ⟨rfl, .inr ⟨t, hunbounded, not_not.mp hok, hout⟩⟩
  · rw [exec_of_not_inputWithin hin] at h
    cases h
    exact .inr ⟨rfl, .inl hin⟩

theorem writeSource_refused {a : Nat} {bs : List Byte} (h : writeSource a bs s = .refused r) :
    r = .bufferCapacity ∧ ¬ Within s.params.srcCap (a + bs.length) := by
  by_cases hfit : Within s.params.srcCap (a + bs.length)
  · cases h.symm.trans (writeSource_of_within hfit)
  · cases h.symm.trans (writeSource_of_not_within hfit)
    exact ⟨rfl, hfit⟩

theorem writeInput_refused {a : Nat} {bs : List Byte} (h : writeInput a bs s = .refused r) :
    r = .bufferCapacity ∧ ¬ Within s.params.dinCap (a + bs.length) := by
  by_cases hfit : Within s.params.dinCap (a + bs.length)
  · cases h.symm.trans (writeInput_of_within hfit)
  · cases h.symm.trans (writeInput_of_not_within hfit)
    exact ⟨rfl, hfit⟩

/-! ### The host's further actions make no difference to a command (R165) -/

theorem inputWithin_withInbox (i : Instr) (s : State) (acts : List HostAction) :
    InputWithin i { s with inbox := acts } ↔ InputWithin i s := by
  cases i <;> exact Iff.rfl

theorem outputWithin_withInbox (i : Instr) (P : Params) (t : State) (acts : List HostAction) :
    OutputWithin i P { t with inbox := acts } ↔ OutputWithin i P t := by
  cases i <;> exact Iff.rfl

theorem lasterrOf_withInbox (p : Port) (t : State) (acts : List HostAction) :
    lasterrOf p { t with inbox := acts } = lasterrOf p t := by
  cases p <;> rfl

theorem exec_withInbox {t : State} (h : exec i s = .next t) (acts : List HostAction) :
    exec i { s with inbox := acts } = .next { t with inbox := acts } := by
  have hparams := (exec_framed h).params
  cases hport : i.port with
  | enc =>
    rw [hparams, exec_leaves_dec hport h]
    exact exec_enc_agreeing hport h rfl rfl
  | dec =>
    rw [hparams, exec_leaves_enc hport h]
    exact exec_dec_agreeing hport h rfl rfl

theorem OutputExceeds.of_withInbox {acts : List HostAction} (h : OutputExceeds i { s with inbox := acts }) :
    OutputExceeds i s := by
  obtain ⟨t, ht, hok, hout⟩ := h
  exact ⟨_, exec_withInbox ht s.inbox, (lasterrOf_withInbox _ _ _).trans hok, mt (outputWithin_withInbox _ _ _ _).mp hout⟩

end

/-- Settles O19: a command is refused for its table or for a capacity, a host write for a capacity, and nothing faults. -/
theorem refusalsHaveTwoCauses : Obligations.RefusalsHaveTwoCauses := by
  unfold Obligations.RefusalsHaveTwoCauses
  refine fun s => ⟨fun r _ => (nomatch r), fun r h => ?_⟩
  cases hbox : s.inbox with
  | nil => cases h.symm.trans (step_idle hbox)
  | cons act rest =>
    rw [step_perform hbox] at h
    cases act with
    | command p w =>
      cases hdecode : decode p w with
      | error e => rw [perform, issue, hdecode] at h; cases h
      | ok i =>
        rw [perform, issue, hdecode] at h
        obtain ⟨rfl, htable⟩ | ⟨rfl, hcapacity⟩ := exec_refused_cases h
        · have hport := (decode_eq_ok hdecode).2
          rcases htable with ⟨rfl, hT⟩ | ⟨rfl, ha⟩
          · exact .inl ⟨rfl, w, rest, by rw [← hport]; rfl, .inl ⟨by rwa [← hport] at hdecode, hT⟩⟩
          · exact .inl ⟨rfl, w, rest, by rw [← hport]; rfl, .inr ⟨by rwa [← hport] at hdecode, ha⟩⟩
        · exact .inr ⟨rfl, _, rest, rfl, .inr (.inr (.inr ⟨p, w, i, rfl, hdecode,
            hcapacity.imp (mt (inputWithin_withInbox i s rest).mpr) OutputExceeds.of_withInbox⟩))⟩
    | writeSrc a b =>
      obtain ⟨hr, hfit⟩ := writeSource_refused h
      exact .inr ⟨hr, _, rest, rfl, .inl ⟨a, b, rfl, hfit⟩⟩
    | writeDin a b =>
      obtain ⟨hr, hfit⟩ := writeInput_refused h
      exact .inr ⟨hr, _, rest, rfl, .inr (.inl ⟨a, b, rfl, hfit⟩)⟩
    | copyEoutToDin =>
      obtain ⟨hr, hfit⟩ := writeInput_refused h
      rw [Nat.zero_add, output_length] at hfit
      exact .inr ⟨hr, _, rest, rfl, .inr (.inr (.inl ⟨rfl, hfit⟩))⟩
    | writeSrcLen | writeDinLen | writeSrclen | writePayOff | writeFreq | writeEntry | reset => cases h

end Sys2Proof.Machine

/-! The statements of 60_exceptions.md: with which statuses each command can end, and that a failed command changes
nothing else (R161, R165). -/

namespace Sys2Proof.Machine

/-- The failures of each command (60_exceptions.md R161). -/
def failures : Instr → List Status
  | .build => [.emptyAlphabet]
  | .append _ _ => [.invalidBitLength]
  | .read _ => [.outOfBits, .invalidBitLength]
  | .serialize _ => [.emptyAlphabet]
  | .deserialize => [.truncatedHeader, .headerSizeMismatch]
  | .encode => [.unknownSymbol]
  | .encfile => [.emptyAlphabet, .unknownSymbol]
  | .decode => [.malformedPayload]
  | .decfile => [.truncatedHeader, .headerSizeMismatch, .malformedPayload]
  | .bpclr | .tobytes | .brload | .rembits => []

/-- `t` is the state after `i` succeeded, whatever it wrote. -/
def Succeeds (i : Instr) (t : State) : Prop := ∃ u r, t = State.complete i.port .ok r u

/-- `t` is the state `s` with nothing but the end of `i` in one of its failures. -/
def Fails (i : Instr) (s t : State) : Prop := ∃ st ∈ failures i, t = s.complete i.port st 0#64

/-- No codeword is too long, so BUILD fails only for want of a weight (40_code_table_builder.md R90). -/
theorem buildTable_error {draw : Nat} {F : Freq} {st : Status} (h : buildTable (Table.absent .enc draw) F = .error st) :
    st = .emptyAlphabet := by
  by_cases hF : F.alphabet = []
  · rw [buildTable_of_no_symbol hF] at h
    cases h; rfl
  · obtain ⟨_, _, hbuild⟩ := exists_pathsCode hF
    cases (hbuild draw).symm.trans h

section
variable {i : Instr} {s t u : State} {st : Status} {r : BitVec 64}

theorem succeeds_complete : Succeeds i (u.complete i.port .ok r) := ⟨u, r, rfl⟩

theorem fails_complete (h : st ∈ failures i) : Fails i s (s.complete i.port st 0#64) := ⟨st, h, rfl⟩

/-- Every command that answers a next state succeeded, or ended in one of its failures with nothing else done. -/
theorem exec_succeeds_or_fails (h : exec i s = .next t) : Succeeds i t ∨ Fails i s t := by
  cases i with
  | build =>
    rcases execBuild_cases h with ⟨_, herr, rfl⟩ | ⟨_, _, rfl⟩
    · exact .inr (fails_complete (buildTable_error herr ▸ .head _))
    · exact .inl succeeds_complete
  | bpclr | rembits => cases h; exact .inl succeeds_complete
  | append =>
    rcases execAppend_cases h with ⟨_, rfl⟩ | ⟨_, rfl⟩
    · exact .inr (fails_complete (.head _))
    · exact .inl succeeds_complete
  | tobytes => obtain ⟨_, rfl⟩ := execTobytes_cases h; exact .inl succeeds_complete
  | brload => obtain ⟨_, rfl⟩ := execBrload_cases h; exact .inl succeeds_complete
  | read =>
    rcases execRead_cases h with ⟨_, rfl⟩ | ⟨_, _, rfl⟩ | ⟨_, _, rfl⟩
    · exact .inr (fails_complete (.tail _ (.head _)))
    · exact .inr (fails_complete (.head _))
    · exact .inl succeeds_complete
  | serialize =>
    rcases execSerialize_cases h with ⟨_, herr, rfl⟩ | ⟨_, _, _, rfl⟩
    · exact .inr (fails_complete (header_error herr ▸ .head _))
    · exact .inl succeeds_complete
  | deserialize =>
    rcases execDeserialize_cases h with ⟨_, ⟨_, herr, rfl⟩ | ⟨_, _, _, _, rfl⟩⟩
    · rcases parseHeader_error herr with rfl | rfl
      · exact .inr (fails_complete (.head _))
      · exact .inr (fails_complete (.tail _ (.head _)))
    · exact .inl succeeds_complete
  | encode =>
    rcases execEncode_cases h with ⟨_, ⟨_, herr, rfl⟩ | ⟨_, _, _, rfl⟩⟩
    · exact .inr (fails_complete (encodeBits_error herr ▸ .head _))
    · exact .inl succeeds_complete
  | encfile =>
    rcases execEncfile_cases h with ⟨_, ⟨_, herr, rfl⟩ | ⟨_, _, _, herr, rfl⟩ | ⟨_, _, _, _, _, rfl⟩⟩
    · exact .inr (fails_complete (header_error herr ▸ .head _))
    · exact .inr (fails_complete (encodeBits_error herr ▸ .tail _ (.head _)))
    · exact .inl succeeds_complete
  | decode =>
    rcases execDecode_cases h with ⟨_, _, ⟨_, herr, rfl⟩ | ⟨_, _, _, _, rfl⟩⟩
    · exact .inr (fails_complete (decodeWalk_error herr ▸ .head _))
    · exact .inl succeeds_complete
  | decfile =>
    rcases execDecfile_cases h with
      ⟨_, ⟨_, herr, rfl⟩ | ⟨_, _, _, _, _, ⟨_, herr, rfl⟩ | ⟨_, _, _, _, rfl⟩⟩⟩
    · rcases parseHeader_error herr with rfl | rfl
      · exact .inr (fails_complete (.head _))
      · exact .inr (fails_complete (.tail _ (.head _)))
    · exact .inr (fails_complete (decodeWalk_error herr ▸ .tail _ (.tail _ (.head _))))
    · exact .inl succeeds_complete

end

/-- Settles O21: a status other than 0 is that of a failure, and a failure only ends the command. -/
theorem failedCommandsChangeNothingElse : Obligations.FailedCommandsChangeNothingElse := by
  unfold Obligations.FailedCommandsChangeNothingElse
  intro i s t h hstatus
  rcases exec_succeeds_or_fails h with ⟨u, r, rfl⟩ | ⟨st, _, rfl⟩
  · exact absurd (lasterrOf_complete ..) hstatus
  · cases i.port <;> rfl

/-- Settles O22: the listed codes are those of success and of the command's failures. -/
theorem eachCommandFailsOnlyAsListed : Obligations.EachCommandFailsOnlyAsListed := by
  unfold Obligations.EachCommandFailsOnlyAsListed
  intro i s t h
  have hlisted : (lasterrOf i.port t).toNat ∈ (Status.ok :: failures i).map (·.code.toNat) := by
    rcases exec_succeeds_or_fails h with ⟨u, r, rfl⟩ | ⟨st, hst, rfl⟩ <;> rw [lasterrOf_complete]
    · exact .head _
    · exact List.mem_map_of_mem (List.mem_cons_of_mem _ hst)
  cases i <;> exact hlisted

end Sys2Proof.Machine

/-! The statements of 10_state.md and 70_reset_and_hazards.md: commands of the two units commute (R11), reset gives the
reset values (R190), and an idle machine stays as it is (R199). -/

namespace Sys2Proof.Machine

/-- Settles O9: a step without an action to take answers its own state. -/
theorem idleMachineDoesNotChange : Obligations.IdleMachineDoesNotChange := by
  unfold Obligations.IdleMachineDoesNotChange
  exact fun _ hidle => step_idle hidle

/-! ### Reset (10_state.md section 8) -/

/-- Two units at reset have the reset values, whatever the model's counters, the responses and the host's actions are. -/
theorem atReset_of_units {s : State} {srcGen eoutGen dinGen doutGen draws draws' : Nat} {resps resps' : List Resp}
    (henc : s.enc = Enc.reset srcGen eoutGen draws resps) (hdec : s.dec = Dec.reset dinGen doutGen draws' resps') :
    s.AtReset := by
  obtain ⟨params, enc, dec, inbox⟩ := s
  subst henc hdec
  exact {
    freq := fun c => Vector.getElem_replicate c.isLt
    enc_table := fun c => congrArg Entry.len (Table.reset_get c)
    dec_table := fun c => congrArg Entry.len (Table.reset_get c)
    packer := rfl
    reader_buf := rfl
    reader_cursor := rfl
    enc_lasterr := rfl
    dec_lasterr := rfl
    src_len := rfl
    eout_len := rfl
    din_len := rfl
    srclen := rfl
    pay_off := rfl
    dout_len := rfl }

/-- Settles O16: every way to reset the machine puts both units at reset and leaves the rest. -/
theorem resetGivesTheResetValues : Obligations.ResetGivesTheResetValues := by
  unfold Obligations.ResetGivesTheResetValues
  refine ⟨atReset_of_units rfl rfl, rfl, fun P => ⟨atReset_of_units rfl rfl, rfl⟩, fun s rest hbox => ?action⟩
  case action =>
    exact ⟨State.resetUnits { s with inbox := rest }, step_perform hbox, atReset_of_units rfl rfl, rfl, rfl, rfl, rfl⟩

/-! ### The two units (R11) -/

/-- Settles O24: each command writes its own unit and does not read the other's, so that both orders end with the two
units that the commands make. -/
theorem commandsOfTheTwoUnitsCommute : Obligations.CommandsOfTheTwoUnitsCommute := by
  unfold Obligations.CommandsOfTheTwoUnitsCommute
  intro i j s t u hi hj ht hu
  have hjt := exec_dec_agreeing hj hu (exec_framed ht).params (exec_leaves_dec hi ht)
  have hiu := exec_enc_agreeing hi ht (exec_framed hu).params (exec_leaves_enc hj hu)
  refine ⟨_, hjt, hiu.trans (congrArg Host.Outcome.next ?_)⟩
  show ({ params := u.params, enc := t.enc, dec := u.dec, inbox := u.inbox } : State) =
    { params := t.params, enc := t.enc, dec := u.dec, inbox := t.inbox }
  rw [(exec_framed hu).params, (exec_framed hu).inbox, (exec_framed ht).params, (exec_framed ht).inbox]

end Sys2Proof.Machine

/-! The statements that put two parts together: what APPEND and TOBYTES pack is what BRLOAD and READ read (R111), what
SERIALIZE writes is what DESERIALIZE reads (R122), a truncated header is rejected (R121), and what ENCFILE encodes is
what DECFILE decodes (R147). -/

namespace Sys2Proof.Machine

/-! ### Runs of commands (20_memory.md R48) -/

section
variable {i : Instr} {is js : List Instr} {s t : State}

theorem runCommands_cons_of_next (h : exec i s = .next t) : runCommands (i :: is) s = runCommands is t := by
  rw [runCommands, h]

theorem runCommands_append_of_next (h : runCommands is s = .next t) :
    runCommands (is ++ js) s = runCommands js t := by
  induction is generalizing s with
  | nil => cases h; rfl
  | cons i is ih =>
    rw [runCommands] at h
    rw [List.cons_append, runCommands]
    split at h
    next => exact ih h
    next => cases h
    next => cases h

end

/-! ### Packed values (41_bitpacker.md, 42_bitreader.md) -/

/-- The bits that APPENDs of these values with these lengths add. -/
def packedBits (vs : List (BitVec 64 × Nat)) : List Bool := vs.flatMap fun v => bitsMsb v.1.toNat v.2

theorem packedBits_length (vs : List (BitVec 64 × Nat)) : (packedBits vs).length = (vs.map fun v => v.2).sum := by
  simp [packedBits, List.length_flatMap]

/-- APPENDs add their values in order to what the packer holds. -/
theorem run_appends {vs : List (BitVec 64 × Nat)} (hlen : ∀ v ∈ vs, 1 ≤ v.2 ∧ v.2 ≤ 64) (s : State) :
    ∃ t, runCommands (vs.map fun v => Instr.append v.1 v.2) s = .next t ∧
      t.enc.bp = s.enc.bp ++ packedBits vs ∧ t.params = s.params := by
  induction vs generalizing s with
  | nil => exact ⟨s, rfl, (List.append_nil _).symm, rfl⟩
  | cons v vs ih =>
    obtain ⟨hv, hvs⟩ := List.forall_mem_cons.mp hlen
    obtain ⟨t, hrun, hbp, hparams⟩ := ih hvs ((s.setBp (s.enc.bp ++ bitsMsb v.1.toNat v.2)).complete .enc .ok 0#64)
    refine ⟨t, (runCommands_cons_of_next (exec_append_of_bitLengthOk v.1 s (bitLengthOk_iff.mpr hv))).trans hrun,
      hbp.trans ?_, hparams⟩
    exact List.append_assoc _ _ _

/-- READ of as many bits as `q` has, where the reader goes on with `q`, answers the value of `q` and moves past it. -/
theorem exec_read_of_prefix {s : State} {q rest : List Bool} (hlen : 1 ≤ q.length ∧ q.length ≤ 64)
    (hbits : (bitsOfBytes s.dec.br.buf).drop s.dec.br.cursor = q ++ rest) :
    exec (.read q.length) s = .next ((s.setReader s.dec.br.buf (s.dec.br.cursor + q.length)).complete .dec .ok
      (BitVec.ofNat 64 (valMsb q))) := by
  have hnext : s.dec.br.next q.length = q := by rw [Reader.next, hbits, List.take_left]
  have hleft : ¬ s.dec.br.remaining < q.length := by
    have hcount := congrArg List.length hbits
    rw [List.length_drop, bitsOfBytes_length, List.length_append] at hcount
    unfold Reader.remaining
    omega
  rw [exec_read_of_bitLengthOk (bitLengthOk_iff.mpr hlen), if_neg hleft, hnext]

/-- READs of the lengths of the values, where the reader goes on with their bits, answer the values. -/
theorem run_reads {vs : List (BitVec 64 × Nat)} (hlen : ∀ v ∈ vs, 1 ≤ v.2 ∧ v.2 ≤ 64) {s : State} {rest : List Bool}
    (hbits : (bitsOfBytes s.dec.br.buf).drop s.dec.br.cursor = packedBits vs ++ rest) :
    ∃ t, runCommands (vs.map fun v => Instr.read v.2) s = .next t ∧
      t.dec.resps = s.dec.resps ++ vs.map fun v => BitVec.ofNat 64 (v.1.toNat % 2 ^ v.2) ++ 0#8 := by
  induction vs generalizing s with
  | nil => exact ⟨s, rfl, (List.append_nil _).symm⟩
  | cons v vs ih =>
    obtain ⟨hv, hvs⟩ := List.forall_mem_cons.mp hlen
    rw [packedBits, List.flatMap_cons, ← packedBits, List.append_assoc] at hbits
    have hread := exec_read_of_prefix (by rwa [bitsMsb_length]) hbits
    rw [bitsMsb_length, valMsb_bitsMsb] at hread
    obtain ⟨t, hrun, hresps⟩ := ih hvs
      (s := (s.setReader s.dec.br.buf (s.dec.br.cursor + v.2)).complete .dec .ok
        (BitVec.ofNat 64 (v.1.toNat % 2 ^ v.2)))
      (by
        show (bitsOfBytes s.dec.br.buf).drop (s.dec.br.cursor + v.2) = _
        rw [← List.drop_drop, hbits, List.drop_left' (bitsMsb_length _ _)])
    refine ⟨t, (runCommands_cons_of_next hread).trans hrun, hresps.trans ?_⟩
    exact List.append_assoc _ _ _

/-- Settles O40: the packer's bits, as bytes, are the reader's bits, and each READ takes those of its value. -/
theorem packedValuesReadBack : Obligations.PackedValuesReadBack := by
  unfold Obligations.PackedValuesReadBack
  intro s vs hbp hlen hsum hout
  obtain ⟨a, hrun, habp, haparams⟩ := run_appends hlen s
  rw [hbp, List.nil_append] at habp
  rw [← packedBits_length] at hsum hout
  have hbytes : (pack a.enc.bp).length = ((packedBits vs).length + 7) / 8 := by rw [habp, pack_length]; rfl
  have htobytes : exec .tobytes a = .next ((a.setEout (pack a.enc.bp)).complete .enc .ok 0#64) :=
    deliverEout_of_within (by rwa [haparams, hbytes])
  refine ⟨_, (runCommands_append_of_next hrun).trans (runCommands_cons_of_next htobytes), fun u hinput hfit => ?_⟩
  have hbits : bitsOfBytes u.input = packedBits vs ++ zeros (padLen (packedBits vs).length) := by
    rw [hinput, output_delivered (by omega), habp, bitsOfBytes_pack]
  obtain ⟨v, hreads, hresps⟩ := run_reads hlen (s := (u.setReader u.input 0).complete .dec .ok 0#64)
    (rest := zeros (padLen (packedBits vs).length)) hbits
  refine ⟨v, (runCommands_cons_of_next (exec_brload_of_inputFits hfit)).trans hreads, hresps.trans ?_⟩
  exact List.append_assoc _ _ _

/-! ### Headers (43_header_codec.md R121, R122) -/

/-- Settles O42: SERIALIZE delivers the layout of the table's entries, whose fields the parse reads back. -/
theorem headersRoundTrip : Obligations.HeadersRoundTrip := by
  unfold Obligations.HeadersRoundTrip
  intro s n c₀ hn hc₀ hout
  have hentries := tableEntries_ne_nil hc₀
  obtain ⟨-, hle, hdelivered, -⟩ := (serializeWritesTheHeader s n hn).2 hentries
  obtain ⟨t, hserialize, -, -, houtput, -⟩ := hdelivered hout
  refine ⟨t, hserialize, fun u tail hinput hfit => ?_⟩
  have hparse := parseHeader_tableEntries hentries hn (Table.absent .dec u.dec.tableDraws) tail
  rw [← houtput, ← hinput] at hparse
  have hoff : layoutLength (tableEntries s.enc.ct) < 2 ^ 40 := by omega
  refine ⟨_, exec_deserialize_of_ok hfit hparse, rfl, putEntries_tableEntries_same _ _ _, toNat_ofNat_of_lt hn, ?_⟩
  rw [houtput, headerLayout_length_eq]
  exact toNat_ofNat_of_lt hoff

/-- Entries cut off anywhere before their end are TruncatedHeader (R121 corner (e)). -/
theorem parseEntries_take {es : List HeaderEntry} (h : ∀ e ∈ es, e.fitting) {k : Nat}
    (hk : k < (es.flatMap HeaderEntry.bytes).length) (T : Table) (pos : Nat) :
    parseEntries es.length T pos ((es.flatMap HeaderEntry.bytes).take k) = .error .truncatedHeader := by
  induction es generalizing k T pos with
  | nil => exact absurd hk (Nat.not_lt_zero k)
  | cons e es ih =>
    obtain ⟨he, hes⟩ := List.forall_mem_cons.mp h
    have hword : ceil8 e.len.toNat = e.word.length := he.symm
    rw [List.flatMap_cons, HeaderEntry.bytes] at hk ⊢
    match k with
    | 0 => rfl
    | 1 => rfl
    | k + 2 =>
      simp only [List.cons_append, List.take_succ_cons, List.length_cons, parseEntries, hword]
      rcases Nat.lt_or_ge k e.word.length with hshort | hlong
      · have hnone : takeBytes e.word.length ((e.word ++ es.flatMap HeaderEntry.bytes).take k) = none :=
          takeBytes_eq_none.mpr ((List.length_take_le k _).trans_lt hshort)
        rw [hnone]
      · have hrest : k - e.word.length < (es.flatMap HeaderEntry.bytes).length := by
          simp only [List.cons_append, List.length_cons, List.length_append] at hk
          omega
        rw [List.take_append, List.take_of_length_le hlong, takeBytes_append]
        exact ih hes hrest _ _

theorem parseHeader_of_length_lt {bytes : List Byte} (h : bytes.length < 7) (T : Table) :
    parseHeader T bytes = .error .truncatedHeader := by
  unfold parseHeader
  split
  next => simp only [List.length_cons] at h; omega
  next => rfl

/-- A layout cut off anywhere before its end is TruncatedHeader, before its total is held against anything. -/
theorem parseHeader_take {es : List HeaderEntry} (hlo : 1 ≤ es.length) (hhi : es.length ≤ 256)
    (hfit : ∀ e ∈ es, e.fitting) {k : Nat} (hk : k < layoutLength es) (total n : Nat) (T : Table) :
    parseHeader T ((headerLayout total n es).take k) = .error .truncatedHeader := by
  rcases Nat.lt_or_ge k 7 with hshort | hlong
  · exact parseHeader_of_length_lt ((List.length_take_le k _).trans_lt hshort) T
  · obtain ⟨j, rfl⟩ := Nat.exists_eq_add_of_le' hlong
    have hj : j < (es.flatMap HeaderEntry.bytes).length := by
      rw [flatMap_bytes_length]
      unfold layoutLength at hk
      omega
    simp only [headerLayout, leBytes, List.cons_append, List.nil_append, List.take_succ_cons, parseHeader,
      alphabetSize_field_toNat_succ hlo hhi, parseEntries_take hfit hj]

/-- Settles O44: the parse of a part of a layout ends at the first field that does not fit. -/
theorem truncatedHeadersAreRejected : Obligations.TruncatedHeadersAreRejected := by
  unfold Obligations.TruncatedHeadersAreRejected
  intro u es total n k hlo hhi hes hk hinput hfit
  have hparse := parseHeader_take hlo hhi hes hk total n (Table.absent .dec u.dec.tableDraws)
  rw [← hinput] at hparse
  exact exec_deserialize_of_error hfit hparse

/-! ### Files (45_decoder.md R147) -/

theorem source_length (s : State) : s.source.length = s.enc.srcLen.toNat := slice_length _ _ _ _

/-- DECFILE of what ENCFILE wrote gives back the source, if no codeword of the table begins another. -/
theorem decfile_of_encfile {a : State} {c₀ : Symbol} (hT : a.enc.ct.PrefixFree) (hc₀ : (a.enc.ct.get c₀).len ≠ 0#8)
    (hcovers : a.enc.ct.Covers a.source) (hsource : a.SourceFits)
    (hout : Within a.params.eoutCap (layoutLength (tableEntries a.enc.ct) + payloadLength a.enc.ct a.source)) :
    ∃ b, exec .encfile a = .next b ∧
      ∀ u : State, u.input = b.output → u.InputFits 0 → Within u.params.doutCap a.enc.srcLen.toNat →
        ∃ v, exec .decfile u = .next v ∧ v.dec.lasterr = 0#8 ∧ v.symbols = a.source ∧ v.dec.doutLen = a.enc.srcLen := by
  have hentries := tableEntries_ne_nil hc₀
  have hlen := source_length a
  have hencfile := exec_encfile_of_covers hsource (header_of_entry a.enc.srcLen.toNat hentries) hcovers
  rw [← hlen] at hencfile ⊢
  generalize hfile : headerLayout (layoutLength (tableEntries a.enc.ct)) a.source.length (tableEntries a.enc.ct) ++
    pack (payloadBits a.enc.ct a.source) = file at hencfile
  have hfileLen : file.length = layoutLength (tableEntries a.enc.ct) + payloadLength a.enc.ct a.source := by
    rw [← hfile, List.length_append, headerLayout_length_eq, pack_payloadBits_length]
  have hshort : file.length < 2 ^ 40 := by
    have hheader := layoutLength_tableEntries_le hentries
    have hpayload := payloadLength_source_lt hcovers
    omega
  refine ⟨_, hencfile.trans (deliverEout_of_within (hfileLen ▸ hout)), fun u hinput hfit hdout => ?_⟩
  rw [output_delivered hshort, ← hfile] at hinput
  obtain ⟨v, hdecfile, -, -, -, hok, hsymbols, hdoutLen, -⟩ := decfileRecoversTheFile u a.enc.ct a.source _ hT hentries
    hcovers (hlen ▸ a.enc.srcLen.isLt) (bitsOfBytes_pack _ ▸ List.prefix_append _ _) hinput hfit hdout
  exact ⟨v, hdecfile, hok, hsymbols, BitVec.eq_of_toNat_eq (hdoutLen.trans hlen)⟩

/-- Settles O49: the walk inverts the encoding, and the table that BUILD makes is a code that covers the source. -/
theorem roundTrip : Obligations.RoundTrip := by
  unfold Obligations.RoundTrip
  refine ⟨fun T x hT hcovers _ => ⟨_, encodeBits_of_covers hcovers, fun P hq => decodeWalk_of_payload hT hcovers hq⟩,
    fun s c₀ hc₀ hsource hfit => ?file⟩
  case file =>
    obtain ⟨T, hbuild, halphabet, hT, -⟩ := buildMakesAValidTable s c₀ hc₀
    exact ⟨_, hbuild, decfile_of_encfile (a := (s.setEncTable T).complete .enc .ok 0#64) hT ((halphabet c₀).mpr hc₀)
      (fun c hc => (halphabet c).mpr (hsource c hc)) hfit⟩

end Sys2Proof.Machine

/-! More of 40_code_table_builder.md: a code that BUILD makes is complete (R91 (c)), a common factor of the weights does
not matter (R13), and a heavier symbol has no longer codeword (R91 (f)). -/

namespace Sys2Proof.Machine

/-! ### What BUILD wrote if it succeeded (R90) -/

section
variable {s t : State} (hexec : exec .build s = .next t)
include hexec

theorem build_of_one_symbol {c : Symbol} (h : s.enc.freq.alphabet = [c]) :
    t.enc.lasterr = 0#8 ∧ t.enc.ct = pathsTable s.enc.tableDraws [(c, [false])] := by
  rw [exec_build_of_ok (buildTable_of_one_symbol h _)] at hexec
  cases hexec
  exact ⟨rfl, rfl⟩

theorem build_of_mergesTo {tree : HTree} (htwo : 2 ≤ s.enc.freq.alphabet.length)
    (h : MergesTo 0 (initialNodes s.enc.freq) tree) :
    t.enc.lasterr = 0#8 ∧ t.enc.ct = pathsTable s.enc.tableDraws (leafPaths tree) := by
  rw [exec_build_of_ok (buildTable_of_mergesTo htwo h _)] at hexec
  cases hexec
  exact ⟨rfl, rfl⟩

/-- A BUILD that succeeded had one symbol, or two or more and the tree of the merge rule. -/
theorem build_alphabet_cases (hok : t.enc.lasterr = 0#8) :
    (∃ c, s.enc.freq.alphabet = [c]) ∨
      2 ≤ s.enc.freq.alphabet.length ∧ ∃ tree, MergesTo 0 (initialNodes s.enc.freq) tree := by
  match halphabet : s.enc.freq.alphabet with
  | [] =>
    rw [exec_build_of_error (buildTable_of_no_symbol halphabet _)] at hexec
    cases hexec
    have hst : Status.emptyAlphabet = .ok := code_eq_zero.mp hok
    cases hst
  | [c] => exact .inl ⟨c, rfl⟩
  | c :: d :: rest => exact .inr ⟨Nat.le_add_left 2 _, _, mergesTo_huffmanTree halphabet⟩

end

namespace PathsCode
variable {F : Freq} {paths : List (Symbol × List Bool)} {draw : Nat}

theorem alphabet_eq (h : PathsCode F paths) : (pathsTable draw paths).alphabet = F.alphabet := by
  rw [Table.alphabet_eq, Freq.alphabet_eq]
  exact List.filter_congr fun c _ => decide_eq_decide.mpr (h.len_ne_zero_iff c)

/-- The free words of absent entries, in which two tables of the same paths differ, do not count (10_state.md R24). -/
theorem same (h : PathsCode F paths) (draw draw' : Nat) : (pathsTable draw paths).Same (pathsTable draw' paths) := by
  intro c
  by_cases hc : c ∈ paths.map Prod.fst
  · obtain ⟨sp, hsp, rfl⟩ := List.mem_map.mp hc
    rw [h.get_eq hsp, h.get_eq hsp]
    exact ⟨rfl, rfl⟩
  · rw [pathsTable, pathsTable, get_foldl_putPath_of_notMem hc, get_foldl_putPath_of_notMem hc, Table.absent_get,
      Table.absent_get]
    exact ⟨rfl, (Nat.mod_one _).trans (Nat.mod_one _).symm⟩

end PathsCode

/-! ### Completeness (R91 (c)) -/

/-- The way to a leaf of a child goes on from the bit that leads to the child. -/
theorem mem_leafPaths_of_child {l r : HTree} {b : Bool} {sp : Symbol × List Bool}
    (h : sp ∈ leafPaths (if b then r else l)) : (sp.1, b :: sp.2) ∈ leafPaths (.node l r) := by
  cases b with
  | false => exact mem_leafPaths_node.mpr (.inl ⟨_, h, rfl⟩)
  | true => exact mem_leafPaths_node.mpr (.inr ⟨_, h, rfl⟩)

/-- Bits that are long enough lead from the root to a leaf. -/
theorem exists_path_prefix {t : HTree} {q : List Bool} (h : ∀ sp ∈ leafPaths t, sp.2.length ≤ q.length) :
    ∃ sp ∈ leafPaths t, sp.2 <+: q := by
  induction t generalizing q with
  | leaf c => exact ⟨(c, []), List.mem_singleton_self _, List.nil_prefix⟩
  | node l r ihl ihr =>
    cases q with
    | nil =>
      obtain ⟨sp, hsp⟩ := List.exists_mem_of_length_pos (leafPaths_length_pos l)
      exact absurd (h _ (mem_leafPaths_of_child (b := false) hsp)) (Nat.not_succ_le_zero _)
    | cons b q =>
      have ih : (∀ sp ∈ leafPaths (if b then r else l), sp.2.length ≤ q.length) →
          ∃ sp ∈ leafPaths (if b then r else l), sp.2 <+: q := by
        cases b with
        | false => exact ihl
        | true => exact ihr
      obtain ⟨sp, hsp, hq⟩ := ih fun sp hsp => Nat.le_of_succ_le_succ (h _ (mem_leafPaths_of_child hsp))
      exact ⟨_, mem_leafPaths_of_child hsp, List.cons_prefix_cons.mpr ⟨rfl, hq⟩⟩

/-- A leaf of depth `d` takes the share `2^-d` of all bit sequences, and all leaves together take them all. -/
theorem sum_path_shares {t : HTree} {N : Nat} (h : ∀ sp ∈ leafPaths t, sp.2.length ≤ N) :
    ((leafPaths t).map fun sp => 2 ^ (N - sp.2.length)).sum = 2 ^ N := by
  induction t generalizing N with
  | leaf c => simp [leafPaths]
  | node l r ihl ihr =>
    simp only [leafPaths, List.forall_mem_append, List.forall_mem_map, List.length_cons] at h
    obtain ⟨hl, hr⟩ := h
    cases N with
    | zero =>
      obtain ⟨sp, hsp⟩ := List.exists_mem_of_length_pos (leafPaths_length_pos l)
      exact absurd (hl sp hsp) (Nat.not_succ_le_zero _)
    | succ N =>
      simp only [leafPaths, List.map_append, List.map_map, List.sum_append, Function.comp_def, List.length_cons,
        Nat.succ_sub_succ]
      rw [ihl fun sp hsp => Nat.le_of_succ_le_succ (hl sp hsp), ihr fun sp hsp => Nat.le_of_succ_le_succ (hr sp hsp),
        Nat.pow_succ, Nat.mul_two]

/-- Settles O28: the codewords are the leaves of a tree in which every inner node has both children. -/
theorem builtCodesAreComplete : Obligations.BuiltCodesAreComplete := by
  unfold Obligations.BuiltCodesAreComplete
  intro s t hexec hok hcard
  obtain ⟨c, hsingle⟩ | ⟨htwo, tree, htree⟩ := build_alphabet_cases hexec hok
  · rw [(build_of_one_symbol hexec hsingle).2, (pathsCode_single hsingle).alphabet_eq, hsingle] at hcard
    exact absurd hcard (by simp)
  · have hcode := pathsCode_of_mergesTo htwo htree
    rw [(build_of_mergesTo hexec htwo htree).2]
    refine ⟨fun q hq => ?unique, ?sum⟩
    case unique =>
      obtain ⟨sp, hsp, hprefix⟩ := exists_path_prefix fun sp hsp => (hcode.length_le sp hsp).trans hq
      refine ⟨sp.1, ⟨hcode.len_ne_zero hsp, (hcode.code_eq hsp).symm ▸ hprefix⟩, fun c ⟨hc, hcq⟩ => ?_⟩
      have hmem := hcode.mem_of_len_ne_zero hc
      rcases List.prefix_or_prefix_of_prefix hcq hprefix with h | h
      · exact congrArg Prod.fst (hcode.eq_of_prefix _ hmem _ hsp h)
      · exact congrArg Prod.fst (hcode.eq_of_prefix _ hsp _ hmem h).symm
    case sum =>
      rw [hcode.alphabet_eq, ← (hcode.symbols.map _).sum_eq, List.map_map, ← sum_path_shares hcode.length_le]
      refine congrArg List.sum (List.map_congr_left fun sp hsp => ?_)
      rw [Function.comp_apply, hcode.len_toNat hsp]

/-! ### A common factor of the weights (10_state.md R13) -/

/-- The node with its weight multiplied. -/
def Pending.scale (k : Nat) (x : Pending) : Pending := { x with weight := k * x.weight }

theorem Pending.Less.scale {k : Nat} (hk : 0 < k) {x y : Pending} (h : x.Less y) : (x.scale k).Less (y.scale k) :=
  h.imp (fun hlt => Nat.mul_lt_mul_of_pos_left hlt hk) fun ⟨heq, hseq⟩ => ⟨congrArg (k * ·) heq, hseq⟩

/-- A common factor changes no comparison and distributes over every sum, so the same nodes are merged. -/
theorem MergesTo.scale {k m : Nat} (hk : 0 < k) {P : List Pending} {t : HTree} (h : MergesTo m P t) :
    MergesTo m (P.map (Pending.scale k)) t := by
  induction h with
  | done m x => exact .done m (x.scale k)
  | merge m P x y rest t hP hx hy _ ih =>
    simp only [List.forall_mem_cons] at hx
    obtain ⟨hxy, hxrest⟩ := hx
    refine .merge m _ (x.scale k) (y.scale k) (rest.map (Pending.scale k)) t (hP.map _) ?_ ?_ ?_
    · exact List.forall_mem_cons.mpr ⟨hxy.scale hk, List.forall_mem_map.mpr fun z hz => (hxrest z hz).scale hk⟩
    · exact List.forall_mem_map.mpr fun z hz => (hy z hz).scale hk
    · rw [List.map_cons] at ih
      simpa only [Pending.scale, Nat.mul_add] using ih

section
variable {F F' : Freq} {k : Nat} (hk : 0 < k) (h : ∀ c, F'.get c = k * F.get c)
include hk h

theorem alphabet_of_scaled : F'.alphabet = F.alphabet := by
  rw [F'.alphabet_eq, F.alphabet_eq]
  refine List.filter_congr fun c _ => decide_eq_decide.mpr ?_
  rw [h, Nat.mul_ne_zero_iff, and_iff_right (Nat.ne_of_gt hk)]

theorem initialNodes_of_scaled : initialNodes F' = (initialNodes F).map (Pending.scale k) := by
  rw [initialNodes_eq, initialNodes_eq, alphabet_of_scaled hk h, List.map_map]
  refine List.map_congr_left fun c _ => ?_
  rw [Function.comp_apply, pendingOf, h]
  rfl

end

/-- Settles O32: the two merges end with the same tree. -/
theorem buildIgnoresACommonFactor : Obligations.BuildIgnoresACommonFactor := by
  unfold Obligations.BuildIgnoresACommonFactor
  intro s s' t t' k hk hscaled hexec hexec' hok
  have halphabet := alphabet_of_scaled hk hscaled
  obtain ⟨c, hsingle⟩ | ⟨htwo, tree, htree⟩ := build_alphabet_cases hexec hok
  · obtain ⟨hok', htable'⟩ := build_of_one_symbol hexec' (halphabet.trans hsingle)
    rw [htable', (build_of_one_symbol hexec hsingle).2]
    exact ⟨hok', (pathsCode_single hsingle).same _ _⟩
  · have htree' : MergesTo 0 (initialNodes s'.enc.freq) tree := initialNodes_of_scaled hk hscaled ▸ htree.scale hk
    obtain ⟨hok', htable'⟩ := build_of_mergesTo hexec' (halphabet ▸ htwo) htree'
    rw [htable', (build_of_mergesTo hexec htwo htree).2]
    exact ⟨hok', (pathsCode_of_mergesTo htwo htree).same _ _⟩

/-! ### Heavier symbols (R91 (f)) -/

theorem Pending.Less.ne {x y : Pending} (h : x.Less y) : x ≠ y := by
  rintro rfl
  exact h.asymm h

/-- Any other node weighs half as much or more, as is so of a node just made: its two children were the least. -/
def HalfBounded (n : Pending) (P : List Pending) : Prop := ∀ u ∈ P, u ≠ n → n.weight ≤ 2 * u.weight

/-- `depth` is the depth at which the pending nodes `P` hang in the tree `t` that the merge rule makes of them: a
greater node hangs no deeper, and nothing hangs deeper than one level below a node of which no other weighs less than
half. -/
structure DepthsIn (t : HTree) (P : List Pending) (depth : Pending → Nat) : Prop where
  hangs : ∀ x ∈ P, ∀ sp ∈ leafPaths x.tree, ∃ q, q.length = depth x ∧ (sp.1, q ++ sp.2) ∈ leafPaths t
  antitone : ∀ u ∈ P, ∀ v ∈ P, u.Less v → depth v ≤ depth u
  spread : ∀ n ∈ P, HalfBounded n P → ∀ z ∈ P, depth z ≤ depth n + 1

/-- The depths before two nodes are merged into `m`: both hang one level below it. -/
def depthBelow (m x y : Pending) (depth : Pending → Nat) (z : Pending) : Nat :=
  if z = x ∨ z = y then depth m + 1 else depth z

section
variable {k : Nat} {t : HTree} {x y : Pending} {rest : List Pending} {depth : Pending → Nat}

theorem halfBounded_mergePair (hx : ∀ z ∈ y :: rest, x.Less z) (hy : ∀ z ∈ rest, y.Less z) :
    HalfBounded (mergePair k x y) (mergePair k x y :: rest) := by
  intro u hu hne
  have hu := (List.mem_cons.mp hu).resolve_left hne
  have hxu := hx u (List.mem_cons_of_mem _ hu)
  have hyu := hy u hu
  unfold Pending.Less at hxu hyu
  show x.weight + y.weight ≤ 2 * u.weight
  omega

/-- A node of which no other weighs less than half is no heavier than the parent of the two least. -/
theorem HalfBounded.weight_le_mergePair {n : Pending} (h : HalfBounded n (x :: y :: rest))
    (hx : ∀ z ∈ y :: rest, x.Less z) (hn : n ∈ rest) : n.weight ≤ (mergePair k x y).weight := by
  have hhalf := h x List.mem_cons_self (hx n (List.mem_cons_of_mem _ hn)).ne
  have hxy := hx y List.mem_cons_self
  unfold Pending.Less at hxy
  show n.weight ≤ x.weight + y.weight
  omega

/-- A node to be merged hangs one level below its parent; another hangs where it hung. -/
theorem depthBelow_cases (m : Pending) (depth : Pending → Nat) {z : Pending} (hz : z ∈ x :: y :: rest) :
    (z = x ∨ z = y) ∧ depthBelow m x y depth z = depth m + 1 ∨ z ∈ rest ∧ depthBelow m x y depth z = depth z := by
  unfold depthBelow
  by_cases hmerged : z = x ∨ z = y
  · exact .inl ⟨hmerged, if_pos hmerged⟩
  · obtain ⟨hzx, hzy⟩ := not_or.mp hmerged
    exact .inr ⟨(List.mem_cons.mp ((List.mem_cons.mp hz).resolve_left hzx)).resolve_left hzy, if_neg hmerged⟩

/-- The depths after a merge give depths before it that have the same properties. -/
theorem DepthsIn.of_merged (hseqs : DistinctSeqs k (x :: y :: rest)) (hx : ∀ z ∈ y :: rest, x.Less z)
    (hy : ∀ z ∈ rest, y.Less z) (h : DepthsIn t (mergePair k x y :: rest) depth) :
    DepthsIn t (x :: y :: rest) (depthBelow (mergePair k x y) x y depth) := by
  have hparent : mergePair k x y ∈ mergePair k x y :: rest := List.mem_cons_self
  have hkept : ∀ {z}, z ∈ rest → z ∈ mergePair k x y :: rest := List.mem_cons_of_mem _
  have hbelow : ∀ z ∈ rest, depth z ≤ depth (mergePair k x y) + 1 := fun z hz =>
    h.spread _ hparent (halfBounded_mergePair hx hy) z (hkept hz)
  constructor
  case hangs =>
    intro z hz sp hsp
    rcases depthBelow_cases _ depth hz with ⟨hmerged, hd⟩ | ⟨hz, hd⟩ <;> rw [hd]
    · obtain ⟨b, hchild⟩ : ∃ b, (sp.1, b :: sp.2) ∈ leafPaths (mergePair k x y).tree := by
        rcases hmerged with rfl | rfl
        · exact ⟨false, mem_leafPaths_of_child hsp⟩
        · exact ⟨true, mem_leafPaths_of_child hsp⟩
      obtain ⟨q, hq, hpath⟩ := h.hangs _ hparent _ hchild
      exact ⟨q ++ [b], by rw [List.length_append, hq, List.length_singleton], List.append_cons q b sp.2 ▸ hpath⟩
    · exact h.hangs z (hkept hz) sp hsp
  case antitone =>
    intro u hu v hv hless
    rcases depthBelow_cases _ depth hu with ⟨_, hdu⟩ | ⟨hu', hdu⟩ <;>
      rcases depthBelow_cases _ depth hv with ⟨hmerged, hdv⟩ | ⟨hv', hdv⟩ <;> rw [hdu, hdv]
    · exact hbelow v hv'
    · rcases hmerged with rfl | rfl
      · exact absurd (hx u (List.mem_cons_of_mem _ hu')) hless.asymm
      · exact absurd (hy u hu') hless.asymm
    · exact h.antitone u (hkept hu') v (hkept hv') hless
  case spread =>
    intro n hn hhalf z hz
    rcases depthBelow_cases _ depth hn with ⟨_, hdn⟩ | ⟨hn', hdn⟩ <;>
      rcases depthBelow_cases _ depth hz with ⟨_, hdz⟩ | ⟨hz, hdz⟩ <;> rw [hdn, hdz]
    · exact Nat.le_succ _
    · exact (hbelow z hz).trans (Nat.le_succ _)
    · have hless : n.Less (mergePair k x y) := by
        have hseq : n.seq < (mergePair k x y).seq := hseqs.2 n hn
        exact (Nat.lt_or_eq_of_le (hhalf.weight_le_mergePair hx hn')).imp_right fun heq => ⟨heq, hseq⟩
      exact Nat.succ_le_succ (h.antitone n (hkept hn') _ hparent hless)
    · refine h.spread n (hkept hn') (fun u hu hne => ?_) z (hkept hz)
      rcases List.mem_cons.mp hu with rfl | hu
      · exact (hhalf.weight_le_mergePair hx hn').trans (Nat.le_mul_of_pos_left _ Nat.two_pos)
      · exact hhalf u (List.mem_cons_of_mem _ (List.mem_cons_of_mem _ hu)) hne

theorem DepthsIn.perm {P P' : List Pending} (h : DepthsIn t P depth) (hperm : P'.Perm P) : DepthsIn t P' depth where
  hangs x hx := h.hangs x (hperm.subset hx)
  antitone u hu v hv := h.antitone u (hperm.subset hu) v (hperm.subset hv)
  spread n hn hhalf z hz :=
    h.spread n (hperm.subset hn) (fun u hu => hhalf u (hperm.symm.subset hu)) z (hperm.subset hz)

theorem DistinctSeqs.perm {P P' : List Pending} (h : DistinctSeqs k P) (hperm : P'.Perm P) : DistinctSeqs k P' :=
  ⟨(hperm.map Pending.seq).nodup_iff.mpr h.1, fun z hz => h.2 z (hperm.subset hz)⟩

theorem MergesTo.exists_depthsIn {P : List Pending} (h : MergesTo k P t) (hseqs : DistinctSeqs k P) :
    ∃ depth, DepthsIn t P depth := by
  induction h with
  | done k x =>
    exact ⟨fun _ => 0, fun z hz sp hsp => ⟨[], rfl, List.mem_singleton.mp hz ▸ hsp⟩,
      fun _ _ _ _ _ => Nat.le_refl 0, fun _ _ _ _ _ => Nat.zero_le 1⟩
  | merge k P x y rest t hP hx hy _ ih =>
    have hseqs' := hseqs.perm hP.symm
    obtain ⟨depth, hdepth⟩ := ih hseqs'.merge
    exact ⟨_, (hdepth.of_merged hseqs' hx hy).perm hP⟩

end

/-- Settles O60: of two symbols the heavier is the greater node before the first merge, and hangs no deeper. -/
theorem heavierSymbolsHaveNoLongerCodewords : Obligations.HeavierSymbolsHaveNoLongerCodewords := by
  unfold Obligations.HeavierSymbolsHaveNoLongerCodewords
  intro s t hexec hok c d hc hlt
  have hcmem := Freq.mem_alphabet.mpr hc
  have hdmem := Freq.mem_alphabet.mpr (Nat.ne_zero_of_lt hlt)
  obtain ⟨e, hsingle⟩ | ⟨htwo, tree, htree⟩ := build_alphabet_cases hexec hok
  · rw [hsingle, List.mem_singleton] at hcmem hdmem
    exact absurd hlt (hcmem.trans hdmem.symm ▸ Nat.lt_irrefl _)
  · have hcode := pathsCode_of_mergesTo htwo htree
    obtain ⟨depth, hdepth⟩ := htree.exists_depthsIn (distinctSeqs_initialNodes _)
    have hlen : ∀ e ∈ s.enc.freq.alphabet, (t.enc.ct.get e).len.toNat = depth (pendingOf s.enc.freq e) := by
      intro e he
      obtain ⟨q, hq, hpath⟩ :=
        hdepth.hangs (pendingOf s.enc.freq e) (List.mem_map_of_mem he) (e, []) (List.mem_singleton_self _)
      rw [(build_of_mergesTo hexec htwo htree).2, hcode.len_toNat hpath, List.append_nil, hq]
    rw [hlen c hcmem, hlen d hdmem]
    exact hdepth.antitone _ (List.mem_map_of_mem hcmem) _ (List.mem_map_of_mem hdmem) (.inl hlt)

end Sys2Proof.Machine

/-! More of 45_decoder.md: the table form of the decoder agrees with the trie (R146), and how many nodes a trie has
(R141). -/

namespace Sys2Proof.Machine

/-! ### Lookup (R146) -/

/-- A codeword is a bit sequence of the entry's length whose value is that of the word's low bits. -/
theorem Table.code_eq_iff {T : Table} {c : Symbol} {p : List Bool} :
    T.code c = p ↔
      (T.get c).len.toNat = p.length ∧ (T.get c).word.toNat % 2 ^ (T.get c).len.toNat = valMsb p := by
  constructor
  · rintro rfl
    exact ⟨(T.code_length c).symm, (valMsb_bitsMsb _ _).symm⟩
  · rintro ⟨hlen, hvalue⟩
    rw [Table.code, ← bitsMsb_mod, hvalue, hlen, bitsMsb_valMsb]

theorem valMsb_concat (p : List Bool) (b : Bool) : valMsb (p ++ [b]) = 2 * valMsb p + b.toNat := by
  rw [valMsb_append, valMsb_cons, valMsb_nil, List.length_nil, List.length_singleton, Nat.pow_zero, Nat.pow_one]
  omega

section
variable {T : Table} (hT : T.PrefixFree)
include hT

/-- `Lookup(T)` is a function: at most one symbol has the codeword looked up. -/
theorem lookup_eq_some_iff {p : List Bool} {c : Symbol} :
    T.lookup p.length (valMsb p) = some c ↔ (T.get c).len ≠ 0#8 ∧ T.code c = p := by
  have hfound : ∀ {d}, T.lookup p.length (valMsb p) = some d → (T.get d).len ≠ 0#8 ∧ T.code d = p := fun {d} h => by
    have htest := List.find?_some h
    rw [Bool.and_eq_true, decide_eq_true_eq, decide_eq_true_eq] at htest
    exact ⟨Table.mem_alphabet.mp (List.mem_of_find?_eq_some h), Table.code_eq_iff.mpr htest⟩
  refine ⟨hfound, fun ⟨hc, hcode⟩ => ?_⟩
  cases hlookup : T.lookup p.length (valMsb p) with
  | none =>
    obtain ⟨hlen, hvalue⟩ := Table.code_eq_iff.mp hcode
    refine absurd ?_ (List.find?_eq_none.mp hlookup c (Table.mem_alphabet.mpr hc))
    rw [Bool.and_eq_true, decide_eq_true_eq, decide_eq_true_eq]
    exact ⟨hlen, hvalue⟩
  | some d =>
    obtain ⟨hd, hdcode⟩ := hfound hlookup
    by_contra hne
    exact hT d c (fun hdc => hne (congrArg some hdc)) hd hc (hdcode.trans hcode.symm ▸ List.prefix_refl _)

/-- Looking bits up finds what the trie accepts at the end of their path. -/
theorem lookup_eq_acceptsAt (p : List Bool) : T.lookup p.length (valMsb p) = (trieBuild T).acceptsAt p :=
  Option.ext fun _ => (lookup_eq_some_iff hT).trans (trieBuild_acceptsAt hT).symm

/-! ### The walk with an explicit state (R146) -/

section
variable {n k : Nat} {p q : List Bool} {b : Bool}

theorem lookup_next_bit :
    T.lookup (p.length + 1) (2 * valMsb p + b.toNat) = (trieBuild T).acceptsAt (p ++ [b]) := by
  rw [← lookup_eq_acceptsAt hT, valMsb_concat, List.length_append, List.length_singleton]

theorem tableWalkFrom_accept {c : Symbol} (h : (trieBuild T).acceptsAt (p ++ [b]) = some c) :
    tableWalkFrom T (n + 1) p.length (valMsb p) k (b :: q) =
      (tableWalkFrom T n 0 0 (k + 1) q).map fun r => (c :: r.1, r.2) := by
  rw [tableWalkFrom, lookup_next_bit hT, h]
  cases tableWalkFrom T n 0 0 (k + 1) q <;> rfl

theorem tableWalkFrom_go_on (h : (trieBuild T).acceptsAt (p ++ [b]) = none) :
    tableWalkFrom T (n + 1) p.length (valMsb p) k (b :: q) =
      tableWalkFrom T (n + 1) (p ++ [b]).length (valMsb (p ++ [b])) (k + 1) q := by
  rw [tableWalkFrom, lookup_next_bit hT, h, valMsb_concat, List.length_append, List.length_singleton]

/-- Bits that have left the trie are looked up in vain until they run out. -/
theorem tableWalkFrom_of_dead (hp : (trieBuild T).nodeAt p = none) :
    tableWalkFrom T (n + 1) p.length (valMsb p) k q = none := by
  induction q generalizing p k with
  | nil => rfl
  | cons b q ih =>
    have hdead := Arena.nodeAt_append_of_none hp [b]
    rw [tableWalkFrom_go_on hT (by rw [Arena.acceptsAt, hdead, Option.bind_none])]
    exact ih hdead

/-- Bit by bit the bits read so far lead to a node of the trie, and looking them up finds the symbol of a leaf. -/
theorem tableWalkFrom_eq_walkFrom {cur : Nat} (hp : (trieBuild T).nodeAt p = some cur) :
    tableWalkFrom T n p.length (valMsb p) k q = walkFrom (trieBuild T) n cur k q := by
  induction q generalizing n p cur k with
  | nil => cases n <;> rfl
  | cons b q ih =>
    have hat := Arena.nodeAt_concat_of_nodeAt (b := b) hp
    cases n with
    | zero => rfl
    | succ n =>
      cases hchild : ((trieBuild T).node cur).child b with
      | none =>
        rw [hchild] at hat
        rw [tableWalkFrom_go_on hT (by rw [Arena.acceptsAt, hat, Option.bind_none]), tableWalkFrom_of_dead hT hat]
        simp only [walkFrom, hchild]
      | some j =>
        rw [hchild] at hat
        have haccepts := Arena.acceptsAt_of_nodeAt hat
        by_cases hleaf : ((trieBuild T).node j).leaf = true
        · rw [Node.accepts, if_pos hleaf] at haccepts
          rw [tableWalkFrom_accept hT haccepts, walkFrom_accept hchild hleaf, ← ih (Arena.nodeAt_nil _)]
          rfl
        · rw [Node.accepts, if_neg hleaf] at haccepts
          rw [tableWalkFrom_go_on hT haccepts, walkFrom_internal hchild hleaf, ih hat]

end

end

/-- Settles O54: Lookup finds the symbol whose codeword it is given, as the trie does at the end of its path, so that the
two walks go together. -/
theorem trieAndTableFormAgree : Obligations.TrieAndTableFormAgree := by
  unfold Obligations.TrieAndTableFormAgree
  refine fun T hT => ⟨fun c hc => ?lookup, fun n P => ?walk⟩
  case lookup =>
    obtain ⟨hlen, hvalue⟩ := Table.code_eq_iff.mp (Eq.refl (T.code c))
    rw [hvalue, hlen]
    exact (lookup_eq_some_iff hT).mpr ⟨hc, rfl⟩
  case walk =>
    have hwalk := tableWalkFrom_eq_walkFrom hT (p := []) (n := n) (k := 0) (q := bitsOfBytes P) (Arena.nodeAt_nil _)
    rw [tableWalk, decodeWalk, ← hwalk]
    rfl

/-! ### The number of nodes (R141) -/

theorem trieDescend_length_le (A : Arena) (cur : Nat) (q : List Bool) :
    (trieDescend A cur q).1.length ≤ A.length + q.length := by
  induction q generalizing A cur with
  | nil => exact Nat.le_refl _
  | cons b q ih =>
    rw [trieDescend, List.length_cons]
    split
    next => exact (ih A _).trans (by omega)
    next =>
      have hgrown := ih (A.grow cur b) A.length
      rw [Arena.length_grow] at hgrown
      omega

theorem trieInsert_length (T : Table) (A : Arena) (c : Symbol) :
    (trieInsert T A c).length = (trieDescend A 0 (T.code c)).1.length := List.length_set

/-- Every codeword adds 255 nodes at most. -/
theorem foldl_trieInsert_length_le (T : Table) (cs : List Symbol) (A : Arena) :
    (cs.foldl (trieInsert T) A).length ≤ A.length + 255 * cs.length := by
  induction cs generalizing A with
  | nil => exact Nat.le_refl _
  | cons c cs ih =>
    have hinsert := trieDescend_length_le A 0 (T.code c)
    rw [← trieInsert_length, Table.code_length] at hinsert
    have hlen := (T.get c).len.isLt
    refine (ih _).trans ?_
    rw [List.length_cons]
    omega

/-- The bit paths that lead to a node, listed once each; there are as many as nodes. -/
structure Arena.HasPaths (A : Arena) (L : List (List Bool)) : Prop where
  nodup : L.Nodup
  mem_iff : ∀ p, p ∈ L ↔ ∃ i, A.nodeAt p = some i
  length_eq : L.length = A.length

namespace Arena.HasPaths

theorem singleton : Arena.HasPaths [Node.new] [[]] where
  nodup := List.nodup_singleton _
  mem_iff p := by
    rw [List.mem_singleton]
    constructor
    · rintro rfl
      exact ⟨0, rfl⟩
    · rintro ⟨i, hi⟩
      have hzero : i = 0 := Nat.lt_one_iff.mp (IsTree.singleton.lt_length hi)
      exact IsTree.singleton.path_unique hi (hzero ▸ Arena.nodeAt_nil _)
  length_eq := rfl

variable {A : Arena} {L : List (List Bool)} {p : List Bool} {cur : Nat} {b : Bool}

theorem grow (h : A.HasPaths L) (hA : A.IsTree) (hp : A.nodeAt p = some cur) (hnone : (A.node cur).child b = none) :
    (A.grow cur b).HasPaths ((p ++ [b]) :: L) where
  nodup := by
    refine List.nodup_cons.mpr ⟨fun hmem => ?_, h.nodup⟩
    obtain ⟨i, hi⟩ := (h.mem_iff _).mp hmem
    rw [Arena.nodeAt_concat_of_nodeAt hp, hnone] at hi
    cases hi
  mem_iff q := by
    rw [hA.nodeAt_grow hp hnone, List.mem_cons, h.mem_iff]
    split
    next hq => exact ⟨fun _ => ⟨_, rfl⟩, fun _ => .inl hq⟩
    next hq => exact or_iff_right hq
  length_eq := by rw [List.length_cons, h.length_eq, Arena.length_grow]

theorem mark (h : A.HasPaths L) (hlt : cur < A.length) (c : Symbol) : (A.mark cur c).HasPaths L where
  nodup := h.nodup
  mem_iff q := by rw [Arena.nodeAt_mark hlt, h.mem_iff]
  length_eq := h.length_eq.trans (Arena.length_mark A cur c).symm

/-- Following a bit path adds the paths to it that are missing. -/
theorem descend (h : A.HasPaths L) (hA : A.IsTree) (hp : A.nodeAt p = some cur) (q : List Bool) :
    ∃ L', (trieDescend A cur q).1.HasPaths L' ∧ ∀ r, r ∈ L' ↔ r ∈ L ∨ r <+: p ++ q := by
  induction q generalizing A L p cur with
  | nil =>
    refine ⟨L, h, fun r => (or_iff_left_of_imp fun hr => ?_).symm⟩
    obtain ⟨q, hq⟩ := hr
    rw [List.append_nil] at hq
    cases hr : A.nodeAt r with
    | some i => exact (h.mem_iff r).mpr ⟨i, hr⟩
    | none =>
      have hdead := Arena.nodeAt_append_of_none hr q
      rw [hq, hp] at hdead
      cases hdead
  | cons b q ih =>
    rw [trieDescend, List.append_cons]
    split
    next j hchild => exact ih h hA ((Arena.nodeAt_concat_of_nodeAt hp).trans hchild)
    next hnone =>
      obtain ⟨L', hL', hmem⟩ := ih (h.grow hA hp hnone) (hA.grow hp hnone)
        ((hA.nodeAt_grow hp hnone _).trans (if_pos rfl))
      refine ⟨L', hL', fun r => (hmem r).trans ?_⟩
      rw [List.mem_cons, or_assoc]
      exact or_iff_right_of_imp fun hr => .inr (hr ▸ List.prefix_append _ _)

theorem insert (h : A.HasPaths L) (hA : A.IsTree) (T : Table) (c : Symbol) :
    ∃ L', (trieInsert T A c).HasPaths L' ∧ ∀ r, r ∈ L' ↔ r ∈ L ∨ r <+: T.code c := by
  obtain ⟨L', hL', hmem⟩ := h.descend hA A.nodeAt_nil (T.code c)
  obtain ⟨htree, hat, -⟩ := hA.descend A.nodeAt_nil (T.code c)
  exact ⟨L', hL'.mark (htree.lt_length hat) c, hmem⟩

theorem foldl_trieInsert (h : A.HasPaths L) (hA : A.IsTree) (T : Table) (cs : List Symbol) :
    ∃ L', (cs.foldl (trieInsert T) A).HasPaths L' ∧ ∀ r, r ∈ L' ↔ r ∈ L ∨ ∃ c ∈ cs, r <+: T.code c := by
  induction cs generalizing A L with
  | nil => exact ⟨L, h, fun r => by simp⟩
  | cons c cs ih =>
    obtain ⟨L₁, hL₁, hmem₁⟩ := h.insert hA T c
    obtain ⟨L₂, hL₂, hmem₂⟩ := ih hL₁ (hA.insert T c).1
    refine ⟨L₂, hL₂, fun r => ?_⟩
    rw [hmem₂, hmem₁, List.exists_mem_cons_iff, or_assoc]

end Arena.HasPaths

/-- A trie has one node for each beginning of a codeword, the root for the empty one. -/
theorem trieBuild_length {T : Table} {L : List (List Bool)} (hnodup : L.Nodup)
    (hL : ∀ p, p ∈ L ↔ p = [] ∨ ∃ c, (T.get c).len ≠ 0#8 ∧ p <+: T.code c) : (trieBuild T).length = L.length := by
  obtain ⟨L', hL', hmem⟩ := Arena.HasPaths.singleton.foldl_trieInsert .singleton T T.alphabet
  rw [trieBuild, ← hL'.length_eq]
  refine ((List.perm_ext_iff_of_nodup hL'.nodup hnodup).mpr fun p => ?_).length_eq
  simp only [hmem, hL, List.mem_singleton, Table.mem_alphabet]

/-- The bit paths to all nodes of a tree. -/
def nodePaths : HTree → List (List Bool)
  | .leaf _ => [[]]
  | .node l r => [] :: ((nodePaths l).map (false :: ·) ++ (nodePaths r).map (true :: ·))

theorem nil_mem_nodePaths (t : HTree) : [] ∈ nodePaths t := by
  cases t <;> exact List.mem_cons_self

/-- The first bit of a way to a leaf chooses the subtree. -/
theorem exists_leaf_after_bit {l r : HTree} {b : Bool} {p : List Bool} :
    (∃ sp ∈ leafPaths (.node l r), b :: p <+: sp.2) ↔ ∃ sp ∈ leafPaths (if b then r else l), p <+: sp.2 := by
  constructor
  · rintro ⟨sp, hsp, hp⟩
    rcases mem_leafPaths_node.mp hsp with ⟨q, hq, hpath⟩ | ⟨q, hq, hpath⟩ <;>
    · obtain ⟨rfl, hq'⟩ := List.cons_prefix_cons.mp (hpath ▸ hp)
      exact ⟨_, hq, hq'⟩
  · rintro ⟨sp, hsp, hp⟩
    exact ⟨_, mem_leafPaths_of_child hsp, List.cons_prefix_cons.mpr ⟨rfl, hp⟩⟩

/-- The way to a node is the beginning of the way to a leaf. -/
theorem mem_nodePaths {t : HTree} {p : List Bool} : p ∈ nodePaths t ↔ ∃ sp ∈ leafPaths t, p <+: sp.2 := by
  induction t generalizing p with
  | leaf c => simp [nodePaths, leafPaths]
  | node l r ihl ihr =>
    cases p with
    | nil =>
      obtain ⟨sp, hsp⟩ := List.exists_mem_of_length_pos (leafPaths_length_pos (.node l r))
      exact iff_of_true (nil_mem_nodePaths _) ⟨sp, hsp, List.nil_prefix⟩
    | cons b p =>
      rw [exists_leaf_after_bit]
      cases b <;> simp [nodePaths, ihl, ihr]

theorem nodePaths_nodup (t : HTree) : (nodePaths t).Nodup := by
  induction t with
  | leaf c => exact List.nodup_singleton _
  | node l r ihl ihr =>
    refine List.nodup_cons.mpr ⟨by simp, (ihl.map List.cons_injective).append (ihr.map List.cons_injective) ?_⟩
    rintro p hl hr
    obtain ⟨q, -, rfl⟩ := List.mem_map.mp hl
    obtain ⟨q', -, hq'⟩ := List.mem_map.mp hr
    cases hq'

/-- A binary tree has one inner node less than leaves. -/
theorem nodePaths_length (t : HTree) : (nodePaths t).length + 1 = 2 * (leafPaths t).length := by
  induction t with
  | leaf c => rfl
  | node l r ihl ihr =>
    simp only [nodePaths, leafPaths, List.length_cons, List.length_append, List.length_map]
    omega

theorem PathsCode.trieBuild_length {F : Freq} {paths : List (Symbol × List Bool)} {draw : Nat}
    {L : List (List Bool)} (h : PathsCode F paths) (hnodup : L.Nodup)
    (hL : ∀ p, p ∈ L ↔ p = [] ∨ ∃ sp ∈ paths, p <+: sp.2) :
    (trieBuild (pathsTable draw paths)).length = L.length := by
  refine Machine.trieBuild_length hnodup fun p => (hL p).trans (or_congr_right ⟨?_, ?_⟩)
  · rintro ⟨sp, hsp, hp⟩
    exact ⟨sp.1, h.len_ne_zero hsp, (h.code_eq hsp).symm ▸ hp⟩
  · rintro ⟨c, hc, hp⟩
    exact ⟨_, h.mem_of_len_ne_zero hc, hp⟩

/-- Settles O55: a codeword adds no more nodes than it has bits, and the trie of a built table has the nodes of the tree
that BUILD made. -/
theorem trieSizes : Obligations.TrieSizes := by
  unfold Obligations.TrieSizes
  refine ⟨fun T => ?bound, fun s t hexec hok => ?built⟩
  case bound =>
    have hlen := foldl_trieInsert_length_le T T.alphabet [Node.new]
    have hcard := T.alphabet_length_le
    rw [List.length_singleton] at hlen
    unfold trieBuild
    omega
  case built =>
    obtain ⟨c, hsingle⟩ | ⟨htwo, tree, htree⟩ := build_alphabet_cases hexec hok
    · have hcode := pathsCode_single hsingle
      rw [(build_of_one_symbol hexec hsingle).2, hcode.alphabet_eq, hsingle, List.length_singleton, if_pos rfl]
      refine hcode.trieBuild_length (L := [[], [false]]) (by decide) fun p => ?_
      simp [List.prefix_cons_iff]
    · have hcode := pathsCode_of_mergesTo htwo htree
      have hleaves : (leafPaths tree).length = s.enc.freq.alphabet.length :=
        (List.length_map _).symm.trans hcode.symbols.length_eq
      have hnodes : ∀ p, p ∈ nodePaths tree ↔ p = [] ∨ ∃ sp ∈ leafPaths tree, p <+: sp.2 := fun p =>
        mem_nodePaths.trans (or_iff_right_of_imp fun hp => mem_nodePaths.mp (hp ▸ nil_mem_nodePaths tree)).symm
      rw [(build_of_mergesTo hexec htwo htree).2, hcode.alphabet_eq, if_neg (by omega),
        hcode.trieBuild_length (nodePaths_nodup tree) hnodes, ← hleaves, ← nodePaths_length, Nat.add_sub_cancel]

end Sys2Proof.Machine
